-- ==== Sys2Proof/Word.lean ====
section
/-! DEFINITION. The word types of the core (00_scope.md rules R6, R7) and the clock's word (60_exceptions.md
rules R540, R542). -/

namespace Sys2Proof

/-- A byte: every data value, register and memory cell (R6). -/
abbrev Byte := BitVec 8

/-- A 16-bit value: code addresses, data pointers, external-data addresses (R6). -/
abbrev Addr := BitVec 16

/-- A clock value or a Deadline's `wake_at`, a u64 (R540, R542). -/
abbrev Tick := BitVec 64

/-- `INF = 2^64 - 1`, the "infinite future" of R542. -/
def Tick.inf : Tick := BitVec.allOnes 64

end Sys2Proof
end

