-- ==== Sys2Proof/Config.lean ====
section
/-! DEFINITION. The implementation parameters of 00_scope.md rule R8, each as plain data, the types they need, and the
free values: opaque constants about which nothing can be proved. -/

namespace Sys2Proof

/-- A memory: (address, byte) pairs, addresses strictly rising, no entry equal to what an unlisted address reads as
(Machine/Memory.lean). -/
abbrev Memory := List Host.Cell

/-- The fault kinds of 60_exceptions.md rule R510, in code order. -/
inductive FaultKind where
  /-- 1: `pc` in BREAKPOINTS at fetch (R504). -/
  | breakpoint
  /-- 2: SP wrapped on a push or a pop (R88, R89). -/
  | stack
  /-- 3: `MOV A,ACC` (R301). -/
  | accToA
  /-- 4: A differs from the snapshot at RETI (R526). -/
  | iretAccMismatch
  /-- 5: SP differs (R526). -/
  | iretSpMismatch
  /-- 6: PSW differs (R526). -/
  | iretPswMismatch
  /-- 7: a data pointer register differs (R526). -/
  | iretDptrMismatch
  /-- 8: a register of the current bank differs (R526). -/
  | iretBankMismatch
  /-- 9: opcode byte 0xA5 (R417). -/
  | illegalOpcode
  /-- 10: two or more devices drive the shared bus (R565). -/
  | busContention
  /-- 11: SPI FIFO overrun or underrun (R567). -/
  | spiXrun
  /-- 12: radio FIFO overrun or underrun (R567). -/
  | radioXrun
  /-- 13: I2C protocol violation (R567). -/
  | i2cError
  /-- 14: MOVX at an address where XDATA_VALID is false (R86). -/
  | xdataRange
  /-- 15: never raised (R510, 00_scope.md R5). -/
  | binaryTranslation
  /-- 16: a command to a busy resource (R566). -/
  | peripheralBusy
  deriving DecidableEq, Repr

/-- The numeric code of a fault kind (R510). -/
def FaultKind.code : FaultKind → Nat
  | .breakpoint => 1 | .stack => 2 | .accToA => 3 | .iretAccMismatch => 4 | .iretSpMismatch => 5
  | .iretPswMismatch => 6 | .iretDptrMismatch => 7 | .iretBankMismatch => 8 | .illegalOpcode => 9
  | .busContention => 10 | .spiXrun => 11 | .radioXrun => 12 | .i2cError => 13 | .xdataRange => 14
  | .binaryTranslation => 15 | .peripheralBusy => 16

/-- The faults a peripheral's handler or tick routine may raise (R510's "raised by" column, R567).
PERIPHERAL_BUSY is no handler's own: `DeviceAction.command` leads to it (R566). -/
inductive PeripheralFault where
  | spiXrun
  | radioXrun
  | i2cError
  deriving DecidableEq, Repr

/-- A Boolean function of SFR bits and peripheral-state bits, as data: the IRQ_TABLE predicates of R531. Every Boolean
function of finitely many bits is one of these (log 10). -/
inductive Cond where
  | const (b : Bool)
  /-- Bit `bit` of the SFR at address `d`. -/
  | sfrBit (d : Byte) (bit : BitVec 3)
  /-- Bit `bit` of byte `byte` of the own state of peripheral number `k`. -/
  | deviceBit (k byte : Nat) (bit : BitVec 3)
  | not (c : Cond)
  | both (c d : Cond)
  | either (c d : Cond)
  deriving DecidableEq, Repr

/-- An interrupt source, a record of IRQ_TABLE (R531). The priority in 0..3 is given by its two bits, each a predicate. -/
structure IrqSource where
  name : String
  vector : Addr
  enabled : Cond
  pending : Cond
  priorityHigh : Cond
  priorityLow : Cond
  /-- `auto_clear`: none, or the SFR address and bit that dispatch clears. -/
  autoClear : Option (Byte × BitVec 3)
  deriving DecidableEq, Repr

/-- The parameters of 00_scope.md rule R8. They are arguments of the step relation, not state of the machine (R30):
they ride in `State.cfg` because the host's `step` takes a State alone, and no operation writes them (log 1).
PERIPHERALS is the list `State.peripherals`. -/
structure Config where
  /-- CODE_SIZE is `2 ^ codeSizeLog2`: exactly the powers of two from 1 to 0x10000 (D2). -/
  codeSizeLog2 : Fin 17
  /-- CYCLES(op), the cost of each of the 256 opcode bytes (D4). -/
  cycles : List Nat
  /-- IRQ_LATENCY (D22). -/
  irqLatency : Nat
  /-- IRQ_TABLE, in tie-break order (D21). -/
  irqTable : List IrqSource
  /-- IRQ_SFRS (D19). -/
  irqSfrs : List Byte
  /-- STRICT_IRET (D23). -/
  strictIret : Bool
  /-- STACK_CHECK (D6). -/
  stackCheck : Bool
  /-- PARITY_TRACKING (D5). -/
  parityTracking : Bool
  /-- The kinds with CONTINUE(kind) false (D27). -/
  stopOn : List FaultKind
  /-- BREAKPOINTS (D28). -/
  breakpoints : List Addr
  /-- XDATA_VALID as closed address ranges (D15). -/
  xdataValid : List (Addr × Addr)
  /-- MOVX_PAGE_SFR (D14). -/
  movxPageSfr : Byte
  /-- DPL1_ADDR (D16). -/
  dpl1Addr : Byte
  /-- DPH1_ADDR (D16). -/
  dph1Addr : Byte
  /-- DPS_ADDR (D16). -/
  dpsAddr : Byte
  /-- SFR_RESET: the SFR addresses it gives a reset value for (D34). -/
  sfrReset : List (Byte × Byte)
  /-- TICK_RATE_HZ (D30). -/
  tickRateHz : Nat
  /-- BUS_IDLE_VALUE, none for UNSPEC (D32). -/
  busIdle : Option Byte
  deriving DecidableEq, Repr

/-- CODE_SIZE (R8). -/
def Config.codeSize (c : Config) : Nat := 2 ^ c.codeSizeLog2.val

/-- Which device a peripheral is. `requestTimer bit` is the test peripheral Timer(t, bit) of 95_test_vectors.md
section 0; every other device is `external id`, whose behaviour is not part of the spec (00_scope.md R5(2)). -/
inductive Device where
  | requestTimer (bit : BitVec 3)
  | external (id : Nat)
  deriving DecidableEq, Repr

/-- A self-timed operation under way (60_exceptions.md rule R566): the resource it keeps busy and its completion
Deadline. -/
structure Operation where
  resource : Nat
  wakeAt : Tick
  deriving DecidableEq, Repr

/-- A command to a resource: it starts a self-timed operation of that duration in ticks, or, while the resource is busy,
is discarded with a PERIPHERAL_BUSY record of that detail (R566). -/
structure DeviceCommand where
  resource : Nat
  duration : Nat
  detail : List Byte
  deriving DecidableEq, Repr

/-- A peripheral (60_exceptions.md rule R560). The first four fields are fixed; the others are its state: its own bytes,
its Deadlines (`wake_at` values), its self-timed operations (R566), and its side of the shared bus (R565). -/
structure Peripheral where
  /-- Which device it is. -/
  device : Device
  /-- The SFR addresses it owns. -/
  owns : List Byte
  /-- The owned registers with a documented read side effect (R563, 20_memory.md rule R93). -/
  readEffects : List Byte
  /-- The owned port-direction and port-data registers (R565). -/
  ports : List Byte
  bytes : List Byte
  deadlines : List Tick
  operations : List Operation
  outEnable : Bool
  outByte : Byte
  deriving DecidableEq, Repr

/-- What a peripheral's handler or tick routine sees. -/
structure DeviceView where
  own : Peripheral
  sfr : Memory
  bus : Byte
  ticks : Tick
  deriving DecidableEq, Repr

/-- The part of a peripheral's state that its handlers and tick routine change of themselves (R560). -/
structure DeviceState where
  bytes : List Byte
  deadlines : List Tick
  outEnable : Bool
  outByte : Byte
  deriving DecidableEq, Repr

/-- What a handler or tick routine may change (R562 to R565): its own state (none: as it is), `sfr[]` bytes, code memory
(the flash peripheral, 20_memory.md R81), `need_hw_tick` and `irq_recheck`. -/
structure DeviceChange where
  own : Option DeviceState := none
  sfrWrites : List (Byte × Byte) := []
  codeWrites : List (Addr × Byte) := []
  attention : Bool := false
  recheck : Bool := false
  deriving DecidableEq, Repr

/-- One action of a peripheral's handler or tick routine. -/
inductive DeviceAction where
  /-- Raise a peripheral fault with that detail (R567). -/
  | report (kind : PeripheralFault) (detail : List Byte)
  /-- Change something. -/
  | change (c : DeviceChange)
  /-- Give a command to a resource of its own; `starts` is what the command changes when it is accepted, and is discarded
  with it while the resource is busy (R566). -/
  | command (c : DeviceCommand) (starts : DeviceChange)
  deriving DecidableEq, Repr

/-- What a peripheral's handler or tick routine does: its actions, in the order it makes them. -/
abbrev DeviceEffect := List DeviceAction

/-- FREE VALUE: the `n`-th unconstrained draw (ANY, R509). No body: nothing can be proved of it (log 6). -/
opaque Config.freeByte : Nat → Byte

/-- FREE VALUE: the byte that external device `id` answers for SFR address `d`, a register with no documented read side
effect (R563): a function of the device's own record, the bytes of its SFRs and the bus, so that it neither changes state
nor depends on the clock (log 8, log 32). -/
opaque Config.deviceValue (id : Nat) (d : Byte) (own : Peripheral) (owned : List Byte) (bus : Byte) : Byte

/-- FREE VALUE: the read handler of external device `id` for SFR address `d`, a register with a documented read side
effect (R563): its effect and the byte the instruction sees (log 8). -/
opaque Config.deviceRead (id : Nat) (d : Byte) (v : DeviceView) : DeviceEffect × Byte

/-- FREE VALUE: the write handler of external device `id` for SFR address `d` (R563), run after the store (log 8). -/
opaque Config.deviceWrite (id : Nat) (d : Byte) (v : DeviceView) : DeviceEffect

/-- FREE VALUE: the tick routine of external device `id` (R562) (log 8). -/
opaque Config.deviceTick (id : Nat) (v : DeviceView) : DeviceEffect

end Sys2Proof
end

