-- ==== Sys2Proof/Syntax.lean ====
section
/-! DEFINITION. The instructions: one constructor per row of spec/opcode_table.json, with the operands of
30_encoding.md rules R121 to R123. A register number `n` is the field op[2:0], a pointer number `i` the field op[0],
`d`, `src`, `dst` direct addresses, `imm` an immediate byte, `b` a bit address, `rel` the SIGNED offset
`sext_8(byte)` (so that its range -128..127 is a check of WellFormed.lean), `a` and `w` 11-bit or 16-bit values. -/

namespace Sys2Proof

/-- One instruction of the core; every opcode byte decodes to exactly one of these forms (R129). -/
inductive Instr where
  -- Arithmetic (40_arithmetic.md)
  /-- `ADD A,Rn` (R200). -/
  | addARn (n : BitVec 3)
  /-- `ADD A,direct` (R201). -/
  | addADir (d : Byte)
  /-- `ADD A,@Ri` (R202). -/
  | addAInd (i : BitVec 1)
  /-- `ADD A,#data` (R203). -/
  | addAImm (imm : Byte)
  /-- `ADDC A,Rn` (R204). -/
  | addcARn (n : BitVec 3)
  /-- `ADDC A,direct` (R205). -/
  | addcADir (d : Byte)
  /-- `ADDC A,@Ri` (R206). -/
  | addcAInd (i : BitVec 1)
  /-- `ADDC A,#data` (R207). -/
  | addcAImm (imm : Byte)
  /-- `SUBB A,Rn` (R208). -/
  | subbARn (n : BitVec 3)
  /-- `SUBB A,direct` (R209). -/
  | subbADir (d : Byte)
  /-- `SUBB A,@Ri` (R210). -/
  | subbAInd (i : BitVec 1)
  /-- `SUBB A,#data` (R211). -/
  | subbAImm (imm : Byte)
  /-- `INC A` (R212). -/
  | incA
  /-- `INC Rn` (R213). -/
  | incRn (n : BitVec 3)
  /-- `INC direct` (R214). -/
  | incDir (d : Byte)
  /-- `INC @Ri` (R215). -/
  | incInd (i : BitVec 1)
  /-- `INC DPTR` (R216). -/
  | incDptr
  /-- `DEC A` (R217). -/
  | decA
  /-- `DEC Rn` (R218). -/
  | decRn (n : BitVec 3)
  /-- `DEC direct` (R219). -/
  | decDir (d : Byte)
  /-- `DEC @Ri` (R220). -/
  | decInd (i : BitVec 1)
  /-- `MUL AB` (R222). -/
  | mulAB
  /-- `DIV AB` (R223). -/
  | divAB
  /-- `DA A` (R224). -/
  | daA
  -- Logical (41_logical.md)
  /-- `ANL A,Rn` (R250). -/
  | anlARn (n : BitVec 3)
  /-- `ANL A,direct` (R251). -/
  | anlADir (d : Byte)
  /-- `ANL A,@Ri` (R252). -/
  | anlAInd (i : BitVec 1)
  /-- `ANL A,#data` (R253). -/
  | anlAImm (imm : Byte)
  /-- `ANL direct,A` (R254). -/
  | anlDirA (d : Byte)
  /-- `ANL direct,#data` (R255). -/
  | anlDirImm (d : Byte) (imm : Byte)
  /-- `ORL A,Rn` (R256). -/
  | orlARn (n : BitVec 3)
  /-- `ORL A,direct` (R257). -/
  | orlADir (d : Byte)
  /-- `ORL A,@Ri` (R258). -/
  | orlAInd (i : BitVec 1)
  /-- `ORL A,#data` (R259). -/
  | orlAImm (imm : Byte)
  /-- `ORL direct,A` (R260). -/
  | orlDirA (d : Byte)
  /-- `ORL direct,#data` (R261). -/
  | orlDirImm (d : Byte) (imm : Byte)
  /-- `XRL A,Rn` (R262). -/
  | xrlARn (n : BitVec 3)
  /-- `XRL A,direct` (R263). -/
  | xrlADir (d : Byte)
  /-- `XRL A,@Ri` (R264). -/
  | xrlAInd (i : BitVec 1)
  /-- `XRL A,#data` (R265). -/
  | xrlAImm (imm : Byte)
  /-- `XRL direct,A` (R266). -/
  | xrlDirA (d : Byte)
  /-- `XRL direct,#data` (R267). -/
  | xrlDirImm (d : Byte) (imm : Byte)
  /-- `CLR A` (R268). -/
  | clrA
  /-- `CPL A` (R269). -/
  | cplA
  /-- `RL A` (R270). -/
  | rlA
  /-- `RLC A` (R271). -/
  | rlcA
  /-- `RR A` (R272). -/
  | rrA
  /-- `RRC A` (R273). -/
  | rrcA
  /-- `SWAP A` (R274). -/
  | swapA
  -- Data transfer (42_data_transfer.md)
  /-- `MOV A,Rn` (R300). -/
  | movARn (n : BitVec 3)
  /-- `MOV A,direct` (R301). -/
  | movADir (d : Byte)
  /-- `MOV A,@Ri` (R302). -/
  | movAInd (i : BitVec 1)
  /-- `MOV A,#data` (R303). -/
  | movAImm (imm : Byte)
  /-- `MOV Rn,A` (R304). -/
  | movRnA (n : BitVec 3)
  /-- `MOV Rn,direct` (R305). -/
  | movRnDir (n : BitVec 3) (d : Byte)
  /-- `MOV Rn,#data` (R306). -/
  | movRnImm (n : BitVec 3) (imm : Byte)
  /-- `MOV direct,A` (R307). -/
  | movDirA (d : Byte)
  /-- `MOV direct,Rn` (R308). -/
  | movDirRn (n : BitVec 3) (d : Byte)
  /-- `MOV direct,direct` (R309). -/
  | movDirDir (src : Byte) (dst : Byte)
  /-- `MOV direct,@Ri` (R310). -/
  | movDirInd (i : BitVec 1) (d : Byte)
  /-- `MOV direct,#data` (R311). -/
  | movDirImm (d : Byte) (imm : Byte)
  /-- `MOV @Ri,A` (R312). -/
  | movIndA (i : BitVec 1)
  /-- `MOV @Ri,direct` (R313). -/
  | movIndDir (i : BitVec 1) (d : Byte)
  /-- `MOV @Ri,#data` (R314). -/
  | movIndImm (i : BitVec 1) (imm : Byte)
  /-- `MOV DPTR,#data16` (R315). -/
  | movDptrImm (w : Addr)
  /-- `MOVC A,@A+DPTR` (R318). -/
  | movcADptr
  /-- `MOVC A,@A+PC` (R319). -/
  | movcAPc
  /-- `MOVX A,@Ri` (R320). -/
  | movxAInd (i : BitVec 1)
  /-- `MOVX A,@DPTR` (R321). -/
  | movxADptr
  /-- `MOVX @Ri,A` (R322). -/
  | movxIndA (i : BitVec 1)
  /-- `MOVX @DPTR,A` (R323). -/
  | movxDptrA
  /-- `PUSH direct` (R324). -/
  | push (d : Byte)
  /-- `POP direct` (R325). -/
  | pop (d : Byte)
  /-- `XCH A,Rn` (R326). -/
  | xchARn (n : BitVec 3)
  /-- `XCH A,direct` (R327). -/
  | xchADir (d : Byte)
  /-- `XCH A,@Ri` (R328). -/
  | xchAInd (i : BitVec 1)
  /-- `XCHD A,@Ri` (R329). -/
  | xchdAInd (i : BitVec 1)
  -- Boolean (43_boolean.md)
  /-- `CLR C` (R350). -/
  | clrC
  /-- `CLR bit` (R351). -/
  | clrBit (b : Byte)
  /-- `SETB C` (R352). -/
  | setbC
  /-- `SETB bit` (R353). -/
  | setbBit (b : Byte)
  /-- `CPL C` (R354). -/
  | cplC
  /-- `CPL bit` (R355). -/
  | cplBit (b : Byte)
  /-- `ANL C,bit` (R356). -/
  | anlCBit (b : Byte)
  /-- `ANL C,/bit` (R357). -/
  | anlCNotBit (b : Byte)
  /-- `ORL C,bit` (R358). -/
  | orlCBit (b : Byte)
  /-- `ORL C,/bit` (R359). -/
  | orlCNotBit (b : Byte)
  /-- `MOV C,bit` (R360). -/
  | movCBit (b : Byte)
  /-- `MOV bit,C` (R361). -/
  | movBitC (b : Byte)
  /-- `JC rel` (R362). -/
  | jc (rel : Int)
  /-- `JNC rel` (R363). -/
  | jnc (rel : Int)
  /-- `JB bit,rel` (R364). -/
  | jb (b : Byte) (rel : Int)
  /-- `JNB bit,rel` (R365). -/
  | jnb (b : Byte) (rel : Int)
  /-- `JBC bit,rel` (R366). -/
  | jbc (b : Byte) (rel : Int)
  -- Program branching (44_branching.md)
  /-- `ACALL addr11` (R400). -/
  | acall (a : BitVec 11)
  /-- `LCALL addr16` (R401). -/
  | lcall (a : Addr)
  /-- `RET` (R402). -/
  | ret
  /-- `RETI` (R403). -/
  | reti
  /-- `AJMP addr11` (R404). -/
  | ajmp (a : BitVec 11)
  /-- `LJMP addr16` (R405). -/
  | ljmp (a : Addr)
  /-- `SJMP rel` (R406). -/
  | sjmp (rel : Int)
  /-- `JMP @A+DPTR` (R407). -/
  | jmpADptr
  /-- `JZ rel` (R408). -/
  | jz (rel : Int)
  /-- `JNZ rel` (R409). -/
  | jnz (rel : Int)
  /-- `CJNE A,direct,rel` (R410). -/
  | cjneADir (d : Byte) (rel : Int)
  /-- `CJNE A,#data,rel` (R411). -/
  | cjneAImm (imm : Byte) (rel : Int)
  /-- `CJNE Rn,#data,rel` (R412). -/
  | cjneRnImm (n : BitVec 3) (imm : Byte) (rel : Int)
  /-- `CJNE @Ri,#data,rel` (R413). -/
  | cjneIndImm (i : BitVec 1) (imm : Byte) (rel : Int)
  /-- `DJNZ Rn,rel` (R414). -/
  | djnzRn (n : BitVec 3) (rel : Int)
  /-- `DJNZ direct,rel` (R415). -/
  | djnzDir (d : Byte) (rel : Int)
  /-- `NOP` (R416). -/
  | nop
  /-- `reserved byte 0xA5` (R417). -/
  | reserved
  deriving DecidableEq, Repr

end Sys2Proof
end

