-- ==== Sys2Proof/WellFormed.lean ====
section
/-! DEFINITION. Well-formed instructions and well-formed parameters. -/

namespace Sys2Proof

/-- A relative offset fits its encoding: -128..127 (30_encoding.md rule R123). -/
def relFits (rel : Int) : Bool := decide (-128 ≤ rel ∧ rel ≤ 127)

/-- An instruction is well formed when every operand has an encoding. Register numbers, pointer numbers, bytes and
addresses have one by their types; a relative offset must fit (R123). -/
def Instr.wellFormed : Instr → Bool
  | .jc rel => relFits rel
  | .jnc rel => relFits rel
  | .jb _ rel => relFits rel
  | .jnb _ rel => relFits rel
  | .jbc _ rel => relFits rel
  | .sjmp rel => relFits rel
  | .jz rel => relFits rel
  | .jnz rel => relFits rel
  | .cjneADir _ rel => relFits rel
  | .cjneAImm _ rel => relFits rel
  | .cjneRnImm _ _ rel => relFits rel
  | .cjneIndImm _ _ rel => relFits rel
  | .djnzRn _ rel => relFits rel
  | .djnzDir _ rel => relFits rel
  | .addARn _ | .addADir _ | .addAInd _ | .addAImm _ | .addcARn _ | .addcADir _ | .addcAInd _ | .addcAImm _
  | .subbARn _ | .subbADir _ | .subbAInd _ | .subbAImm _ | .incA | .incRn _ | .incDir _ | .incInd _ | .incDptr
  | .decA | .decRn _ | .decDir _ | .decInd _ | .mulAB | .divAB | .daA | .anlARn _ | .anlADir _ | .anlAInd _
  | .anlAImm _ | .anlDirA _ | .anlDirImm _ _ | .orlARn _ | .orlADir _ | .orlAInd _ | .orlAImm _ | .orlDirA _
  | .orlDirImm _ _ | .xrlARn _ | .xrlADir _ | .xrlAInd _ | .xrlAImm _ | .xrlDirA _ | .xrlDirImm _ _ | .clrA
  | .cplA | .rlA | .rlcA | .rrA | .rrcA | .swapA | .movARn _ | .movADir _ | .movAInd _ | .movAImm _ | .movRnA _
  | .movRnDir _ _ | .movRnImm _ _ | .movDirA _ | .movDirRn _ _ | .movDirDir _ _ | .movDirInd _ _ | .movDirImm _ _
  | .movIndA _ | .movIndDir _ _ | .movIndImm _ _ | .movDptrImm _ | .movcADptr | .movcAPc | .movxAInd _
  | .movxADptr | .movxIndA _ | .movxDptrA | .push _ | .pop _ | .xchARn _ | .xchADir _ | .xchAInd _ | .xchdAInd _
  | .clrC | .clrBit _ | .setbC | .setbBit _ | .cplC | .cplBit _ | .anlCBit _ | .anlCNotBit _ | .orlCBit _
  | .orlCNotBit _ | .movCBit _ | .movBitC _ | .acall _ | .lcall _ | .ret | .reti | .ajmp _ | .ljmp _ | .jmpADptr
  | .nop | .reserved => true

/-- The SFR addresses a predicate reads. -/
def Cond.sfrs : Cond → List Byte
  | .const _ => []
  | .sfrBit d _ => [d]
  | .deviceBit _ _ _ => []
  | .not c => c.sfrs
  | .both c d => c.sfrs ++ d.sfrs
  | .either c d => c.sfrs ++ d.sfrs

/-- The peripherals whose state a predicate reads. -/
def Cond.devices : Cond → List Nat
  | .const _ => []
  | .sfrBit _ _ => []
  | .deviceBit k _ _ => [k]
  | .not c => c.devices
  | .both c d => c.devices ++ d.devices
  | .either c d => c.devices ++ d.devices

/-- Every SFR address a source's predicates read (R531). -/
def IrqSource.sfrs (x : IrqSource) : List Byte :=
  x.enabled.sfrs ++ (x.pending.sfrs ++ (x.priorityHigh.sfrs ++ x.priorityLow.sfrs))

/-- Every peripheral a source's predicates read (R531). -/
def IrqSource.devices (x : IrqSource) : List Nat :=
  x.enabled.devices ++ (x.pending.devices ++ (x.priorityHigh.devices ++ x.priorityLow.devices))

/-- `d` is an SFR address (R41). -/
def isSfrAddr (d : Byte) : Bool := decide (0x80#8 ≤ d)

/-- The SFRs that instructions write implicitly, without a hook (R52): A, B, PSW, SP and the data pointer registers.
The predicates of IRQ_TABLE never read them (R531). -/
def Config.implicitSfrs (c : Config) : List Byte :=
  [0xE0, 0xF0, 0xD0, 0x81, 0x82, 0x83, c.dpl1Addr, c.dph1Addr, c.dpsAddr]

/-- The core SFRs of 10_state.md rules R37 to R44, which no peripheral owns (60_exceptions.md rule R560). -/
def Config.coreSfrs (c : Config) : List Byte := 0xA8 :: c.implicitSfrs

/-- The CYCLES table gives each opcode byte a cost in 1..6 (R8). -/
def Config.cyclesOk (c : Config) : Bool :=
  c.cycles.length == 256 && c.cycles.all fun n => decide (1 ≤ n ∧ n ≤ 6)

/-- IRQ_LATENCY is at least 1 (R8). -/
def Config.latencyOk (c : Config) : Bool := decide (1 ≤ c.irqLatency)

/-- IRQ_SFRS holds SFR addresses, among them 0xA8 and every SFR a predicate reads (R8, R531). -/
def Config.irqSfrsOk (c : Config) : Bool :=
  c.irqSfrs.contains 0xA8 && c.irqSfrs.all isSfrAddr &&
    c.irqTable.all fun x => x.sfrs.all fun d => c.irqSfrs.contains d

/-- Enable and priority predicates read SFR bytes only, no predicate reads an implicitly written SFR, and an
auto-clear bit lies in an SFR (R531). -/
def Config.irqTableOk (c : Config) : Bool :=
  c.irqTable.all fun x =>
    (x.enabled.devices ++ (x.priorityHigh.devices ++ x.priorityLow.devices)).isEmpty &&
      (x.sfrs.all fun d => !(c.implicitSfrs.contains d)) &&
      match x.autoClear with
      | none => true
      | some (d, _) => isSfrAddr d

/-- The parameters that are SFR addresses are, and the nine implicit registers, 0xA8 and the ports lie apart
(R8, R43, R70; that they lie apart is DEDUCED, log 24). -/
def Config.addressesOk (c : Config) : Bool :=
  isSfrAddr c.movxPageSfr && isSfrAddr c.dpl1Addr && isSfrAddr c.dph1Addr && isSfrAddr c.dpsAddr &&
    decide (0xA8 :: 0x80 :: 0x90 :: 0xA0 :: 0xB0 :: c.implicitSfrs).Nodup

/-- SFR_RESET gives values for SFR addresses (R8). -/
def Config.sfrResetOk (c : Config) : Bool := c.sfrReset.all fun p => isSfrAddr p.1

/-- TICK_RATE_HZ is positive (R8). -/
def Config.tickRateOk (c : Config) : Bool := decide (0 < c.tickRateHz)

/-- The parameters have the legal values of 00_scope.md rule R8 and 60_exceptions.md rule R531. -/
def Config.wellFormed (c : Config) : Bool :=
  c.cyclesOk && c.latencyOk && c.irqSfrsOk && c.irqTableOk && c.addressesOk && c.sfrResetOk && c.tickRateOk

end Sys2Proof
end

