-- ==== Sys2Proof/Decode.lean ====
section
/-! DEFINITION. Decoding (30_encoding.md rules R120 to R129), total on any bytes and rejecting by name, and the
encoder, written from the same encodings. -/

namespace Sys2Proof

/-- Why a list of bytes holds no whole instruction. Safe: nothing is decoded. Every opcode BYTE decodes (R129),
so the only rejections are missing bytes. -/
inductive DecodeError where
  /-- There is no opcode byte. -/
  | noByte
  /-- The opcode byte asks for more operand bytes than are there. -/
  | truncated (opcode : Byte)
  deriving DecidableEq, Repr

/-- A row of spec/opcode_table.json: it matches the opcode bytes `op` with `op &&& mask = value` (R129), gives the
length, and builds the instruction from the opcode byte and the two operand bytes (R121, R123). -/
structure OpRow where
  value : Byte
  mask : Byte
  len : Nat
  build : Byte → Byte → Byte → Instr

/-- Arithmetic (40_arithmetic.md): the rows of spec/opcode_table.json. -/
def arithmeticRows : List OpRow := [
  ⟨0x28, 0xF8, 1, fun op _ _ => .addARn (op.extractLsb' 0 3)⟩,
  ⟨0x25, 0xFF, 2, fun _ b1 _ => .addADir b1⟩,
  ⟨0x26, 0xFE, 1, fun op _ _ => .addAInd (op.extractLsb' 0 1)⟩,
  ⟨0x24, 0xFF, 2, fun _ b1 _ => .addAImm b1⟩,
  ⟨0x38, 0xF8, 1, fun op _ _ => .addcARn (op.extractLsb' 0 3)⟩,
  ⟨0x35, 0xFF, 2, fun _ b1 _ => .addcADir b1⟩,
  ⟨0x36, 0xFE, 1, fun op _ _ => .addcAInd (op.extractLsb' 0 1)⟩,
  ⟨0x34, 0xFF, 2, fun _ b1 _ => .addcAImm b1⟩,
  ⟨0x98, 0xF8, 1, fun op _ _ => .subbARn (op.extractLsb' 0 3)⟩,
  ⟨0x95, 0xFF, 2, fun _ b1 _ => .subbADir b1⟩,
  ⟨0x96, 0xFE, 1, fun op _ _ => .subbAInd (op.extractLsb' 0 1)⟩,
  ⟨0x94, 0xFF, 2, fun _ b1 _ => .subbAImm b1⟩,
  ⟨0x04, 0xFF, 1, fun _ _ _ => .incA⟩,
  ⟨0x08, 0xF8, 1, fun op _ _ => .incRn (op.extractLsb' 0 3)⟩,
  ⟨0x05, 0xFF, 2, fun _ b1 _ => .incDir b1⟩,
  ⟨0x06, 0xFE, 1, fun op _ _ => .incInd (op.extractLsb' 0 1)⟩,
  ⟨0xA3, 0xFF, 1, fun _ _ _ => .incDptr⟩,
  ⟨0x14, 0xFF, 1, fun _ _ _ => .decA⟩,
  ⟨0x18, 0xF8, 1, fun op _ _ => .decRn (op.extractLsb' 0 3)⟩,
  ⟨0x15, 0xFF, 2, fun _ b1 _ => .decDir b1⟩,
  ⟨0x16, 0xFE, 1, fun op _ _ => .decInd (op.extractLsb' 0 1)⟩,
  ⟨0xA4, 0xFF, 1, fun _ _ _ => .mulAB⟩,
  ⟨0x84, 0xFF, 1, fun _ _ _ => .divAB⟩,
  ⟨0xD4, 0xFF, 1, fun _ _ _ => .daA⟩]

/-- Logical (41_logical.md): the rows of spec/opcode_table.json. -/
def logicalRows : List OpRow := [
  ⟨0x58, 0xF8, 1, fun op _ _ => .anlARn (op.extractLsb' 0 3)⟩,
  ⟨0x55, 0xFF, 2, fun _ b1 _ => .anlADir b1⟩,
  ⟨0x56, 0xFE, 1, fun op _ _ => .anlAInd (op.extractLsb' 0 1)⟩,
  ⟨0x54, 0xFF, 2, fun _ b1 _ => .anlAImm b1⟩,
  ⟨0x52, 0xFF, 2, fun _ b1 _ => .anlDirA b1⟩,
  ⟨0x53, 0xFF, 3, fun _ b1 b2 => .anlDirImm b1 b2⟩,
  ⟨0x48, 0xF8, 1, fun op _ _ => .orlARn (op.extractLsb' 0 3)⟩,
  ⟨0x45, 0xFF, 2, fun _ b1 _ => .orlADir b1⟩,
  ⟨0x46, 0xFE, 1, fun op _ _ => .orlAInd (op.extractLsb' 0 1)⟩,
  ⟨0x44, 0xFF, 2, fun _ b1 _ => .orlAImm b1⟩,
  ⟨0x42, 0xFF, 2, fun _ b1 _ => .orlDirA b1⟩,
  ⟨0x43, 0xFF, 3, fun _ b1 b2 => .orlDirImm b1 b2⟩,
  ⟨0x68, 0xF8, 1, fun op _ _ => .xrlARn (op.extractLsb' 0 3)⟩,
  ⟨0x65, 0xFF, 2, fun _ b1 _ => .xrlADir b1⟩,
  ⟨0x66, 0xFE, 1, fun op _ _ => .xrlAInd (op.extractLsb' 0 1)⟩,
  ⟨0x64, 0xFF, 2, fun _ b1 _ => .xrlAImm b1⟩,
  ⟨0x62, 0xFF, 2, fun _ b1 _ => .xrlDirA b1⟩,
  ⟨0x63, 0xFF, 3, fun _ b1 b2 => .xrlDirImm b1 b2⟩,
  ⟨0xE4, 0xFF, 1, fun _ _ _ => .clrA⟩,
  ⟨0xF4, 0xFF, 1, fun _ _ _ => .cplA⟩,
  ⟨0x23, 0xFF, 1, fun _ _ _ => .rlA⟩,
  ⟨0x33, 0xFF, 1, fun _ _ _ => .rlcA⟩,
  ⟨0x03, 0xFF, 1, fun _ _ _ => .rrA⟩,
  ⟨0x13, 0xFF, 1, fun _ _ _ => .rrcA⟩,
  ⟨0xC4, 0xFF, 1, fun _ _ _ => .swapA⟩]

/-- Data transfer (42_data_transfer.md): the rows of spec/opcode_table.json. -/
def transferRows : List OpRow := [
  ⟨0xE8, 0xF8, 1, fun op _ _ => .movARn (op.extractLsb' 0 3)⟩,
  ⟨0xE5, 0xFF, 2, fun _ b1 _ => .movADir b1⟩,
  ⟨0xE6, 0xFE, 1, fun op _ _ => .movAInd (op.extractLsb' 0 1)⟩,
  ⟨0x74, 0xFF, 2, fun _ b1 _ => .movAImm b1⟩,
  ⟨0xF8, 0xF8, 1, fun op _ _ => .movRnA (op.extractLsb' 0 3)⟩,
  ⟨0xA8, 0xF8, 2, fun op b1 _ => .movRnDir (op.extractLsb' 0 3) b1⟩,
  ⟨0x78, 0xF8, 2, fun op b1 _ => .movRnImm (op.extractLsb' 0 3) b1⟩,
  ⟨0xF5, 0xFF, 2, fun _ b1 _ => .movDirA b1⟩,
  ⟨0x88, 0xF8, 2, fun op b1 _ => .movDirRn (op.extractLsb' 0 3) b1⟩,
  ⟨0x85, 0xFF, 3, fun _ b1 b2 => .movDirDir b1 b2⟩,
  ⟨0x86, 0xFE, 2, fun op b1 _ => .movDirInd (op.extractLsb' 0 1) b1⟩,
  ⟨0x75, 0xFF, 3, fun _ b1 b2 => .movDirImm b1 b2⟩,
  ⟨0xF6, 0xFE, 1, fun op _ _ => .movIndA (op.extractLsb' 0 1)⟩,
  ⟨0xA6, 0xFE, 2, fun op b1 _ => .movIndDir (op.extractLsb' 0 1) b1⟩,
  ⟨0x76, 0xFE, 2, fun op b1 _ => .movIndImm (op.extractLsb' 0 1) b1⟩,
  ⟨0x90, 0xFF, 3, fun _ b1 b2 => .movDptrImm (b1 ++ b2)⟩,
  ⟨0x93, 0xFF, 1, fun _ _ _ => .movcADptr⟩,
  ⟨0x83, 0xFF, 1, fun _ _ _ => .movcAPc⟩,
  ⟨0xE2, 0xFE, 1, fun op _ _ => .movxAInd (op.extractLsb' 0 1)⟩,
  ⟨0xE0, 0xFF, 1, fun _ _ _ => .movxADptr⟩,
  ⟨0xF2, 0xFE, 1, fun op _ _ => .movxIndA (op.extractLsb' 0 1)⟩,
  ⟨0xF0, 0xFF, 1, fun _ _ _ => .movxDptrA⟩,
  ⟨0xC0, 0xFF, 2, fun _ b1 _ => .push b1⟩,
  ⟨0xD0, 0xFF, 2, fun _ b1 _ => .pop b1⟩,
  ⟨0xC8, 0xF8, 1, fun op _ _ => .xchARn (op.extractLsb' 0 3)⟩,
  ⟨0xC5, 0xFF, 2, fun _ b1 _ => .xchADir b1⟩,
  ⟨0xC6, 0xFE, 1, fun op _ _ => .xchAInd (op.extractLsb' 0 1)⟩,
  ⟨0xD6, 0xFE, 1, fun op _ _ => .xchdAInd (op.extractLsb' 0 1)⟩]

/-- Boolean (43_boolean.md): the rows of spec/opcode_table.json. -/
def booleanRows : List OpRow := [
  ⟨0xC3, 0xFF, 1, fun _ _ _ => .clrC⟩,
  ⟨0xC2, 0xFF, 2, fun _ b1 _ => .clrBit b1⟩,
  ⟨0xD3, 0xFF, 1, fun _ _ _ => .setbC⟩,
  ⟨0xD2, 0xFF, 2, fun _ b1 _ => .setbBit b1⟩,
  ⟨0xB3, 0xFF, 1, fun _ _ _ => .cplC⟩,
  ⟨0xB2, 0xFF, 2, fun _ b1 _ => .cplBit b1⟩,
  ⟨0x82, 0xFF, 2, fun _ b1 _ => .anlCBit b1⟩,
  ⟨0xB0, 0xFF, 2, fun _ b1 _ => .anlCNotBit b1⟩,
  ⟨0x72, 0xFF, 2, fun _ b1 _ => .orlCBit b1⟩,
  ⟨0xA0, 0xFF, 2, fun _ b1 _ => .orlCNotBit b1⟩,
  ⟨0xA2, 0xFF, 2, fun _ b1 _ => .movCBit b1⟩,
  ⟨0x92, 0xFF, 2, fun _ b1 _ => .movBitC b1⟩,
  ⟨0x40, 0xFF, 2, fun _ b1 _ => .jc b1.toInt⟩,
  ⟨0x50, 0xFF, 2, fun _ b1 _ => .jnc b1.toInt⟩,
  ⟨0x20, 0xFF, 3, fun _ b1 b2 => .jb b1 b2.toInt⟩,
  ⟨0x30, 0xFF, 3, fun _ b1 b2 => .jnb b1 b2.toInt⟩,
  ⟨0x10, 0xFF, 3, fun _ b1 b2 => .jbc b1 b2.toInt⟩]

/-- Program branching (44_branching.md): the rows of spec/opcode_table.json. -/
def branchRows : List OpRow := [
  ⟨0x11, 0x1F, 2, fun op b1 _ => .acall (op.extractLsb' 5 3 ++ b1)⟩,
  ⟨0x12, 0xFF, 3, fun _ b1 b2 => .lcall (b1 ++ b2)⟩,
  ⟨0x22, 0xFF, 1, fun _ _ _ => .ret⟩,
  ⟨0x32, 0xFF, 1, fun _ _ _ => .reti⟩,
  ⟨0x01, 0x1F, 2, fun op b1 _ => .ajmp (op.extractLsb' 5 3 ++ b1)⟩,
  ⟨0x02, 0xFF, 3, fun _ b1 b2 => .ljmp (b1 ++ b2)⟩,
  ⟨0x80, 0xFF, 2, fun _ b1 _ => .sjmp b1.toInt⟩,
  ⟨0x73, 0xFF, 1, fun _ _ _ => .jmpADptr⟩,
  ⟨0x60, 0xFF, 2, fun _ b1 _ => .jz b1.toInt⟩,
  ⟨0x70, 0xFF, 2, fun _ b1 _ => .jnz b1.toInt⟩,
  ⟨0xB5, 0xFF, 3, fun _ b1 b2 => .cjneADir b1 b2.toInt⟩,
  ⟨0xB4, 0xFF, 3, fun _ b1 b2 => .cjneAImm b1 b2.toInt⟩,
  ⟨0xB8, 0xF8, 3, fun op b1 b2 => .cjneRnImm (op.extractLsb' 0 3) b1 b2.toInt⟩,
  ⟨0xB6, 0xFE, 3, fun op b1 b2 => .cjneIndImm (op.extractLsb' 0 1) b1 b2.toInt⟩,
  ⟨0xD8, 0xF8, 2, fun op b1 _ => .djnzRn (op.extractLsb' 0 3) b1.toInt⟩,
  ⟨0xD5, 0xFF, 3, fun _ b1 b2 => .djnzDir b1 b2.toInt⟩,
  ⟨0x00, 0xFF, 1, fun _ _ _ => .nop⟩,
  ⟨0xA5, 0xFF, 1, fun _ _ _ => .reserved⟩]

/-- The opcode table: 112 rows (R129). -/
def opTable : List OpRow :=
  arithmeticRows ++ (logicalRows ++ (transferRows ++ (booleanRows ++ branchRows)))

/-- Row `r` matches opcode byte `op` (R129). -/
def OpRow.hits (op : Byte) (r : OpRow) : Bool := op &&& r.mask == r.value

/-- `row(op)` (R129). The default is never taken: every byte is hit by a row (stated in Obligations.lean). -/
def rowOf (op : Byte) : OpRow :=
  (opTable.find? (OpRow.hits op)).getD ⟨0xA5, 0xFF, 1, fun _ _ _ => .reserved⟩

/-- `LEN(op)` (R124). -/
def lenOf (op : Byte) : Nat := (rowOf op).len

/-- The instruction with opcode byte `op` and operand bytes `b1`, `b2` (those the length does not reach are ignored). -/
def decodeOp (op b1 b2 : Byte) : Instr := (rowOf op).build op b1 b2

/-- Decode the instruction at the front of a list of bytes, with the bytes after it. -/
def decode : List Byte → Except DecodeError (Instr × List Byte)
  | [] => .error .noByte
  | op :: rest =>
    if rest.length + 1 < lenOf op then .error (.truncated op)
    else .ok (decodeOp op (rest.getD 0 0) (rest.getD 1 0), rest.drop (lenOf op - 1))

/-- The bytes of an instruction, in code-address order, from the encodings of R121 and files 40 to 44. -/
def encode : Instr → List Byte
  | .addARn n => [0b00101#5 ++ n]
  | .addADir d => [0b00100101#8, d]
  | .addAInd i => [0b0010011#7 ++ i]
  | .addAImm imm => [0b00100100#8, imm]
  | .addcARn n => [0b00111#5 ++ n]
  | .addcADir d => [0b00110101#8, d]
  | .addcAInd i => [0b0011011#7 ++ i]
  | .addcAImm imm => [0b00110100#8, imm]
  | .subbARn n => [0b10011#5 ++ n]
  | .subbADir d => [0b10010101#8, d]
  | .subbAInd i => [0b1001011#7 ++ i]
  | .subbAImm imm => [0b10010100#8, imm]
  | .incA => [0b00000100#8]
  | .incRn n => [0b00001#5 ++ n]
  | .incDir d => [0b00000101#8, d]
  | .incInd i => [0b0000011#7 ++ i]
  | .incDptr => [0b10100011#8]
  | .decA => [0b00010100#8]
  | .decRn n => [0b00011#5 ++ n]
  | .decDir d => [0b00010101#8, d]
  | .decInd i => [0b0001011#7 ++ i]
  | .mulAB => [0b10100100#8]
  | .divAB => [0b10000100#8]
  | .daA => [0b11010100#8]
  | .anlARn n => [0b01011#5 ++ n]
  | .anlADir d => [0b01010101#8, d]
  | .anlAInd i => [0b0101011#7 ++ i]
  | .anlAImm imm => [0b01010100#8, imm]
  | .anlDirA d => [0b01010010#8, d]
  | .anlDirImm d imm => [0b01010011#8, d, imm]
  | .orlARn n => [0b01001#5 ++ n]
  | .orlADir d => [0b01000101#8, d]
  | .orlAInd i => [0b0100011#7 ++ i]
  | .orlAImm imm => [0b01000100#8, imm]
  | .orlDirA d => [0b01000010#8, d]
  | .orlDirImm d imm => [0b01000011#8, d, imm]
  | .xrlARn n => [0b01101#5 ++ n]
  | .xrlADir d => [0b01100101#8, d]
  | .xrlAInd i => [0b0110011#7 ++ i]
  | .xrlAImm imm => [0b01100100#8, imm]
  | .xrlDirA d => [0b01100010#8, d]
  | .xrlDirImm d imm => [0b01100011#8, d, imm]
  | .clrA => [0b11100100#8]
  | .cplA => [0b11110100#8]
  | .rlA => [0b00100011#8]
  | .rlcA => [0b00110011#8]
  | .rrA => [0b00000011#8]
  | .rrcA => [0b00010011#8]
  | .swapA => [0b11000100#8]
  | .movARn n => [0b11101#5 ++ n]
  | .movADir d => [0b11100101#8, d]
  | .movAInd i => [0b1110011#7 ++ i]
  | .movAImm imm => [0b01110100#8, imm]
  | .movRnA n => [0b11111#5 ++ n]
  | .movRnDir n d => [0b10101#5 ++ n, d]
  | .movRnImm n imm => [0b01111#5 ++ n, imm]
  | .movDirA d => [0b11110101#8, d]
  | .movDirRn n d => [0b10001#5 ++ n, d]
  | .movDirDir src dst => [0b10000101#8, src, dst]
  | .movDirInd i d => [0b1000011#7 ++ i, d]
  | .movDirImm d imm => [0b01110101#8, d, imm]
  | .movIndA i => [0b1111011#7 ++ i]
  | .movIndDir i d => [0b1010011#7 ++ i, d]
  | .movIndImm i imm => [0b0111011#7 ++ i, imm]
  | .movDptrImm w => [0b10010000#8, w.extractLsb' 8 8, w.extractLsb' 0 8]
  | .movcADptr => [0b10010011#8]
  | .movcAPc => [0b10000011#8]
  | .movxAInd i => [0b1110001#7 ++ i]
  | .movxADptr => [0b11100000#8]
  | .movxIndA i => [0b1111001#7 ++ i]
  | .movxDptrA => [0b11110000#8]
  | .push d => [0b11000000#8, d]
  | .pop d => [0b11010000#8, d]
  | .xchARn n => [0b11001#5 ++ n]
  | .xchADir d => [0b11000101#8, d]
  | .xchAInd i => [0b1100011#7 ++ i]
  | .xchdAInd i => [0b1101011#7 ++ i]
  | .clrC => [0b11000011#8]
  | .clrBit b => [0b11000010#8, b]
  | .setbC => [0b11010011#8]
  | .setbBit b => [0b11010010#8, b]
  | .cplC => [0b10110011#8]
  | .cplBit b => [0b10110010#8, b]
  | .anlCBit b => [0b10000010#8, b]
  | .anlCNotBit b => [0b10110000#8, b]
  | .orlCBit b => [0b01110010#8, b]
  | .orlCNotBit b => [0b10100000#8, b]
  | .movCBit b => [0b10100010#8, b]
  | .movBitC b => [0b10010010#8, b]
  | .jc rel => [0b01000000#8, BitVec.ofInt 8 rel]
  | .jnc rel => [0b01010000#8, BitVec.ofInt 8 rel]
  | .jb b rel => [0b00100000#8, b, BitVec.ofInt 8 rel]
  | .jnb b rel => [0b00110000#8, b, BitVec.ofInt 8 rel]
  | .jbc b rel => [0b00010000#8, b, BitVec.ofInt 8 rel]
  | .acall a => [a.extractLsb' 8 3 ++ 0b10001#5, a.extractLsb' 0 8]
  | .lcall a => [0b00010010#8, a.extractLsb' 8 8, a.extractLsb' 0 8]
  | .ret => [0b00100010#8]
  | .reti => [0b00110010#8]
  | .ajmp a => [a.extractLsb' 8 3 ++ 0b00001#5, a.extractLsb' 0 8]
  | .ljmp a => [0b00000010#8, a.extractLsb' 8 8, a.extractLsb' 0 8]
  | .sjmp rel => [0b10000000#8, BitVec.ofInt 8 rel]
  | .jmpADptr => [0b01110011#8]
  | .jz rel => [0b01100000#8, BitVec.ofInt 8 rel]
  | .jnz rel => [0b01110000#8, BitVec.ofInt 8 rel]
  | .cjneADir d rel => [0b10110101#8, d, BitVec.ofInt 8 rel]
  | .cjneAImm imm rel => [0b10110100#8, imm, BitVec.ofInt 8 rel]
  | .cjneRnImm n imm rel => [0b10111#5 ++ n, imm, BitVec.ofInt 8 rel]
  | .cjneIndImm i imm rel => [0b1011011#7 ++ i, imm, BitVec.ofInt 8 rel]
  | .djnzRn n rel => [0b11011#5 ++ n, BitVec.ofInt 8 rel]
  | .djnzDir d rel => [0b11010101#8, d, BitVec.ofInt 8 rel]
  | .nop => [0b00000000#8]
  | .reserved => [0b10100101#8]

/-- The opcode byte of an instruction: the first byte of its encoding. -/
def opcodeOf (i : Instr) : Byte := (encode i).headD 0

/-- The bytes of a table word: bit 0 of `w` is the least significant bit of the first byte, bits from `nbits` up
are 0, and the longest instruction has three bytes (R120). -/
def tableBytes (nbits w : Nat) : List Byte :=
  let v := w % 2 ^ nbits
  [BitVec.ofNat 8 v, BitVec.ofNat 8 (v / 256), BitVec.ofNat 8 (v / 65536)]

/-- The instruction the decoder reads from the word `w` of `nbits` bits, later words zero. -/
def decodeTableWord (nbits w : Nat) : Option Instr :=
  match decode (tableBytes nbits w) with
  | .ok (i, _) => some i
  | .error _ => none

end Sys2Proof
end

