-- ==== Sys2Proof/Machine/Memory.lean ====
section
/-! DEFINITION. Memories as canonical lists of (address, byte) pairs, and the bit helpers of the core.
Each memory has one byte that an unlisted address reads as. -/

namespace Sys2Proof

/-- What an unlisted CODE address reads as: erased flash (20_memory.md rule R81, D35). -/
def codeErased : Byte := 0xFF

/-- What an unlisted IRAM, SFR or XDATA address reads as: the model's value for an UNSPEC byte
(10_state.md rule R70; DESIGN CHOICE, unsafe, log 2, 3 and 4). -/
def unspecByte : Byte := 0x00

/-- The byte at address `a`: the listed one, or `dflt`. -/
def Memory.read (dflt : Byte) : Memory → Nat → Byte
  | [], _ => dflt
  | (k, w) :: rest, a => if a = k then w else Memory.read dflt rest a

/-- List `v` at address `a`, keeping the addresses rising. -/
def Memory.insertCell : Memory → Nat → Byte → Memory
  | [], a, v => [(a, v)]
  | (k, w) :: rest, a, v =>
    if a < k then (a, v) :: (k, w) :: rest
    else if a = k then (a, v) :: rest
    else (k, w) :: Memory.insertCell rest a v

/-- Store `v` at address `a`; the value of an unlisted address is stored by listing nothing there. -/
def Memory.write (dflt : Byte) (m : Memory) (a : Nat) (v : Byte) : Memory :=
  if v = dflt then m.filter fun c => c.1 != a else Memory.insertCell m a v

/-- The canonical form: addresses strictly rising, no entry equal to what an unlisted address reads as. -/
def Memory.wf (dflt : Byte) (m : Memory) : Bool :=
  decide ((m.map Prod.fst).Pairwise (· < ·)) && m.all fun c => c.2 != dflt

/-- Every listed address lies in `lo .. hi - 1`. -/
def Memory.within (lo hi : Nat) (m : Memory) : Bool :=
  m.all fun c => decide (lo ≤ c.1) && decide (c.1 < hi)

/-- Store a list of bytes at addresses `a`, `a + 1`, … . -/
def Memory.writeBytes (dflt : Byte) (m : Memory) (a : Nat) : List Byte → Memory
  | [] => m
  | v :: rest => Memory.writeBytes dflt (Memory.write dflt m a v) (a + 1) rest

/-- Bit `i` of a byte (00_scope.md rule R9). -/
def bitOf (v : Byte) (i : BitVec 3) : Bool := v.getLsbD i.toNat

/-- The byte `v` with bit `i` set to `b`. -/
def withBit (v : Byte) (i : BitVec 3) (b : Bool) : Byte :=
  if b then v ||| (1#8 <<< i.toNat) else v &&& ~~~(1#8 <<< i.toNat)

end Sys2Proof
end

