-- ==== Sys2Proof/Machine/Params.lean ====
section
/-! DEFINITION. Reading the parameters of 00_scope.md rule R8, the reset values that depend on them
(10_state.md rule R70), and the example parameter set of 95_test_vectors.md section 0. -/

namespace Sys2Proof

/-- CYCLES(op) (60_exceptions.md rule R507). -/
def Config.cyclesOf (c : Config) (op : Byte) : Nat := c.cycles.getD op.toNat 1

/-- CONTINUE(kind) (60_exceptions.md rule R513). -/
def Config.continues (c : Config) (k : FaultKind) : Bool := !(c.stopOn.contains k)

/-- XDATA_VALID(a) (20_memory.md rule R86). -/
def Config.xdataOk (c : Config) (a : Addr) : Bool :=
  c.xdataValid.any fun r => decide (r.1 ≤ a ∧ a ≤ r.2)

/-- The informative classic cycle table (70_reset_and_hazards.md rule R722), one row per high nibble. -/
def classicCycles : List Nat :=
  [1, 2, 2, 1, 1, 1, 1, 1, 1, 1, 1, 1, 1, 1, 1, 1] ++ (
  [2, 2, 2, 1, 1, 1, 1, 1, 1, 1, 1, 1, 1, 1, 1, 1] ++ (
  [2, 2, 2, 1, 1, 1, 1, 1, 1, 1, 1, 1, 1, 1, 1, 1] ++ (
  [2, 2, 2, 1, 1, 1, 1, 1, 1, 1, 1, 1, 1, 1, 1, 1] ++ (
  [2, 2, 1, 2, 1, 1, 1, 1, 1, 1, 1, 1, 1, 1, 1, 1] ++ (
  [2, 2, 1, 2, 1, 1, 1, 1, 1, 1, 1, 1, 1, 1, 1, 1] ++ (
  [2, 2, 1, 2, 1, 1, 1, 1, 1, 1, 1, 1, 1, 1, 1, 1] ++ (
  [2, 2, 2, 2, 1, 2, 1, 1, 1, 1, 1, 1, 1, 1, 1, 1] ++ (
  [2, 2, 2, 2, 4, 2, 2, 2, 2, 2, 2, 2, 2, 2, 2, 2] ++ (
  [2, 2, 2, 2, 1, 1, 1, 1, 1, 1, 1, 1, 1, 1, 1, 1] ++ (
  [2, 2, 1, 2, 4, 1, 2, 2, 2, 2, 2, 2, 2, 2, 2, 2] ++ (
  [2, 2, 1, 1, 2, 2, 2, 2, 2, 2, 2, 2, 2, 2, 2, 2] ++ (
  [2, 2, 1, 1, 1, 1, 1, 1, 1, 1, 1, 1, 1, 1, 1, 1] ++ (
  [2, 2, 1, 1, 1, 2, 1, 1, 2, 2, 2, 2, 2, 2, 2, 2] ++ (
  [2, 2, 2, 2, 1, 1, 1, 1, 1, 1, 1, 1, 1, 1, 1, 1] ++ (
  [2, 2, 2, 2, 1, 1, 1, 1, 1, 1, 1, 1, 1, 1, 1, 1])))))))))))))))

/-- The SFRs for which R70 lists a reset value, with that value. -/
def resetSfrs (c : Config) : List (Byte × Byte) :=
  [(0xE0, 0x00), (0xF0, 0x00), (0xD0, 0x00), (0x81, 0x07), (0x82, 0x00), (0x83, 0x00),
   (c.dpl1Addr, 0x00), (c.dph1Addr, 0x00), (c.dpsAddr, 0x00), (0xA8, 0x00),
   (0x80, 0xFF), (0x90, 0xFF), (0xA0, 0xFF), (0xB0, 0xFF)]

/-- The SFR file after reset: the values of R70, SFR_RESET for every other SFR, and `unspecByte` where that gives none
(log 4). -/
def resetSfrFile (c : Config) : Memory :=
  ((c.sfrReset.filter fun p => isSfrAddr p.1) ++ resetSfrs c).foldl (fun m p => Memory.write unspecByte m p.1.toNat p.2) []

/-- Every `wake_at` value of a peripheral: those of its Deadlines, then those of its self-timed operations
(60_exceptions.md rules R560, R566). -/
def Peripheral.wakeTimes (p : Peripheral) : List Tick := p.deadlines ++ p.operations.map (·.wakeAt)

/-- A peripheral at the start of a run: every Deadline at INF (R70, R701), no operation under way (log 29). -/
def resetPeripheral (p : Peripheral) : Peripheral :=
  { p with deadlines := p.deadlines.map fun _ => Tick.inf, operations := [] }

/-- The parameters of 95_test_vectors.md section 0: the defaults of R8 where it gives one, the example values where
it leaves the parameter OPEN (DESIGN CHOICE, log 1). -/
def exampleConfig : Config where
  codeSizeLog2 := 14
  cycles := classicCycles
  irqLatency := 2
  irqTable := []
  irqSfrs := [0xA8]
  strictIret := true
  stackCheck := true
  parityTracking := true
  stopOn := []
  breakpoints := []
  xdataValid := [(0x0000, 0xFFFF)]
  movxPageSfr := 0xA0
  dpl1Addr := 0x84
  dph1Addr := 0x85
  dpsAddr := 0x92
  sfrReset := []
  tickRateHz := 16000000
  busIdle := none

end Sys2Proof
end

