-- ==== Sys2Proof/Machine/State.lean ====
section
/-! DEFINITION. The state of one unit (10_state.md rule R30) as plain data, the reasons a step can stop, and the
state after reset (10_state.md rule R70, 70_reset_and_hazards.md rules R700, R701). -/

namespace Sys2Proof.Machine

/-- A step ends in one of these when the unit can take no further cycle. No instruction's meaning answers one: the
faults of the spec are records of `State.faults` (60_exceptions.md rules R511, R534). -/
inductive Fault where
  /-- The unit is halted (R513): raised by `step`. Safe: the spec's unit takes no further cycle either. -/
  | unitHalted
  /-- The run flag is clear before a cycle (R508): raised by `step`. Safe, for the same reason. -/
  | runFlagClear
  deriving DecidableEq, Repr

/-- Why the program image loader refuses a text (70_reset_and_hazards.md rule R710). -/
inductive LoadError where
  /-- A record does not begin with a colon, or the rest is no even number of hexadecimal digits. -/
  | malformed
  /-- The byte count differs from LL + 5. -/
  | badLength
  /-- The bytes do not sum to 0 modulo 256. -/
  | badChecksum
  /-- A data byte lies at or above CODE_SIZE. -/
  | addressRange
  /-- A record type other than 0 and 1. -/
  | badType
  /-- The text ended without a type-1 record. -/
  | noEndRecord
  deriving DecidableEq, Repr

/-- What the model refuses, each where the spec says that a model refuses it. -/
inductive Refusal where
  /-- An instruction without a meaning: raised by an arm of `exec`; every arm has one. -/
  | notModelled (mnemonic : String)
  /-- `ticks` would reach 2^64 - 1 (60_exceptions.md rule R548): raised by `step`. Safe: outside the model. -/
  | clockLimit
  /-- A driver call on a unit with no synchronizer (R570): raised by the rendezvous functions. Safe. -/
  | noSynchronizer
  /-- `begin_event_at(D)` with D below the unit's `ticks` (R575). Safe: the call can never return. -/
  | deadlineInPast
  /-- A driver broke a duty of R577. Safe: it has no defined behaviour. -/
  | driverDuty
  /-- The image did not load: the launch is refused (70_reset_and_hazards.md rule R711). Safe. -/
  | loadFailed (e : LoadError)
  /-- A time conversion whose result does not fit in u64, or of frequency 0 (R541). Safe. -/
  | conversionOverflow
  deriving DecidableEq, Repr

/-- The detail of a fault record (60_exceptions.md rule R510). -/
inductive Detail where
  | none
  | overflow
  | underflow
  /-- The opcode byte or the direct address. -/
  | byte (b : Byte)
  /-- (saved, current). -/
  | pair (saved current : Byte)
  /-- (saved, current), each DPL, DPH, DPL1, DPH1, DPS. -/
  | pointers (saved current : List Byte)
  /-- A register number. -/
  | register (n : Nat)
  /-- A 16-bit address. -/
  | address (a : Addr)
  /-- The positions in PERIPHERALS of the devices that drive the bus. -/
  | drivers (ks : List Nat)
  /-- Peripheral-defined. -/
  | device (bytes : List Byte)
  deriving DecidableEq, Repr

/-- A fault record (kind, pc, detail) (60_exceptions.md rule R511). -/
structure FaultRecord where
  kind : FaultKind
  pc : Addr
  detail : Detail
  deriving DecidableEq, Repr

/-- The record of an active interrupt handler, `irq_level[k]` (10_state.md rule R48). -/
structure IrqLevel where
  priority : BitVec 2
  acc : Byte
  psw : Byte
  sp : Byte
  dpl : Byte
  dph : Byte
  dpl1 : Byte
  dph1 : Byte
  dps : Byte
  r : List Byte
  savedDelay : Int
  deriving DecidableEq, Repr

/-- The unit's side of the rendezvous (60_exceptions.md rules R570, R571). `blocked` is the program point R571
implies: the unit is inside the wait of SyncCheck. `inWindow` is the driver's program point R574 implies: begin_event has
returned and the matching end_event has not been called. -/
structure Sync where
  deadline : Tick
  waiting : Bool
  blocked : Bool
  inWindow : Bool
  deriving DecidableEq, Repr

/-- The state of one unit (10_state.md rule R30). -/
structure State where
  /-- The parameters (00_scope.md rule R8): no state of the machine, never written (log 1). -/
  cfg : Config
  /-- Internal RAM, keyed 0x00..0xFF (R31). -/
  iram : Memory
  /-- The SFR file, keyed by hardware address 0x80..0xFF: `sfr[d - 0x80]` is the byte at key `d` (R41). -/
  sfr : Memory
  /-- Code memory, keyed 0..CODE_SIZE-1 (20_memory.md R81). -/
  code : Memory
  /-- External data memory, keyed by 16-bit address (20_memory.md R86). -/
  xdata : Memory
  /-- The address of the next instruction (R35). -/
  pc : Addr
  /-- The address of the most recently fetched instruction (R36). -/
  previousPc : Addr
  /-- Remaining cycles of the in-flight instruction (R46). -/
  tickDelay : Int
  /-- The active interrupt handlers, innermost first; `irq_count` is its length (R48). -/
  irqStack : List IrqLevel
  /-- The "something changed" flag (R49). -/
  irqRecheck : Bool
  /-- The "peripheral bus needs attention" flag (60_exceptions.md R561). -/
  needHwTick : Bool
  /-- The fault log, oldest first (R50). -/
  faults : List FaultRecord
  /-- The unit takes no further cycle (R50, R513). -/
  halted : Bool
  /-- The VirtualClock (60_exceptions.md R540). -/
  ticks : Tick
  /-- PERIPHERALS with their states, in list order (60_exceptions.md R560). -/
  peripherals : List Peripheral
  /-- The shared bus byte (60_exceptions.md R565). -/
  bus : Byte
  /-- The attached synchronizer, if any (60_exceptions.md R570). -/
  sync : Option Sync
  /-- The run flag (60_exceptions.md R508). -/
  runFlag : Bool
  /-- The model's own: how many unconstrained draws were made (log 6). -/
  freeCount : Nat
  deriving DecidableEq, Repr

/-- The outcome of a meaning or a step. -/
abbrev Result := Host.Outcome State Fault Refusal

/-- A unit at the start of a run (R70, R700, R701) with parameters `c`, peripherals `devices`, code memory `image`,
and a synchronizer attached or not. -/
def State.resetOf (c : Config) (devices : List Peripheral) (attached : Bool) (image : Memory) : State where
  cfg := c
  iram := []
  sfr := resetSfrFile c
  code := image
  xdata := []
  pc := 0
  previousPc := 0
  tickDelay := 0
  irqStack := []
  irqRecheck := false
  needHwTick := false
  faults := []
  halted := false
  ticks := 0
  peripherals := devices.map resetPeripheral
  bus := c.busIdle.getD unspecByte
  sync := if attached then some ⟨0, false, false, false⟩ else none
  runFlag := true
  freeCount := 0

/-- The machine right after reset: no program loaded (erased code memory), the example parameters, no peripheral and
no synchronizer (log 1, log 11). -/
def State.reset : State := State.resetOf exampleConfig [] false []

end Sys2Proof.Machine
end

