-- ==== Sys2Proof/Machine/Clock.lean ====
section
/-! DEFINITION. The VirtualClock's conversions and the Deadline operations (60_exceptions.md rules R541 to R548). -/

namespace Sys2Proof.Machine

/-- A conversion's result as a clock value; one that does not fit in u64 is refused (R541). -/
def asTick (n : Nat) : Host.Outcome Tick Fault Refusal :=
  if n < 2 ^ 64 then .next (BitVec.ofNat 64 n) else .refused .conversionOverflow

/-- `hz_to_ticks(f)`, for f ≥ 1 (R541). -/
def hzToTicks (c : Config) (f : Nat) : Host.Outcome Tick Fault Refusal :=
  if f = 0 then .refused .conversionOverflow else asTick (c.tickRateHz / f)

/-- `us_to_ticks(us)` (R541). -/
def usToTicks (c : Config) (us : Nat) : Host.Outcome Tick Fault Refusal :=
  asTick (us * c.tickRateHz / 1000000)

/-- `ms_to_ticks(ms)` (R541). -/
def msToTicks (c : Config) (ms : Nat) : Host.Outcome Tick Fault Refusal :=
  asTick (ms * c.tickRateHz / 1000)

/-- `set(t)`: the earlier of the two (R543). -/
def deadlineSet (w t : Tick) : Tick := if t < w then t else w

/-- `reset()` (R544). -/
def deadlineReset (_ : Tick) : Tick := Tick.inf

/-- `reset_to(t)` (R544). -/
def deadlineResetTo (_ t : Tick) : Tick := t

/-- `has_passed()` at clock value `now` (R545). -/
def deadlinePassed (now w : Tick) : Bool := decide (w ≤ now)

/-- `remaining()` at clock value `now` (R546). -/
def deadlineRemaining (now w : Tick) : Tick := if now < w then w - now else 0

end Sys2Proof.Machine
end

