-- ==== Sys2Proof/Machine/Flags.lean ====
section
/-! DEFINITION. The arithmetic and flag formulas of 40_arithmetic.md and 41_logical.md, over exact integers and
narrowed at the end, and the parity of 00_scope.md rule R10. -/

namespace Sys2Proof

/-- A result byte with the carry, auxiliary-carry and overflow flags (R190, R191). -/
structure AluResult where
  value : Byte
  cy : Bool
  ac : Bool
  ov : Bool
  deriving DecidableEq, Repr

/-- `ADD8(a, b, cin)` (R190). -/
def add8 (a b : Byte) (cin : Bool) : AluResult :=
  let c := cin.toNat
  let cy := decide (256 ≤ a.toNat + b.toNat + c)
  let c6 := decide (0x80 ≤ a.toNat % 0x80 + b.toNat % 0x80 + c)
  { value := BitVec.ofNat 8 (a.toNat + b.toNat + c)
    cy := cy
    ac := decide (0x10 ≤ a.toNat % 0x10 + b.toNat % 0x10 + c)
    ov := c6 != cy }

/-- `SUB8(a, b, bin)` (R191). -/
def sub8 (a b : Byte) (bin : Bool) : AluResult :=
  let c := bin.toNat
  let cy := decide (a.toNat < b.toNat + c)
  let b6 := decide (a.toNat % 0x80 < b.toNat % 0x80 + c)
  { value := BitVec.ofInt 8 ((a.toNat : Int) - b.toNat - c)
    cy := cy
    ac := decide (a.toNat % 0x10 < b.toNat % 0x10 + c)
    ov := b6 != cy }

/-- `parity(v)`: the exclusive or of the eight bits (R10). -/
def parity (v : Byte) : Bool :=
  bitOf v 0 != (bitOf v 1 != (bitOf v 2 != (bitOf v 3 != (bitOf v 4 != (bitOf v 5 != (bitOf v 6 != bitOf v 7))))))

/-- One adjustment of `DA A`: add `n`, setting the carry when the sum passes 0xFF (R224). -/
def daAdd (n : Nat) (p : Byte × Bool) : Byte × Bool :=
  (BitVec.ofNat 8 (p.1.toNat + n), p.2 || decide (0xFF < p.1.toNat + n))

/-- `DA A` from A, CY and AC: the adjusted byte and the carry (R224). -/
def decimalAdjust (a : Byte) (cy ac : Bool) : Byte × Bool :=
  let low := if 9 < a.toNat % 0x10 || ac then daAdd 0x06 (a, cy) else (a, cy)
  if 0x90 < low.1.toNat / 0x10 * 0x10 || low.2 then daAdd 0x60 low else low

/-- The rotations of the accumulator (R270 to R273); with a carry, the new carry beside the byte. -/
def rotl (a : Byte) : Byte := (a <<< 1) ||| (a >>> 7)

/-- `RR A` (R272). -/
def rotr (a : Byte) : Byte := (a >>> 1) ||| (a <<< 7)

/-- `RLC A` (R271). -/
def rotlc (a : Byte) (cy : Bool) : Byte × Bool := ((a <<< 1) ||| BitVec.ofNat 8 cy.toNat, bitOf a 7)

/-- `RRC A` (R273). -/
def rotrc (a : Byte) (cy : Bool) : Byte × Bool := ((a >>> 1) ||| (BitVec.ofNat 8 cy.toNat <<< 7), bitOf a 0)

/-- `SWAP A`: the nibbles exchanged (R274). -/
def swapNibbles (a : Byte) : Byte := a.extractLsb' 0 4 ++ a.extractLsb' 4 4

/-- The high nibble of `h` with the low nibble of `l` (R329). -/
def nibbles (h l : Byte) : Byte := h.extractLsb' 4 4 ++ l.extractLsb' 0 4

end Sys2Proof
end

