-- ==== Sys2Proof/Machine/Ops.lean ====
section
/-! DEFINITION. The named operations over memory and registers: implicit register access (10_state.md rules R31 to
R52), the fault channel (60_exceptions.md rule R511), the unconstrained draws (R509), code, IRAM and XDATA access
(20_memory.md), the stack, the program counter, the cost and the epilogue of an instruction; and the one control
transfer the hardware makes on its own, interrupt dispatch (60_exceptions.md rule R522), with the return from it
(R526). -/

namespace Sys2Proof.Machine

/-! ### SFRs, accessed implicitly: no hook (10_state.md rule R52) -/

/-- `sfr[d - 0x80]` (R41). -/
def sfrGet (d : Byte) (s : State) : Byte := Memory.read unspecByte s.sfr d.toNat

/-- `sfr[d - 0x80] <- v`. -/
def setSfr (d v : Byte) (s : State) : State :=
  { s with sfr := Memory.write unspecByte s.sfr d.toNat v }

/-- A, the accumulator (R37). -/
def acc (s : State) : Byte := sfrGet 0xE0 s

/-- `A <- v`. -/
def setAcc (v : Byte) (s : State) : State := setSfr 0xE0 v s

/-- B (R38). -/
def regB (s : State) : Byte := sfrGet 0xF0 s

/-- `B <- v`. -/
def setB (v : Byte) (s : State) : State := setSfr 0xF0 v s

/-- PSW (R39). -/
def psw (s : State) : Byte := sfrGet 0xD0 s

/-- `PSW <- v`. -/
def setPsw (v : Byte) (s : State) : State := setSfr 0xD0 v s

/-- SP (R40). -/
def sp (s : State) : Byte := sfrGet 0x81 s

/-- `SP <- v`. -/
def setSp (v : Byte) (s : State) : State := setSfr 0x81 v s

/-- CY, bit 7 of PSW (R39). -/
def cy (s : State) : Bool := bitOf (psw s) 7

/-- AC, bit 6 of PSW (R39). -/
def ac (s : State) : Bool := bitOf (psw s) 6

/-- OV, bit 2 of PSW (R39). -/
def ov (s : State) : Bool := bitOf (psw s) 2

/-- `CY <- b`. -/
def setCy (b : Bool) (s : State) : State := setPsw (withBit (psw s) 7 b) s

/-- `AC <- b`. -/
def setAc (b : Bool) (s : State) : State := setPsw (withBit (psw s) 6 b) s

/-- `OV <- b`. -/
def setOv (b : Bool) (s : State) : State := setPsw (withBit (psw s) 2 b) s

/-- `(A, CY, AC, OV) <- r` (40_arithmetic.md rules R200 to R211). -/
def setArith (r : AluResult) (s : State) : State :=
  setOv r.ov (setAc r.ac (setCy r.cy (setAcc r.value s)))

/-- The global interrupt enable EA, bit 7 of SFR 0xA8 (R44). -/
def irqEnabled (s : State) : Bool := bitOf (sfrGet 0xA8 s) 7

/-! ### The data pointers (10_state.md rules R42, R43) -/

/-- DPS, the data pointer select register. -/
def dps (s : State) : Byte := sfrGet s.cfg.dpsAddr s

/-- The SFR address of the low byte of the active data pointer. -/
def dplAddr (s : State) : Byte := if bitOf (dps s) 0 then s.cfg.dpl1Addr else 0x82

/-- The SFR address of the high byte of the active data pointer. -/
def dphAddr (s : State) : Byte := if bitOf (dps s) 0 then s.cfg.dph1Addr else 0x83

/-- DPTR, the active data pointer. -/
def dptr (s : State) : Addr := sfrGet (dphAddr s) s ++ sfrGet (dplAddr s) s

/-- `DPTR <- v`: the high byte, then the low byte of the active pointer. -/
def setDptr (v : Addr) (s : State) : State :=
  setSfr (dplAddr s) (v.extractLsb' 0 8) (setSfr (dphAddr s) (v.extractLsb' 8 8) s)

/-- The five data pointer registers DPL, DPH, DPL1, DPH1, DPS. -/
def pointerBytes (s : State) : List Byte :=
  [sfrGet 0x82 s, sfrGet 0x83 s, sfrGet s.cfg.dpl1Addr s, sfrGet s.cfg.dph1Addr s, dps s]

/-! ### Internal RAM and the register banks -/

/-- `MemRead(IRAM, a, 1)` (20_memory.md rule R82). -/
def iramGet (a : Byte) (s : State) : Byte := Memory.read unspecByte s.iram a.toNat

/-- `MemWrite(IRAM, a, 1, v)` (20_memory.md rule R82). -/
def setIram (a v : Byte) (s : State) : State :=
  { s with iram := Memory.write unspecByte s.iram a.toNat v }

/-- RS = PSW[4:3], the current bank (R32). -/
def bank (s : State) : BitVec 2 := (psw s).extractLsb' 3 2

/-- The IRAM address of Rn: `8*RS + n` (R33). -/
def regAddr (n : BitVec 3) (s : State) : Byte := 0b000#3 ++ bank s ++ n

/-- `x[n]` (R33). -/
def readReg (n : BitVec 3) (s : State) : Byte := iramGet (regAddr n s) s

/-- `x[n] <- v` (R33). -/
def writeReg (n : BitVec 3) (v : Byte) (s : State) : State := setIram (regAddr n s) v s

/-- The eight bytes of the current bank. -/
def bankBytes (s : State) : List Byte :=
  [readReg 0 s, readReg 1 s, readReg 2 s, readReg 3 s, readReg 4 s, readReg 5 s, readReg 6 s, readReg 7 s]

/-! ### The fault channel and the unconstrained draws -/

/-- Report a fault with recorded program counter `a`: append it to the log and change nothing else
(60_exceptions.md rules R511, R512). -/
def raiseAt (a : Addr) (k : FaultKind) (x : Detail) (s : State) : State :=
  { s with faults := s.faults ++ [⟨k, a, x⟩] }

/-- `raise Fault(kind, detail)`: every kind but BREAKPOINT records `previous_pc` (60_exceptions.md rule R512). -/
def raise (k : FaultKind) (x : Detail) (s : State) : State := raiseAt s.previousPc k x s

/-- Raise a fault when `b` holds. -/
def raiseIf (b : Bool) (k : FaultKind) (x : Detail) (s : State) : State := if b then raise k x s else s

/-- ANY: an unconstrained draw (60_exceptions.md rule R509, log 6). -/
def draw (s : State) : State × Byte :=
  ({ s with freeCount := s.freeCount + 1 }, Config.freeByte s.freeCount)

/-! ### Code and external data memory -/

/-- `MemRead(CODE, a, 1)`: the byte at `a mod CODE_SIZE` (20_memory.md rule R81). -/
def codeRead (a : Nat) (s : State) : Byte := Memory.read codeErased s.code (a % s.cfg.codeSize)

/-- `MemRead(XDATA, a, 1)` (20_memory.md rule R86). -/
def xdataRead (a : Addr) (s : State) : State × Byte :=
  if s.cfg.xdataOk a then (s, Memory.read unspecByte s.xdata a.toNat)
  else draw (raise .xdataRange (.address a) s)

/-- `MemWrite(XDATA, a, 1, v)` (20_memory.md rule R86). -/
def xdataWrite (a : Addr) (v : Byte) (s : State) : State :=
  if s.cfg.xdataOk a then { s with xdata := Memory.write unspecByte s.xdata a.toNat v }
  else raise .xdataRange (.address a) s

/-! ### The stack (20_memory.md rules R87 to R89) -/

/-- `Push(v)` (R88). -/
def push (v : Byte) (s : State) : State :=
  let top := sp s + 1
  raiseIf (s.cfg.stackCheck && top == 0x00) .stack .overflow (setIram top v (setSp top s))

/-- `Pop()` (R89). -/
def pop (s : State) : State × Byte :=
  let top := sp s - 1
  (raiseIf (s.cfg.stackCheck && top == 0xFF) .stack .underflow (setSp top s), iramGet (sp s) s)

/-! ### The program counter -/

/-- `pc <- t`: every write to pc is reduced modulo CODE_SIZE (10_state.md rule R35). -/
def setPc (t : Nat) (s : State) : State := { s with pc := BitVec.ofNat 16 (t % s.cfg.codeSize) }

/-- Push pc, the low byte first (20_memory.md rule R90). -/
def pushPc (s : State) : State := push (s.pc.extractLsb' 8 8) (push (s.pc.extractLsb' 0 8) s)

/-- `hi <- Pop(); lo <- Pop(); pc <- {hi, lo}` (44_branching.md rule R402). -/
def popPc (s : State) : State :=
  let hi := pop s
  let lo := pop hi.1
  setPc (hi.2 ++ lo.2).toNat lo.1

/-! ### Cost and epilogue -/

/-- The cost CYCLES(op) of the executed instruction, left in `tick_delay` (60_exceptions.md rules R503, R507). -/
def charge (op : Byte) (s : State) : State := { s with tickDelay := s.cfg.cyclesOf op }

/-- The epilogue of every instruction: `PSW[0] <- parity(A)` when PARITY_TRACKING (60_exceptions.md rule R506). -/
def epilogue (s : State) : State :=
  if s.cfg.parityTracking then setPsw (withBit (psw s) 0 (parity (acc s))) s else s

/-! ### Interrupt dispatch and return -/

/-- The snapshot record of a dispatch at priority `p` that preempts the remainder `d` (10_state.md rule R48). -/
def snapshot (p : BitVec 2) (d : Int) (s : State) : IrqLevel where
  priority := p
  acc := acc s
  psw := psw s
  sp := sp s
  dpl := sfrGet 0x82 s
  dph := sfrGet 0x83 s
  dpl1 := sfrGet s.cfg.dpl1Addr s
  dph1 := sfrGet s.cfg.dph1Addr s
  dps := dps s
  r := bankBytes s
  savedDelay := d

/-- The auto-clear of a dispatched source: an implicit store, no hook (60_exceptions.md rule R523). -/
def autoClear (c : Option (Byte × BitVec 3)) (s : State) : State :=
  match c with
  | none => s
  | some (d, b) => setSfr d (withBit (sfrGet d s) b false) s

/-- `Dispatch(s, p)`, the synthetic CALL of source `x` at priority `p` (60_exceptions.md rule R522). -/
def dispatch (x : IrqSource) (p : BitVec 2) (s : State) : State :=
  let called := setPc x.vector.toNat (pushPc s)
  autoClear x.autoClear
    { called with
      tickDelay := called.cfg.irqLatency
      irqStack := snapshot p s.tickDelay called :: called.irqStack }

/-- The five saved data pointer registers of a record. -/
def IrqLevel.pointers (l : IrqLevel) : List Byte := [l.dpl, l.dph, l.dpl1, l.dph1, l.dps]

/-- The first position where two lists of bytes differ. -/
def firstDifference : List Byte → List Byte → Nat → Option Nat
  | a :: as, b :: bs, k => if a = b then firstDifference as bs (k + 1) else some k
  | _, _, _ => none

/-- The strict checks of RETI against the snapshot `l`, in the order of R526. They read and never write. -/
def checkSnapshot (l : IrqLevel) (s : State) : State :=
  let s1 := raiseIf (acc s != l.acc) .iretAccMismatch (.pair l.acc (acc s)) s
  let s2 := raiseIf (sp s != l.sp) .iretSpMismatch (.pair l.sp (sp s)) s1
  let s3 := raiseIf (psw s != l.psw) .iretPswMismatch (.pair l.psw (psw s)) s2
  let s4 := raiseIf (pointerBytes s != l.pointers) .iretDptrMismatch (.pointers l.pointers (pointerBytes s)) s3
  match firstDifference l.r (bankBytes s) 0 with
  | none => s4
  | some k => raise .iretBankMismatch (.register k) s4

/-- `IrqReturn()` for the innermost record `l`, the records `rest` below it: the level is popped, the snapshot
compared, pc popped, and the cost with the preempted remainder left in `tick_delay` (60_exceptions.md rule R526). -/
def irqReturn (l : IrqLevel) (rest : List IrqLevel) (s : State) : State :=
  let s1 : State := { s with irqStack := rest }
  let s2 := popPc (if s.cfg.strictIret then checkSnapshot l s1 else s1)
  { s2 with tickDelay := s2.cfg.cyclesOf 0x32 + l.savedDelay }

end Sys2Proof.Machine
end

