-- ==== Sys2Proof/Machine/Devices.lean ====
section
/-! DEFINITION. The peripheral bus: the SFR hooks (60_exceptions.md rule R563), the hardware tick (R562), the duty of
R564 and the shared bus (R565). What an external device does is the free value of Config (log 8). -/

namespace Sys2Proof.Machine

/-- A peripheral's view of the unit. -/
def deviceView (p : Peripheral) (s : State) : DeviceView := ⟨p, s.sfr, s.bus, s.ticks⟩

/-! ### Self-timed operations (R566, log 29) -/

/-- The command targets a busy resource of the peripheral: an operation on it has not been completed. -/
def resourceBusy (p : Peripheral) (c : DeviceCommand) : Bool := p.operations.any fun o => o.resource == c.resource

/-- The completion Deadline of an operation of that duration started at `now`; INF where the sum passes it. -/
def completionTime (now : Tick) (duration : Nat) : Tick :=
  BitVec.ofNat 64 (min (now.toNat + duration) Tick.inf.toNat)

/-- The peripheral after its command `c` started an operation at clock value `now`. -/
def started (now : Tick) (c : DeviceCommand) (p : Peripheral) : Peripheral :=
  { p with operations := p.operations ++ [⟨c.resource, completionTime now c.duration⟩] }

/-- A peripheral whose operations with a passed Deadline are completed. -/
def completed (now : Tick) (p : Peripheral) : Peripheral :=
  { p with operations := p.operations.filter fun o => !deadlinePassed now o.wakeAt }

/-- The tick routine of peripheral `k` completes its operations. -/
def completeOperations (k : Nat) (s : State) : State :=
  { s with peripherals := s.peripherals.modify k (completed s.ticks) }

/-! ### Settling an effect -/

/-- What the actions of an effect come to: the peripheral after them, what they write, and what they report. -/
structure Settled where
  peripheral : Peripheral
  sfrWrites : List (Byte × Byte)
  codeWrites : List (Addr × Byte)
  attention : Bool
  recheck : Bool
  faults : List (FaultKind × List Byte)
  deriving DecidableEq, Repr

/-- The fault kind of a peripheral fault (R510). -/
def peripheralFaultKind : PeripheralFault → FaultKind
  | .spiXrun => .spiXrun
  | .radioXrun => .radioXrun
  | .i2cError => .i2cError

/-- A peripheral's own state, as its handlers may change it. -/
def ownState (p : Peripheral) : DeviceState := ⟨p.bytes, p.deadlines, p.outEnable, p.outByte⟩

/-- The peripheral with that own state. -/
def withOwnState (o : DeviceState) (p : Peripheral) : Peripheral :=
  { p with bytes := o.bytes, deadlines := o.deadlines, outEnable := o.outEnable, outByte := o.outByte }

/-- Before any action. -/
def unsettled (p : Peripheral) : Settled := ⟨p, [], [], false, false, []⟩

/-- A change adds to what the actions before it changed. -/
def settleChange (c : DeviceChange) (f : Settled) : Settled :=
  { f with
    peripheral := withOwnState (c.own.getD (ownState f.peripheral)) f.peripheral
    sfrWrites := f.sfrWrites ++ c.sfrWrites
    codeWrites := f.codeWrites ++ c.codeWrites
    attention := f.attention || c.attention
    recheck := f.recheck || c.recheck }

/-- A report. -/
def settleFault (k : FaultKind) (detail : List Byte) (f : Settled) : Settled :=
  { f with faults := f.faults ++ [(k, detail)] }

/-- One action at clock value `now`. Every fault is reported (R515). A command to a busy resource is discarded with a
PERIPHERAL_BUSY record, and it alone; any other starts its operation (R566). -/
def settleAction (now : Tick) (f : Settled) : DeviceAction → Settled
  | .report k detail => settleFault (peripheralFaultKind k) detail f
  | .change c => settleChange c f
  | .command c starts =>
    if resourceBusy f.peripheral c then settleFault .peripheralBusy c.detail f
    else
      let g := settleChange starts f
      { g with peripheral := started now c g.peripheral }

/-- The actions of an effect of `p` at clock value `now`, in order. -/
def settle (now : Tick) (p : Peripheral) (e : DeviceEffect) : Settled := e.foldl (settleAction now) (unsettled p)

/-! ### Handlers and tick routines -/

/-- Some Deadline of the peripheral has passed (R562). -/
def due (s : State) (p : Peripheral) : Bool := p.wakeTimes.any (deadlinePassed s.ticks)

/-- The effect of a handler at clock value `now`, which asks for a hardware tick when `port` says that the register is one
of a port, or when the peripheral's bus output changes, so that the bus is derived again in the same cycle (R565, log 31). -/
def askingForBus (now : Tick) (p : Peripheral) (port : Bool) (e : DeviceEffect) : DeviceEffect :=
  if port || ((settle now p e).peripheral.outEnable != p.outEnable || (settle now p e).peripheral.outByte != p.outByte)
  then e ++ [.change { attention := true }]
  else e

/-- The action without its request for a hardware tick: a tick routine makes none (R561, log 8). -/
def withoutAttention : DeviceAction → DeviceAction
  | .report k detail => .report k detail
  | .change c => .change { c with attention := false }
  | .command c starts => .command c { starts with attention := false }

/-- The bytes of the SFRs the peripheral owns; a core SFR is owned by none (log 16). -/
def ownedBytes (p : Peripheral) (s : State) : List Byte :=
  (p.owns.filter fun d => !s.cfg.coreSfrs.contains d).map fun d => sfrGet d s

/-- A peripheral's read handler for SFR address `d` (R563): a register with no documented read side effect changes no
state and answers a byte that does not depend on the clock (log 32). The request timer has no handler of its own. -/
def readHandler (p : Peripheral) (d : Byte) (s : State) : DeviceEffect × Byte :=
  match p.device with
  | .requestTimer _ => ([], sfrGet d s)
  | .external id =>
    if p.readEffects.contains d then
      (askingForBus s.ticks p false (Config.deviceRead id d (deviceView p s)).1, (Config.deviceRead id d (deviceView p s)).2)
    else ([], Config.deviceValue id d p (ownedBytes p s) s.bus)

/-- A peripheral's write handler for SFR address `d` (R563), after the store; for a register of a port it asks for a
hardware tick (R565). -/
def writeHandler (p : Peripheral) (d : Byte) (s : State) : DeviceEffect :=
  askingForBus s.ticks p (p.ports.contains d)
    (match p.device with
      | .requestTimer _ => []
      | .external id => Config.deviceWrite id d (deviceView p s))

/-- A peripheral's tick routine (R562); the request timer is Timer(t, b) of 95_test_vectors.md section 0 (log 22). -/
def tickRoutine (p : Peripheral) (s : State) : DeviceEffect :=
  match p.device with
  | .requestTimer b =>
    if p.deadlines.any (deadlinePassed s.ticks) then
      [.change
        { own := some { ownState p with deadlines := p.deadlines.map deadlineReset }
          sfrWrites := [(0x88, withBit (sfrGet 0x88 s) b true)]
          recheck := true }]
    else []
  | .external id => Config.deviceTick id (deviceView p s)

/-- The records a settled effect reports, in the order of their raises (R515), with the recorded pc of R512. -/
def deviceFaults (f : Settled) (s : State) : List FaultRecord :=
  f.faults.map fun x => ⟨x.1, s.previousPc, .device x.2⟩

/-- A settled effect of peripheral `k`, which was `p`, changes something that an IRQ_TABLE predicate reads, or EA (R564). -/
def touchesIrq (k : Nat) (p : Peripheral) (f : Settled) (c : Config) : Bool :=
  (f.sfrWrites.any fun w => w.1 == 0xA8 || c.irqTable.any fun x => x.sfrs.contains w.1) ||
    (f.peripheral.bytes != p.bytes && c.irqTable.any fun x => x.devices.contains k)

/-- Store a peripheral's SFR writes; an address below 0x80 is no SFR and is passed over. -/
def applySfrWrites (ws : List (Byte × Byte)) (m : Memory) : Memory :=
  ws.foldl (fun m w => if isSfrAddr w.1 then Memory.write unspecByte m w.1.toNat w.2 else m) m

/-- Store a peripheral's code writes, each address reduced modulo CODE_SIZE (20_memory.md rules R81, R100). -/
def applyCodeWrites (n : Nat) (ws : List (Addr × Byte)) (m : Memory) : Memory :=
  ws.foldl (fun m w => Memory.write codeErased m (w.1.toNat % n) w.2) m

/-- The effect `e` of peripheral number `k`, which was `p`. `irq_recheck` is set where the duty of R564 asks for it
(log 9). -/
def applyEffect (k : Nat) (p : Peripheral) (e : DeviceEffect) (s : State) : State :=
  let f := settle s.ticks p e
  { s with
    peripherals := s.peripherals.set k f.peripheral
    sfr := applySfrWrites f.sfrWrites s.sfr
    code := applyCodeWrites s.cfg.codeSize f.codeWrites s.code
    needHwTick := s.needHwTick || f.attention
    irqRecheck := s.irqRecheck || (f.recheck || touchesIrq k p f s.cfg)
    faults := s.faults ++ deviceFaults f s }

/-- The peripheral that owns SFR address `d`, with its number. The core SFRs are owned by none (R560, 20_memory.md
rule R83, log 16). -/
def ownerOf (d : Byte) (s : State) : Option (Nat × Peripheral) :=
  if s.cfg.coreSfrs.contains d then none
  else
    match s.peripherals.findIdx? fun p => p.owns.contains d with
    | none => none
    | some k => (s.peripherals[k]?).map fun p => (k, p)

/-- `on_sfr_read(d)` (R563). -/
def onSfrRead (d : Byte) (s : State) : State × Byte :=
  match ownerOf d s with
  | none => (s, sfrGet d s)
  | some (k, p) => (applyEffect k p (readHandler p d s).1 s, (readHandler p d s).2)

/-- `on_sfr_write(d)` (R563), after the store. -/
def onSfrWrite (d : Byte) (s : State) : State :=
  match ownerOf d s with
  | none => s
  | some (k, p) => applyEffect k p (writeHandler p d s) s

/-! ### The hardware tick and the shared bus -/

/-- One peripheral's turn in the hardware tick (R562): the tick routine, which sees the operations whose Deadline has
passed, completes them (R566) and does not ask for attention (R561). -/
def tickPeripheral (attention : Bool) (s : State) (k : Nat) : State :=
  match s.peripherals[k]? with
  | none => s
  | some p =>
    if attention || due s p then
      applyEffect k (completed s.ticks p) ((tickRoutine p s).map withoutAttention)
        (completeOperations k s)
    else s

/-- The peripheral numbers whose output-enable is asserted, in list order (R565). -/
def busDrivers (s : State) : List Nat :=
  (List.range s.peripherals.length).filter fun k => ((s.peripherals[k]?).map (·.outEnable)).getD false

/-- `DeriveBus()` (R565). -/
def deriveBus (s : State) : State :=
  match busDrivers s with
  | [] =>
    match s.cfg.busIdle with
    | some v => { s with bus := v }
    | none => { (draw s).1 with bus := (draw s).2 }
  | [k] => { s with bus := ((s.peripherals[k]?).map (·.outByte)).getD s.bus }
  | ks =>
    let raised := raise .busContention (.drivers ks) s
    { (draw raised).1 with bus := (draw raised).2 }

/-- `hardware_tick()` (R562). -/
def hardwareTick (s : State) : State :=
  if s.needHwTick || s.peripherals.any (due s) then
    deriveBus ((List.range s.peripherals.length).foldl (tickPeripheral s.needHwTick) { s with needHwTick := false })
  else s

end Sys2Proof.Machine
end

