-- ==== Sys2Proof/Machine/Operands.lean ====
section
/-! DEFINITION. The operand forms: direct, indirect, bit, external-data and code addresses, and branch targets
(20_memory.md rules R82 to R85, 42_data_transfer.md rules R316, R317, 44_branching.md rules R420, R421). -/

namespace Sys2Proof.Machine

/-- `DirRead(d)` (20_memory.md rule R83). -/
def dirRead (d : Byte) (s : State) : State × Byte :=
  if d ≤ 0x7F#8 then (s, iramGet d s) else onSfrRead d s

/-- Set `irq_recheck` after a write of SFR `d` when `d` is in IRQ_SFRS (20_memory.md rule R84, 60_exceptions.md rule
R524). -/
def noteIrqSfr (d : Byte) (s : State) : State :=
  if s.cfg.irqSfrs.contains d then { s with irqRecheck := true } else s

/-- `DirWrite(d, v)` (20_memory.md rule R84): the store, then the hook, then the recheck flag. -/
def dirWrite (d v : Byte) (s : State) : State :=
  if d ≤ 0x7F#8 then setIram d v s else noteIrqSfr d (onSfrWrite d (setSfr d v s))

/-- A read-modify-write of a direct operand: both halves through the hooks (D8). -/
def dirUpdate (d : Byte) (f : Byte → Byte) (s : State) : State :=
  let v := dirRead d s
  dirWrite d (f v.2) v.1

/-- The pointer register of `@Ri` (10_state.md rule R33). -/
def pointer (i : BitVec 1) (s : State) : Byte := readReg (0b00#2 ++ i) s

/-- `MemRead(IRAM, x[i], 1)`: always IRAM, never an SFR (20_memory.md rule R82). -/
def indRead (i : BitVec 1) (s : State) : Byte := iramGet (pointer i s) s

/-- `MemWrite(IRAM, x[i], 1, v)` (20_memory.md rule R82). -/
def indWrite (i : BitVec 1) (v : Byte) (s : State) : State := setIram (pointer i s) v s

/-- `BitLoc(b)`: the byte address and the bit number (20_memory.md rule R85). -/
def bitLoc (b : Byte) : Byte × BitVec 3 :=
  (if b ≤ 0x7F#8 then 0x20 + (b >>> 3) else b &&& 0xF8, b.extractLsb' 0 3)

/-- `BitRead(b)` (20_memory.md rule R85). -/
def bitRead (b : Byte) (s : State) : State × Bool :=
  let v := dirRead (bitLoc b).1 s
  (v.1, bitOf v.2 (bitLoc b).2)

/-- Read the containing byte once, change the bit by `f`, write the byte back (20_memory.md rule R85, D8). -/
def bitUpdate (b : Byte) (f : Bool → Bool) (s : State) : State :=
  dirUpdate (bitLoc b).1 (fun t => withBit t (bitLoc b).2 (f (bitOf t (bitLoc b).2))) s

/-- `BitWrite(b, v)` (20_memory.md rule R85). -/
def bitWrite (b : Byte) (v : Bool) (s : State) : State := bitUpdate b (fun _ => v) s

/-- `XADDR_I(i)`: the page SFR, read without a hook, and the pointer register (42_data_transfer.md rule R316). -/
def xaddrInd (i : BitVec 1) (s : State) : Addr := sfrGet s.cfg.movxPageSfr s ++ pointer i s

/-- `rel_target(rel)`: the non-negative remainder of pc + rel (44_branching.md rule R420). -/
def relTarget (rel : Int) (s : State) : Nat := (((s.pc.toNat : Int) + rel) % (s.cfg.codeSize : Int)).toNat

/-- Branch to `rel_target(rel)` when `b` holds. -/
def branchIf (b : Bool) (rel : Int) (s : State) : State := if b then setPc (relTarget rel s) s else s

/-- `{pc[15:11], addr11}`: a target in the 2 KB page of pc (44_branching.md rule R421). -/
def pageTarget (a : BitVec 11) (s : State) : Addr := s.pc.extractLsb' 11 5 ++ a

/-- Compare unsigned, set CY to "less", branch when different (44_branching.md rules R410 to R413). -/
def compareBranch (v w : Byte) (rel : Int) (s : State) : State :=
  branchIf (v != w) rel (setCy (decide (v < w)) s)

end Sys2Proof.Machine
end

