-- ==== Sys2Proof/Machine/Arithmetic.lean ====
section
/-! DEFINITION. The meanings of the arithmetic instructions (40_arithmetic.md rules R200 to R224). Each meaning is the
rule's pseudocode, run after the fetch (pc is already next), and leaves the cost CYCLES(op) in `tick_delay`. -/

namespace Sys2Proof.Machine

/-- `(A, CY, AC, OV) <- ADD8(A, v, cin)` (R200 to R207). -/
def addToAcc (v : Byte) (cin : Bool) (s : State) : State := setArith (add8 (acc s) v cin) s

/-- `(A, CY, AC, OV) <- SUB8(A, v, CY)` (R208 to R211). -/
def subFromAcc (v : Byte) (s : State) : State := setArith (sub8 (acc s) v (cy s)) s

/-- `ADD A,Rn` (R200). -/
def execAddARn (n : BitVec 3) (s : State) : Result :=
  .next (charge (0b00101#5 ++ n) (addToAcc (readReg n s) false s))

/-- `ADD A,direct` (R201). -/
def execAddADir (d : Byte) (s : State) : Result :=
  let v := dirRead d s
  .next (charge 0x25 (addToAcc v.2 false v.1))

/-- `ADD A,@Ri` (R202). -/
def execAddAInd (i : BitVec 1) (s : State) : Result :=
  .next (charge (0b0010011#7 ++ i) (addToAcc (indRead i s) false s))

/-- `ADD A,#data` (R203). -/
def execAddAImm (imm : Byte) (s : State) : Result :=
  .next (charge 0x24 (addToAcc imm false s))

/-- `ADDC A,Rn` (R204). -/
def execAddcARn (n : BitVec 3) (s : State) : Result :=
  .next (charge (0b00111#5 ++ n) (addToAcc (readReg n s) (cy s) s))

/-- `ADDC A,direct` (R205). -/
def execAddcADir (d : Byte) (s : State) : Result :=
  let v := dirRead d s
  .next (charge 0x35 (addToAcc v.2 (cy v.1) v.1))

/-- `ADDC A,@Ri` (R206). -/
def execAddcAInd (i : BitVec 1) (s : State) : Result :=
  .next (charge (0b0011011#7 ++ i) (addToAcc (indRead i s) (cy s) s))

/-- `ADDC A,#data` (R207). -/
def execAddcAImm (imm : Byte) (s : State) : Result :=
  .next (charge 0x34 (addToAcc imm (cy s) s))

/-- `SUBB A,Rn` (R208). -/
def execSubbARn (n : BitVec 3) (s : State) : Result :=
  .next (charge (0b10011#5 ++ n) (subFromAcc (readReg n s) s))

/-- `SUBB A,direct` (R209). -/
def execSubbADir (d : Byte) (s : State) : Result :=
  let v := dirRead d s
  .next (charge 0x95 (subFromAcc v.2 v.1))

/-- `SUBB A,@Ri` (R210). -/
def execSubbAInd (i : BitVec 1) (s : State) : Result :=
  .next (charge (0b1001011#7 ++ i) (subFromAcc (indRead i s) s))

/-- `SUBB A,#data` (R211). -/
def execSubbAImm (imm : Byte) (s : State) : Result :=
  .next (charge 0x94 (subFromAcc imm s))

/-- `INC A` (R212). -/
def execIncA (s : State) : Result :=
  .next (charge 0x04 (setAcc (acc s + 1) s))

/-- `INC Rn` (R213). -/
def execIncRn (n : BitVec 3) (s : State) : Result :=
  .next (charge (0b00001#5 ++ n) (writeReg n (readReg n s + 1) s))

/-- `INC direct` (R214). -/
def execIncDir (d : Byte) (s : State) : Result :=
  .next (charge 0x05 (dirUpdate d (fun v => v + 1) s))

/-- `INC @Ri` (R215). -/
def execIncInd (i : BitVec 1) (s : State) : Result :=
  .next (charge (0b0000011#7 ++ i) (indWrite i (indRead i s + 1) s))

/-- `INC DPTR` (R216): on the active data pointer. -/
def execIncDptr (s : State) : Result :=
  .next (charge 0xA3 (setDptr (dptr s + 1) s))

/-- `DEC A` (R217). -/
def execDecA (s : State) : Result :=
  .next (charge 0x14 (setAcc (acc s - 1) s))

/-- `DEC Rn` (R218). -/
def execDecRn (n : BitVec 3) (s : State) : Result :=
  .next (charge (0b00011#5 ++ n) (writeReg n (readReg n s - 1) s))

/-- `DEC direct` (R219). -/
def execDecDir (d : Byte) (s : State) : Result :=
  .next (charge 0x15 (dirUpdate d (fun v => v - 1) s))

/-- `DEC @Ri` (R220). -/
def execDecInd (i : BitVec 1) (s : State) : Result :=
  .next (charge (0b0001011#7 ++ i) (indWrite i (indRead i s - 1) s))

/-- `MUL AB` (R222). -/
def execMulAB (s : State) : Result :=
  let p := (acc s).toNat * (regB s).toNat
  .next (charge 0xA4 (setOv (decide (0xFF < p)) (setCy false
    (setB (BitVec.ofNat 8 (p / 256)) (setAcc (BitVec.ofNat 8 p) s)))))

/-- `DIV AB` with a divisor that is not 0 (R223). -/
def divide (s : State) : State :=
  setCy false (setOv false (setB (acc s % regB s) (setAcc (acc s / regB s) s)))

/-- `DIV AB` by 0: A and B are unconstrained draws, OV is 1 and CY is 0 (R223, D12, log 7). -/
def divideByZero (s : State) : State :=
  let q := draw s
  let r := draw q.1
  setCy false (setOv true (setB r.2 (setAcc q.2 r.1)))

/-- `DIV AB` (R223). -/
def execDivAB (s : State) : Result :=
  .next (charge 0x84 (if regB s = 0 then divideByZero s else divide s))

/-- `DA A` (R224). -/
def execDaA (s : State) : Result :=
  let r := decimalAdjust (acc s) (cy s) (ac s)
  .next (charge 0xD4 (setCy r.2 (setAcc r.1 s)))

end Sys2Proof.Machine
end

