-- ==== Sys2Proof/Machine/Boolean.lean ====
section
/-! DEFINITION. The meanings of the Boolean instructions (43_boolean.md rules R350 to R366). C is CY, accessed without a
hook; a bit operand goes through `bitRead` and `bitWrite`. -/

namespace Sys2Proof.Machine

/-- `CLR C` (R350). -/
def execClrC (s : State) : Result :=
  .next (charge 0xC3 (setCy false s))

/-- `CLR bit` (R351). -/
def execClrBit (b : Byte) (s : State) : Result :=
  .next (charge 0xC2 (bitWrite b false s))

/-- `SETB C` (R352). -/
def execSetbC (s : State) : Result :=
  .next (charge 0xD3 (setCy true s))

/-- `SETB bit` (R353). -/
def execSetbBit (b : Byte) (s : State) : Result :=
  .next (charge 0xD2 (bitWrite b true s))

/-- `CPL C` (R354). -/
def execCplC (s : State) : Result :=
  .next (charge 0xB3 (setCy (!cy s) s))

/-- `CPL bit` (R355). -/
def execCplBit (b : Byte) (s : State) : Result :=
  .next (charge 0xB2 (bitUpdate b (fun x => !x) s))

/-- `ANL C,bit` (R356). -/
def execAnlCBit (b : Byte) (s : State) : Result :=
  let v := bitRead b s
  .next (charge 0x82 (setCy (cy v.1 && v.2) v.1))

/-- `ANL C,/bit` (R357). -/
def execAnlCNotBit (b : Byte) (s : State) : Result :=
  let v := bitRead b s
  .next (charge 0xB0 (setCy (cy v.1 && !v.2) v.1))

/-- `ORL C,bit` (R358). -/
def execOrlCBit (b : Byte) (s : State) : Result :=
  let v := bitRead b s
  .next (charge 0x72 (setCy (cy v.1 || v.2) v.1))

/-- `ORL C,/bit` (R359). -/
def execOrlCNotBit (b : Byte) (s : State) : Result :=
  let v := bitRead b s
  .next (charge 0xA0 (setCy (cy v.1 || !v.2) v.1))

/-- `MOV C,bit` (R360). -/
def execMovCBit (b : Byte) (s : State) : Result :=
  let v := bitRead b s
  .next (charge 0xA2 (setCy v.2 v.1))

/-- `MOV bit,C` (R361). -/
def execMovBitC (b : Byte) (s : State) : Result :=
  .next (charge 0x92 (bitWrite b (cy s) s))

/-- `JC rel` (R362). -/
def execJc (rel : Int) (s : State) : Result :=
  .next (charge 0x40 (branchIf (cy s) rel s))

/-- `JNC rel` (R363). -/
def execJnc (rel : Int) (s : State) : Result :=
  .next (charge 0x50 (branchIf (!cy s) rel s))

/-- `JB bit,rel` (R364). -/
def execJb (b : Byte) (rel : Int) (s : State) : Result :=
  let v := bitRead b s
  .next (charge 0x20 (branchIf v.2 rel v.1))

/-- `JNB bit,rel` (R365). -/
def execJnb (b : Byte) (rel : Int) (s : State) : Result :=
  let v := bitRead b s
  .next (charge 0x30 (branchIf (!v.2) rel v.1))

/-- `JBC bit,rel` (R366): one read; when the bit is 0 nothing is written. -/
def execJbc (b : Byte) (rel : Int) (s : State) : Result :=
  let l := bitLoc b
  let t := dirRead l.1 s
  .next (charge 0x10 (if bitOf t.2 l.2 then
    setPc (relTarget rel t.1) (dirWrite l.1 (withBit t.2 l.2 false) t.1) else t.1))

end Sys2Proof.Machine
end

