-- ==== Sys2Proof/Machine/Branch.lean ====
section
/-! DEFINITION. The meanings of the program branching instructions (44_branching.md rules R400 to R417). pc already holds
next; a branch that is not taken leaves it. -/

namespace Sys2Proof.Machine

/-- `ACALL addr11` (R400): the page is that of next. -/
def execAcall (a : BitVec 11) (s : State) : Result :=
  .next (charge (a.extractLsb' 8 3 ++ 0b10001#5) (setPc (pageTarget a s).toNat (pushPc s)))

/-- `LCALL addr16` (R401). -/
def execLcall (a : Addr) (s : State) : Result :=
  .next (charge 0x12 (setPc a.toNat (pushPc s)))

/-- `RET` (R402). -/
def execRet (s : State) : Result :=
  .next (charge 0x22 (popPc s))

/-- `RETI` (R403): with no active handler it behaves as RET (D23); it sets `irq_recheck` (R524). -/
def execReti (s : State) : Result :=
  match s.irqStack with
  | l :: rest => .next { irqReturn l rest s with irqRecheck := true }
  | [] => .next { charge 0x32 (popPc s) with irqRecheck := true }

/-- `AJMP addr11` (R404). -/
def execAjmp (a : BitVec 11) (s : State) : Result :=
  .next (charge (a.extractLsb' 8 3 ++ 0b00001#5) (setPc (pageTarget a s).toNat s))

/-- `LJMP addr16` (R405). -/
def execLjmp (a : Addr) (s : State) : Result :=
  .next (charge 0x02 (setPc a.toNat s))

/-- `SJMP rel` (R406). -/
def execSjmp (rel : Int) (s : State) : Result :=
  .next (charge 0x80 (branchIf true rel s))

/-- `JMP @A+DPTR` (R407). -/
def execJmpADptr (s : State) : Result :=
  .next (charge 0x73 (setPc ((acc s).toNat + (dptr s).toNat) s))

/-- `JZ rel` (R408). -/
def execJz (rel : Int) (s : State) : Result :=
  .next (charge 0x60 (branchIf (acc s == 0x00) rel s))

/-- `JNZ rel` (R409). -/
def execJnz (rel : Int) (s : State) : Result :=
  .next (charge 0x70 (branchIf (acc s != 0x00) rel s))

/-- `CJNE A,direct,rel` (R410). -/
def execCjneADir (d : Byte) (rel : Int) (s : State) : Result :=
  let v := dirRead d s
  .next (charge 0xB5 (compareBranch (acc v.1) v.2 rel v.1))

/-- `CJNE A,#data,rel` (R411). -/
def execCjneAImm (imm : Byte) (rel : Int) (s : State) : Result :=
  .next (charge 0xB4 (compareBranch (acc s) imm rel s))

/-- `CJNE Rn,#data,rel` (R412). -/
def execCjneRnImm (n : BitVec 3) (imm : Byte) (rel : Int) (s : State) : Result :=
  .next (charge (0b10111#5 ++ n) (compareBranch (readReg n s) imm rel s))

/-- `CJNE @Ri,#data,rel` (R413). -/
def execCjneIndImm (i : BitVec 1) (imm : Byte) (rel : Int) (s : State) : Result :=
  .next (charge (0b1011011#7 ++ i) (compareBranch (indRead i s) imm rel s))

/-- `DJNZ Rn,rel` (R414). -/
def execDjnzRn (n : BitVec 3) (rel : Int) (s : State) : Result :=
  let v := readReg n s - 1
  .next (charge (0b11011#5 ++ n) (branchIf (v != 0x00) rel (writeReg n v s)))

/-- `DJNZ direct,rel` (R415). -/
def execDjnzDir (d : Byte) (rel : Int) (s : State) : Result :=
  let t := dirRead d s
  let v := t.2 - 1
  .next (charge 0xD5 (branchIf (v != 0x00) rel (dirWrite d v t.1)))

/-- `NOP` (R416): nothing but the cost. -/
def execNop (s : State) : Result :=
  .next (charge 0x00 (s))

/-- `reserved byte 0xA5` (R417): it reports the fault and has no other effect (D11). -/
def execReserved (s : State) : Result :=
  .next (charge 0xA5 (raise .illegalOpcode (.byte 0xA5) s))

end Sys2Proof.Machine
end

