-- ==== Sys2Proof/Machine/Logical.lean ====
section
/-! DEFINITION. The meanings of the logical instructions (41_logical.md rules R250 to R274). None writes CY, AC or OV, but
the rotations through the carry. -/

namespace Sys2Proof.Machine

/-- `ANL A,Rn` (R250). -/
def execAnlARn (n : BitVec 3) (s : State) : Result :=
  .next (charge (0b01011#5 ++ n) (setAcc (acc s &&& readReg n s) s))

/-- `ANL A,direct` (R251). -/
def execAnlADir (d : Byte) (s : State) : Result :=
  let v := dirRead d s
  .next (charge 0x55 (setAcc (acc v.1 &&& v.2) v.1))

/-- `ANL A,@Ri` (R252). -/
def execAnlAInd (i : BitVec 1) (s : State) : Result :=
  .next (charge (0b0101011#7 ++ i) (setAcc (acc s &&& indRead i s) s))

/-- `ANL A,#data` (R253). -/
def execAnlAImm (imm : Byte) (s : State) : Result :=
  .next (charge 0x54 (setAcc (acc s &&& imm) s))

/-- `ANL direct,A` (R254). -/
def execAnlDirA (d : Byte) (s : State) : Result :=
  let v := dirRead d s
  .next (charge 0x52 (dirWrite d (v.2 &&& acc v.1) v.1))

/-- `ANL direct,#data` (R255). -/
def execAnlDirImm (d : Byte) (imm : Byte) (s : State) : Result :=
  .next (charge 0x53 (dirUpdate d (fun v => v &&& imm) s))

/-- `ORL A,Rn` (R256). -/
def execOrlARn (n : BitVec 3) (s : State) : Result :=
  .next (charge (0b01001#5 ++ n) (setAcc (acc s ||| readReg n s) s))

/-- `ORL A,direct` (R257). -/
def execOrlADir (d : Byte) (s : State) : Result :=
  let v := dirRead d s
  .next (charge 0x45 (setAcc (acc v.1 ||| v.2) v.1))

/-- `ORL A,@Ri` (R258). -/
def execOrlAInd (i : BitVec 1) (s : State) : Result :=
  .next (charge (0b0100011#7 ++ i) (setAcc (acc s ||| indRead i s) s))

/-- `ORL A,#data` (R259). -/
def execOrlAImm (imm : Byte) (s : State) : Result :=
  .next (charge 0x44 (setAcc (acc s ||| imm) s))

/-- `ORL direct,A` (R260). -/
def execOrlDirA (d : Byte) (s : State) : Result :=
  let v := dirRead d s
  .next (charge 0x42 (dirWrite d (v.2 ||| acc v.1) v.1))

/-- `ORL direct,#data` (R261). -/
def execOrlDirImm (d : Byte) (imm : Byte) (s : State) : Result :=
  .next (charge 0x43 (dirUpdate d (fun v => v ||| imm) s))

/-- `XRL A,Rn` (R262). -/
def execXrlARn (n : BitVec 3) (s : State) : Result :=
  .next (charge (0b01101#5 ++ n) (setAcc (acc s ^^^ readReg n s) s))

/-- `XRL A,direct` (R263). -/
def execXrlADir (d : Byte) (s : State) : Result :=
  let v := dirRead d s
  .next (charge 0x65 (setAcc (acc v.1 ^^^ v.2) v.1))

/-- `XRL A,@Ri` (R264). -/
def execXrlAInd (i : BitVec 1) (s : State) : Result :=
  .next (charge (0b0110011#7 ++ i) (setAcc (acc s ^^^ indRead i s) s))

/-- `XRL A,#data` (R265). -/
def execXrlAImm (imm : Byte) (s : State) : Result :=
  .next (charge 0x64 (setAcc (acc s ^^^ imm) s))

/-- `XRL direct,A` (R266). -/
def execXrlDirA (d : Byte) (s : State) : Result :=
  let v := dirRead d s
  .next (charge 0x62 (dirWrite d (v.2 ^^^ acc v.1) v.1))

/-- `XRL direct,#data` (R267). -/
def execXrlDirImm (d : Byte) (imm : Byte) (s : State) : Result :=
  .next (charge 0x63 (dirUpdate d (fun v => v ^^^ imm) s))

/-- `CLR A` (R268). -/
def execClrA (s : State) : Result :=
  .next (charge 0xE4 (setAcc 0x00 s))

/-- `CPL A` (R269). -/
def execCplA (s : State) : Result :=
  .next (charge 0xF4 (setAcc (acc s ^^^ 0xFF) s))

/-- `RL A` (R270). -/
def execRlA (s : State) : Result :=
  .next (charge 0x23 (setAcc (rotl (acc s)) s))

/-- `RLC A` (R271). -/
def execRlcA (s : State) : Result :=
  let r := rotlc (acc s) (cy s)
  .next (charge 0x33 (setCy r.2 (setAcc r.1 s)))

/-- `RR A` (R272). -/
def execRrA (s : State) : Result :=
  .next (charge 0x03 (setAcc (rotr (acc s)) s))

/-- `RRC A` (R273). -/
def execRrcA (s : State) : Result :=
  let r := rotrc (acc s) (cy s)
  .next (charge 0x13 (setCy r.2 (setAcc r.1 s)))

/-- `SWAP A` (R274). -/
def execSwapA (s : State) : Result :=
  .next (charge 0xC4 (setAcc (swapNibbles (acc s)) s))

end Sys2Proof.Machine
end

