-- ==== Sys2Proof/Machine/Transfer.lean ====
section
/-! DEFINITION. The meanings of the data transfer instructions (42_data_transfer.md rules R300 to R329). -/

namespace Sys2Proof.Machine

/-- `MOV A,Rn` (R300). -/
def execMovARn (n : BitVec 3) (s : State) : Result :=
  .next (charge (0b11101#5 ++ n) (setAcc (readReg n s) s))

/-- `MOV A,direct` (R301): the self-move `MOV A,ACC` faults and leaves A unchanged. -/
def execMovADir (d : Byte) (s : State) : Result :=
  if d = 0xE0 then .next (charge 0xE5 (raise .accToA (.byte 0xE0) s))
  else
    let v := dirRead d s
    .next (charge 0xE5 (setAcc v.2 v.1))

/-- `MOV A,@Ri` (R302). -/
def execMovAInd (i : BitVec 1) (s : State) : Result :=
  .next (charge (0b1110011#7 ++ i) (setAcc (indRead i s) s))

/-- `MOV A,#data` (R303). -/
def execMovAImm (imm : Byte) (s : State) : Result :=
  .next (charge 0x74 (setAcc imm s))

/-- `MOV Rn,A` (R304). -/
def execMovRnA (n : BitVec 3) (s : State) : Result :=
  .next (charge (0b11111#5 ++ n) (writeReg n (acc s) s))

/-- `MOV Rn,direct` (R305). DEDUCED: the bank is taken after the operand's read hook (log 19). -/
def execMovRnDir (n : BitVec 3) (d : Byte) (s : State) : Result :=
  let v := dirRead d s
  .next (charge (0b10101#5 ++ n) (writeReg n v.2 v.1))

/-- `MOV Rn,#data` (R306). -/
def execMovRnImm (n : BitVec 3) (imm : Byte) (s : State) : Result :=
  .next (charge (0b01111#5 ++ n) (writeReg n imm s))

/-- `MOV direct,A` (R307). -/
def execMovDirA (d : Byte) (s : State) : Result :=
  .next (charge 0xF5 (dirWrite d (acc s) s))

/-- `MOV direct,Rn` (R308). -/
def execMovDirRn (n : BitVec 3) (d : Byte) (s : State) : Result :=
  .next (charge (0b10001#5 ++ n) (dirWrite d (readReg n s) s))

/-- `MOV direct,direct` (R309). -/
def execMovDirDir (src : Byte) (dst : Byte) (s : State) : Result :=
  let v := dirRead src s
  .next (charge 0x85 (dirWrite dst v.2 v.1))

/-- `MOV direct,@Ri` (R310). -/
def execMovDirInd (i : BitVec 1) (d : Byte) (s : State) : Result :=
  .next (charge (0b1000011#7 ++ i) (dirWrite d (indRead i s) s))

/-- `MOV direct,#data` (R311). -/
def execMovDirImm (d : Byte) (imm : Byte) (s : State) : Result :=
  .next (charge 0x75 (dirWrite d imm s))

/-- `MOV @Ri,A` (R312). -/
def execMovIndA (i : BitVec 1) (s : State) : Result :=
  .next (charge (0b1111011#7 ++ i) (indWrite i (acc s) s))

/-- `MOV @Ri,direct` (R313). DEDUCED: the bank and `x[i]` are taken after the operand's read hook (log 19). -/
def execMovIndDir (i : BitVec 1) (d : Byte) (s : State) : Result :=
  let v := dirRead d s
  .next (charge (0b1010011#7 ++ i) (indWrite i v.2 v.1))

/-- `MOV @Ri,#data` (R314). -/
def execMovIndImm (i : BitVec 1) (imm : Byte) (s : State) : Result :=
  .next (charge (0b0111011#7 ++ i) (indWrite i imm s))

/-- `MOV DPTR,#data16` (R315): to the active data pointer. -/
def execMovDptrImm (w : Addr) (s : State) : Result :=
  .next (charge 0x90 (setDptr w s))

/-- `MOVC A,@A+DPTR` (R318). -/
def execMovcADptr (s : State) : Result :=
  .next (charge 0x93 (setAcc (codeRead ((dptr s).toNat + (acc s).toNat) s) s))

/-- `MOVC A,@A+PC` (R319): pc is already next. -/
def execMovcAPc (s : State) : Result :=
  .next (charge 0x83 (setAcc (codeRead (s.pc.toNat + (acc s).toNat) s) s))

/-- `MOVX A,@Ri` (R320). -/
def execMovxAInd (i : BitVec 1) (s : State) : Result :=
  let v := xdataRead (xaddrInd i s) s
  .next (charge (0b1110001#7 ++ i) (setAcc v.2 v.1))

/-- `MOVX A,@DPTR` (R321). -/
def execMovxADptr (s : State) : Result :=
  let v := xdataRead (dptr s) s
  .next (charge 0xE0 (setAcc v.2 v.1))

/-- `MOVX @Ri,A` (R322). -/
def execMovxIndA (i : BitVec 1) (s : State) : Result :=
  .next (charge (0b1111001#7 ++ i) (xdataWrite (xaddrInd i s) (acc s) s))

/-- `MOVX @DPTR,A` (R323). -/
def execMovxDptrA (s : State) : Result :=
  .next (charge 0xF0 (xdataWrite (dptr s) (acc s) s))

/-- `PUSH direct` (R324): the operand is read before SP is incremented (D13). -/
def execPush (d : Byte) (s : State) : Result :=
  let v := dirRead d s
  .next (charge 0xC0 (Sys2Proof.Machine.push v.2 v.1))

/-- `POP direct` (R325): SP is decremented before the destination is written (D13). -/
def execPop (d : Byte) (s : State) : Result :=
  let v := Sys2Proof.Machine.pop s
  .next (charge 0xD0 (dirWrite d v.2 v.1))

/-- `XCH A,Rn` (R326). -/
def execXchARn (n : BitVec 3) (s : State) : Result :=
  .next (charge (0b11001#5 ++ n) (setAcc (readReg n s) (writeReg n (acc s) s)))

/-- `XCH A,direct` (R327). -/
def execXchADir (d : Byte) (s : State) : Result :=
  let v := dirRead d s
  .next (charge 0xC5 (setAcc v.2 (dirWrite d (acc v.1) v.1)))

/-- `XCH A,@Ri` (R328). -/
def execXchAInd (i : BitVec 1) (s : State) : Result :=
  .next (charge (0b1100011#7 ++ i) (setAcc (indRead i s) (indWrite i (acc s) s)))

/-- `XCHD A,@Ri` (R329). -/
def execXchdAInd (i : BitVec 1) (s : State) : Result :=
  let t := indRead i s
  .next (charge (0b1101011#7 ++ i) (setAcc (nibbles (acc s) t) (indWrite i (nibbles t (acc s)) s)))

end Sys2Proof.Machine
end

