-- ==== Sys2Proof/Machine/Dispatch.lean ====
section
/-! DEFINITION. The dispatch: one arm per instruction, each a call of its meaning. -/

namespace Sys2Proof.Machine

def exec (i : Instr) (s : State) : Host.Outcome State Fault Refusal :=
  match i with
  | .addARn n => Sys2Proof.Machine.execAddARn n s
  | .addADir d => Sys2Proof.Machine.execAddADir d s
  | .addAInd ri => Sys2Proof.Machine.execAddAInd ri s
  | .addAImm imm => Sys2Proof.Machine.execAddAImm imm s
  | .addcARn n => Sys2Proof.Machine.execAddcARn n s
  | .addcADir d => Sys2Proof.Machine.execAddcADir d s
  | .addcAInd ri => Sys2Proof.Machine.execAddcAInd ri s
  | .addcAImm imm => Sys2Proof.Machine.execAddcAImm imm s
  | .subbARn n => Sys2Proof.Machine.execSubbARn n s
  | .subbADir d => Sys2Proof.Machine.execSubbADir d s
  | .subbAInd ri => Sys2Proof.Machine.execSubbAInd ri s
  | .subbAImm imm => Sys2Proof.Machine.execSubbAImm imm s
  | .incA => Sys2Proof.Machine.execIncA s
  | .incRn n => Sys2Proof.Machine.execIncRn n s
  | .incDir d => Sys2Proof.Machine.execIncDir d s
  | .incInd ri => Sys2Proof.Machine.execIncInd ri s
  | .incDptr => Sys2Proof.Machine.execIncDptr s
  | .decA => Sys2Proof.Machine.execDecA s
  | .decRn n => Sys2Proof.Machine.execDecRn n s
  | .decDir d => Sys2Proof.Machine.execDecDir d s
  | .decInd ri => Sys2Proof.Machine.execDecInd ri s
  | .mulAB => Sys2Proof.Machine.execMulAB s
  | .divAB => Sys2Proof.Machine.execDivAB s
  | .daA => Sys2Proof.Machine.execDaA s
  | .anlARn n => Sys2Proof.Machine.execAnlARn n s
  | .anlADir d => Sys2Proof.Machine.execAnlADir d s
  | .anlAInd ri => Sys2Proof.Machine.execAnlAInd ri s
  | .anlAImm imm => Sys2Proof.Machine.execAnlAImm imm s
  | .anlDirA d => Sys2Proof.Machine.execAnlDirA d s
  | .anlDirImm d imm => Sys2Proof.Machine.execAnlDirImm d imm s
  | .orlARn n => Sys2Proof.Machine.execOrlARn n s
  | .orlADir d => Sys2Proof.Machine.execOrlADir d s
  | .orlAInd ri => Sys2Proof.Machine.execOrlAInd ri s
  | .orlAImm imm => Sys2Proof.Machine.execOrlAImm imm s
  | .orlDirA d => Sys2Proof.Machine.execOrlDirA d s
  | .orlDirImm d imm => Sys2Proof.Machine.execOrlDirImm d imm s
  | .xrlARn n => Sys2Proof.Machine.execXrlARn n s
  | .xrlADir d => Sys2Proof.Machine.execXrlADir d s
  | .xrlAInd ri => Sys2Proof.Machine.execXrlAInd ri s
  | .xrlAImm imm => Sys2Proof.Machine.execXrlAImm imm s
  | .xrlDirA d => Sys2Proof.Machine.execXrlDirA d s
  | .xrlDirImm d imm => Sys2Proof.Machine.execXrlDirImm d imm s
  | .clrA => Sys2Proof.Machine.execClrA s
  | .cplA => Sys2Proof.Machine.execCplA s
  | .rlA => Sys2Proof.Machine.execRlA s
  | .rlcA => Sys2Proof.Machine.execRlcA s
  | .rrA => Sys2Proof.Machine.execRrA s
  | .rrcA => Sys2Proof.Machine.execRrcA s
  | .swapA => Sys2Proof.Machine.execSwapA s
  | .movARn n => Sys2Proof.Machine.execMovARn n s
  | .movADir d => Sys2Proof.Machine.execMovADir d s
  | .movAInd ri => Sys2Proof.Machine.execMovAInd ri s
  | .movAImm imm => Sys2Proof.Machine.execMovAImm imm s
  | .movRnA n => Sys2Proof.Machine.execMovRnA n s
  | .movRnDir n d => Sys2Proof.Machine.execMovRnDir n d s
  | .movRnImm n imm => Sys2Proof.Machine.execMovRnImm n imm s
  | .movDirA d => Sys2Proof.Machine.execMovDirA d s
  | .movDirRn n d => Sys2Proof.Machine.execMovDirRn n d s
  | .movDirDir src dst => Sys2Proof.Machine.execMovDirDir src dst s
  | .movDirInd ri d => Sys2Proof.Machine.execMovDirInd ri d s
  | .movDirImm d imm => Sys2Proof.Machine.execMovDirImm d imm s
  | .movIndA ri => Sys2Proof.Machine.execMovIndA ri s
  | .movIndDir ri d => Sys2Proof.Machine.execMovIndDir ri d s
  | .movIndImm ri imm => Sys2Proof.Machine.execMovIndImm ri imm s
  | .movDptrImm w => Sys2Proof.Machine.execMovDptrImm w s
  | .movcADptr => Sys2Proof.Machine.execMovcADptr s
  | .movcAPc => Sys2Proof.Machine.execMovcAPc s
  | .movxAInd ri => Sys2Proof.Machine.execMovxAInd ri s
  | .movxADptr => Sys2Proof.Machine.execMovxADptr s
  | .movxIndA ri => Sys2Proof.Machine.execMovxIndA ri s
  | .movxDptrA => Sys2Proof.Machine.execMovxDptrA s
  | .push d => Sys2Proof.Machine.execPush d s
  | .pop d => Sys2Proof.Machine.execPop d s
  | .xchARn n => Sys2Proof.Machine.execXchARn n s
  | .xchADir d => Sys2Proof.Machine.execXchADir d s
  | .xchAInd ri => Sys2Proof.Machine.execXchAInd ri s
  | .xchdAInd ri => Sys2Proof.Machine.execXchdAInd ri s
  | .clrC => Sys2Proof.Machine.execClrC s
  | .clrBit b => Sys2Proof.Machine.execClrBit b s
  | .setbC => Sys2Proof.Machine.execSetbC s
  | .setbBit b => Sys2Proof.Machine.execSetbBit b s
  | .cplC => Sys2Proof.Machine.execCplC s
  | .cplBit b => Sys2Proof.Machine.execCplBit b s
  | .anlCBit b => Sys2Proof.Machine.execAnlCBit b s
  | .anlCNotBit b => Sys2Proof.Machine.execAnlCNotBit b s
  | .orlCBit b => Sys2Proof.Machine.execOrlCBit b s
  | .orlCNotBit b => Sys2Proof.Machine.execOrlCNotBit b s
  | .movCBit b => Sys2Proof.Machine.execMovCBit b s
  | .movBitC b => Sys2Proof.Machine.execMovBitC b s
  | .jc rel => Sys2Proof.Machine.execJc rel s
  | .jnc rel => Sys2Proof.Machine.execJnc rel s
  | .jb b rel => Sys2Proof.Machine.execJb b rel s
  | .jnb b rel => Sys2Proof.Machine.execJnb b rel s
  | .jbc b rel => Sys2Proof.Machine.execJbc b rel s
  | .acall a => Sys2Proof.Machine.execAcall a s
  | .lcall a => Sys2Proof.Machine.execLcall a s
  | .ret => Sys2Proof.Machine.execRet s
  | .reti => Sys2Proof.Machine.execReti s
  | .ajmp a => Sys2Proof.Machine.execAjmp a s
  | .ljmp a => Sys2Proof.Machine.execLjmp a s
  | .sjmp rel => Sys2Proof.Machine.execSjmp rel s
  | .jmpADptr => Sys2Proof.Machine.execJmpADptr s
  | .jz rel => Sys2Proof.Machine.execJz rel s
  | .jnz rel => Sys2Proof.Machine.execJnz rel s
  | .cjneADir d rel => Sys2Proof.Machine.execCjneADir d rel s
  | .cjneAImm imm rel => Sys2Proof.Machine.execCjneAImm imm rel s
  | .cjneRnImm n imm rel => Sys2Proof.Machine.execCjneRnImm n imm rel s
  | .cjneIndImm ri imm rel => Sys2Proof.Machine.execCjneIndImm ri imm rel s
  | .djnzRn n rel => Sys2Proof.Machine.execDjnzRn n rel s
  | .djnzDir d rel => Sys2Proof.Machine.execDjnzDir d rel s
  | .nop => Sys2Proof.Machine.execNop s
  | .reserved => Sys2Proof.Machine.execReserved s

end Sys2Proof.Machine
end

