-- ==== Sys2Proof/Machine/Interrupts.lean ====
section
/-! DEFINITION. Interrupt arbitration (60_exceptions.md rules R520, R521, R531). Dispatch itself is in
Machine/Ops.lean. -/

namespace Sys2Proof.Machine

/-- The value of an IRQ_TABLE predicate (R531). A bit of a peripheral that is not there is false. -/
def evalCond (s : State) : Cond → Bool
  | .const b => b
  | .sfrBit d b => bitOf (sfrGet d s) b
  | .deviceBit k n b =>
    match s.peripherals[k]? with
    | none => false
    | some p => bitOf (p.bytes.getD n 0) b
  | .not c => !evalCond s c
  | .both c d => evalCond s c && evalCond s d
  | .either c d => evalCond s c || evalCond s d

/-- `s.priority(state)` (R531). -/
def sourcePriority (s : State) (x : IrqSource) : BitVec 2 :=
  BitVec.ofBool (evalCond s x.priorityHigh) ++ BitVec.ofBool (evalCond s x.priorityLow)

/-- One turn of the scan: a strictly higher priority replaces the best so far, so the earliest entry wins a tie
(R520, D20). -/
def scanSource (s : State) (best : Option (IrqSource × BitVec 2)) (x : IrqSource) : Option (IrqSource × BitVec 2) :=
  if evalCond s x.enabled && evalCond s x.pending then
    match best with
    | none => some (x, sourcePriority s x)
    | some b => if b.2 < sourcePriority s x then some (x, sourcePriority s x) else best
  else best

/-- The best enabled and pending source of the table with its priority (R520). -/
def bestSource (s : State) : Option (IrqSource × BitVec 2) := s.cfg.irqTable.foldl (scanSource s) none

/-- A source of priority `p` may preempt: no handler is active, or the innermost one has a strictly lower priority
(R521). -/
def mayPreempt (p : BitVec 2) (s : State) : Bool :=
  match s.irqStack with
  | [] => true
  | l :: _ => decide (l.priority < p)

/-- The source that arbitration dispatches in state `s`, if any (R520). -/
def irqChoice (s : State) : Option (IrqSource × BitVec 2) :=
  if irqEnabled s then
    match bestSource s with
    | none => none
    | some b => if mayPreempt b.2 s && decide (s.irqStack.length < 4) then some b else none
  else none

/-- `Arbitrate()` (R520): dispatch the chosen source, or clear `irq_recheck` (R524). -/
def arbitrate (s : State) : State :=
  match irqChoice s with
  | some b => dispatch b.1 b.2 s
  | none => { s with irqRecheck := false }

end Sys2Proof.Machine
end

