-- ==== Sys2Proof/Machine/Cycle.lean ====
section
/-! DEFINITION. One cycle of a unit (60_exceptions.md rule R501): the rendezvous check, arbitration, the fetch and
execution of an instruction, the hardware tick, the clock, and the fault policy. -/

namespace Sys2Proof.Machine

/-! ### Fetch (60_exceptions.md rule R505) -/

/-- The opcode byte at pc. -/
def fetchOp (s : State) : Byte := codeRead s.pc.toNat s

/-- The operand byte `k` after pc, read only when the instruction is long enough (R505). -/
def fetchOperand (k : Nat) (s : State) : Byte :=
  if k < lenOf (fetchOp s) then codeRead (s.pc.toNat + k) s else 0x00

/-- The instruction at pc (R505). -/
def fetchInstr (s : State) : Instr := decodeOp (fetchOp s) (fetchOperand 1 s) (fetchOperand 2 s)

/-- `previous_pc <- a; pc <- (a + LEN(op)) mod CODE_SIZE` (R505). -/
def advancePc (s : State) : State :=
  setPc (s.pc.toNat + lenOf (fetchOp s)) { s with previousPc := s.pc }

/-! ### The end of a cycle -/

/-- Step (5) of R501: halt when a fault raised since the log had `n` entries has CONTINUE false (R513). -/
def faultPolicy (n : Nat) (s : State) : State :=
  if (s.faults.drop n).any fun f => !s.cfg.continues f.kind then { s with halted := true } else s

/-- The rest of a cycle after step (3) (R501): the decrement, the hardware tick, the clock, the fault policy. -/
def finishCycle (n : Nat) (s : State) : State :=
  let t := hardwareTick { s with tickDelay := s.tickDelay - 1 }
  faultPolicy n { t with ticks := t.ticks + 1 }

/-- `Step()` (R505), then the rest of the cycle: fetch, advance, execute, epilogue. `n` is the length of the fault log
at the start of the cycle. -/
def executeInstr (n : Nat) (s : State) : Result :=
  match exec (fetchInstr s) (advancePc s) with
  | .next t => .next (finishCycle n (epilogue t))
  | .fault r => .fault r
  | .refused r => .refused r

/-- Step (2) of R501. -/
def interruptCheck (s : State) : State := if s.irqRecheck then arbitrate s else s

/-- The BREAKPOINT record of R504. -/
def reportBreakpoint (s : State) : State := raiseAt s.pc .breakpoint .none s

/-- Step (3) of R501 in a cycle that fetches: the breakpoint check (R504), then the instruction. -/
def fetchStage (n : Nat) (s : State) : Result :=
  if s.cfg.breakpoints.contains s.pc then
    if s.cfg.continues .breakpoint then executeInstr n (reportBreakpoint s)
    else .next { reportBreakpoint s with halted := true }
  else executeInstr n s

/-- Steps (3) to (5) of R501: an instruction is fetched exactly when `tick_delay ≤ 0` (R502). -/
def afterInterrupts (n : Nat) (s : State) : Result :=
  if s.tickDelay ≤ 0 then fetchStage n s else .next (finishCycle n s)

/-- Steps (2) to (5) of R501. -/
def cycleBody (s : State) : Result := afterInterrupts s.faults.length (interruptCheck s)

/-! ### The rendezvous check (60_exceptions.md rule R571) -/

/-- The unit's position against its synchronizer: it may run the cycle from the given state, or it waits in it. -/
inductive SyncResult where
  | run (s : State)
  | wait (s : State)
  deriving DecidableEq, Repr

/-- `SyncCheck()` (R571). A unit inside the wait goes on once `waiting` is false, whatever the deadline is. -/
def syncCheck (s : State) : SyncResult :=
  match s.sync with
  | none => .run s
  | some y =>
    if y.blocked then
      if y.waiting then .wait s else .run { s with sync := some { y with blocked := false } }
    else if y.deadline ≤ s.ticks then .wait { s with sync := some { y with waiting := true, blocked := true } }
    else .run s

/-- The unit is inside the wait of SyncCheck, so inside a cycle it has begun (R571). -/
def inWait (s : State) : Bool := (s.sync.map (·.blocked)).getD false

/-- The unit takes no further cycle: it is halted (R513), or it reads its run flag clear before a cycle (R508). A unit
inside the wait has begun its cycle: it does not read the flag and goes on or stays stuck (R571, R582). -/
def runEnded (s : State) : Bool := s.halted || (!s.runFlag && !inWait s)

/-- The clock value at which no cycle may run: it would bring the clock to 2^64 - 1 (R548, log 15). -/
def clockEnd : Tick := Tick.inf - 1

/-- One cycle of a unit (R501): none when its run has ended (R582), and none past the end of the clock (R548). A unit that
waits takes no step: its state stays (log 14). -/
def unitStep (s : State) : Result :=
  if runEnded s then .fault (if s.halted then .unitHalted else .runFlagClear)
  else
    match syncCheck s with
    | .wait t => .next t
    | .run t => if t.ticks ≥ clockEnd then .refused .clockLimit else cycleBody t

/-! ### A word to fetch -/

/-- Store three bytes at pc, pc + 1, pc + 2, each address reduced modulo CODE_SIZE. -/
def placeBytes (bytes : List Byte) (s : State) : State :=
  { s with
    code := (List.range bytes.length).foldl
      (fun m k => Memory.write codeErased m ((s.pc.toNat + k) % s.cfg.codeSize) (bytes.getD k 0)) s.code }

/-- A unit about to fetch: running, released from its synchronizer, no window open, nothing in flight, nothing to arbitrate, and no
breakpoint at pc. At reset it changes nothing. -/
def readyToFetch (s : State) : State :=
  { s with
    cfg := { s.cfg with breakpoints := s.cfg.breakpoints.filter fun a => a != s.pc }
    tickDelay := 0
    irqRecheck := false
    halted := false
    runFlag := true
    sync := s.sync.map fun y => { y with waiting := false, blocked := true, inWindow := false } }

end Sys2Proof.Machine
end

