-- ==== Sys2Proof/Machine/Step.lean ====
section
/-! DEFINITION. The machine's one step, and the placing of an instruction where it fetches. -/

namespace Sys2Proof.Machine

/-- One step of the machine: one cycle of the unit (60_exceptions.md rule R501). -/
def step (s : State) : Host.Outcome State Fault Refusal := unitStep s

/-- `s` with the instruction whose bits are `w` (bits from `nbits` up zero) stored at pc, made ready so that the next
step fetches it (log 11). -/
def State.withFetchWord (s : State) (nbits w : Nat) : State :=
  readyToFetch (placeBytes (tableBytes nbits w) s)

end Sys2Proof.Machine
end

