-- ==== Sys2Proof/Machine/Assembler.lean ====
section
/-! DEFINITION. Assembler notation (30_encoding.md rules R130, R131): the text of an instruction, and the generic JMP and
CALL, which an assembler turns into an instruction by the target's reach. No step depends on this file. -/

namespace Sys2Proof

/-- A hexadecimal digit as a character. -/
def hexChar (n : Nat) : Char := if n < 10 then Char.ofNat (48 + n) else Char.ofNat (55 + n)

/-- A byte as a hexadecimal expression: a leading 0, two digits, the suffix h. -/
def byteText (b : Byte) : String := String.ofList ['0', hexChar (b.toNat / 16), hexChar (b.toNat % 16), 'h']

/-- A 16-bit value as a hexadecimal expression. -/
def wordText (w : Addr) : String :=
  String.ofList ['0', hexChar (w.toNat / 4096), hexChar (w.toNat / 256 % 16), hexChar (w.toNat / 16 % 16),
    hexChar (w.toNat % 16), 'h']

/-- `Rn`. -/
def regText (n : BitVec 3) : String := "R" ++ toString n.toNat

/-- `@Ri`. -/
def indText (i : BitVec 1) : String := "@R" ++ toString i.toNat

/-- An immediate, `#expr`. -/
def immText (b : Byte) : String := "#" ++ byteText b

/-- The target of a relative branch of length `len`, from `$`, the address of the current instruction. -/
def relText (len : Nat) (rel : Int) : String :=
  let k := rel + len
  if k = 0 then "$" else if 0 < k then "$+" ++ toString k else "$" ++ toString k

/-- The text of an instruction: mnemonic, then the operands, destination first (R130). The target of ACALL and AJMP is
shown as its eleven bits. -/
def asmText : Instr → String
  | .addARn n => "ADD A," ++ regText n
  | .addADir d => "ADD A," ++ byteText d
  | .addAInd i => "ADD A," ++ indText i
  | .addAImm imm => "ADD A," ++ immText imm
  | .addcARn n => "ADDC A," ++ regText n
  | .addcADir d => "ADDC A," ++ byteText d
  | .addcAInd i => "ADDC A," ++ indText i
  | .addcAImm imm => "ADDC A," ++ immText imm
  | .subbARn n => "SUBB A," ++ regText n
  | .subbADir d => "SUBB A," ++ byteText d
  | .subbAInd i => "SUBB A," ++ indText i
  | .subbAImm imm => "SUBB A," ++ immText imm
  | .incA => "INC A"
  | .incRn n => "INC " ++ regText n
  | .incDir d => "INC " ++ byteText d
  | .incInd i => "INC " ++ indText i
  | .incDptr => "INC DPTR"
  | .decA => "DEC A"
  | .decRn n => "DEC " ++ regText n
  | .decDir d => "DEC " ++ byteText d
  | .decInd i => "DEC " ++ indText i
  | .mulAB => "MUL AB"
  | .divAB => "DIV AB"
  | .daA => "DA A"
  | .anlARn n => "ANL A," ++ regText n
  | .anlADir d => "ANL A," ++ byteText d
  | .anlAInd i => "ANL A," ++ indText i
  | .anlAImm imm => "ANL A," ++ immText imm
  | .anlDirA d => "ANL " ++ byteText d ++ ",A"
  | .anlDirImm d imm => "ANL " ++ byteText d ++ "," ++ immText imm
  | .orlARn n => "ORL A," ++ regText n
  | .orlADir d => "ORL A," ++ byteText d
  | .orlAInd i => "ORL A," ++ indText i
  | .orlAImm imm => "ORL A," ++ immText imm
  | .orlDirA d => "ORL " ++ byteText d ++ ",A"
  | .orlDirImm d imm => "ORL " ++ byteText d ++ "," ++ immText imm
  | .xrlARn n => "XRL A," ++ regText n
  | .xrlADir d => "XRL A," ++ byteText d
  | .xrlAInd i => "XRL A," ++ indText i
  | .xrlAImm imm => "XRL A," ++ immText imm
  | .xrlDirA d => "XRL " ++ byteText d ++ ",A"
  | .xrlDirImm d imm => "XRL " ++ byteText d ++ "," ++ immText imm
  | .clrA => "CLR A"
  | .cplA => "CPL A"
  | .rlA => "RL A"
  | .rlcA => "RLC A"
  | .rrA => "RR A"
  | .rrcA => "RRC A"
  | .swapA => "SWAP A"
  | .movARn n => "MOV A," ++ regText n
  | .movADir d => "MOV A," ++ byteText d
  | .movAInd i => "MOV A," ++ indText i
  | .movAImm imm => "MOV A," ++ immText imm
  | .movRnA n => "MOV " ++ regText n ++ ",A"
  | .movRnDir n d => "MOV " ++ regText n ++ "," ++ byteText d
  | .movRnImm n imm => "MOV " ++ regText n ++ "," ++ immText imm
  | .movDirA d => "MOV " ++ byteText d ++ ",A"
  | .movDirRn n d => "MOV " ++ byteText d ++ "," ++ regText n
  | .movDirDir src dst => "MOV " ++ byteText dst ++ "," ++ byteText src
  | .movDirInd i d => "MOV " ++ byteText d ++ "," ++ indText i
  | .movDirImm d imm => "MOV " ++ byteText d ++ "," ++ immText imm
  | .movIndA i => "MOV " ++ indText i ++ ",A"
  | .movIndDir i d => "MOV " ++ indText i ++ "," ++ byteText d
  | .movIndImm i imm => "MOV " ++ indText i ++ "," ++ immText imm
  | .movDptrImm w => "MOV DPTR,#" ++ wordText w
  | .movcADptr => "MOVC A,@A+DPTR"
  | .movcAPc => "MOVC A,@A+PC"
  | .movxAInd i => "MOVX A," ++ indText i
  | .movxADptr => "MOVX A,@DPTR"
  | .movxIndA i => "MOVX " ++ indText i ++ ",A"
  | .movxDptrA => "MOVX @DPTR,A"
  | .push d => "PUSH " ++ byteText d
  | .pop d => "POP " ++ byteText d
  | .xchARn n => "XCH A," ++ regText n
  | .xchADir d => "XCH A," ++ byteText d
  | .xchAInd i => "XCH A," ++ indText i
  | .xchdAInd i => "XCHD A," ++ indText i
  | .clrC => "CLR C"
  | .clrBit b => "CLR " ++ byteText b
  | .setbC => "SETB C"
  | .setbBit b => "SETB " ++ byteText b
  | .cplC => "CPL C"
  | .cplBit b => "CPL " ++ byteText b
  | .anlCBit b => "ANL C," ++ byteText b
  | .anlCNotBit b => "ANL C,/" ++ byteText b
  | .orlCBit b => "ORL C," ++ byteText b
  | .orlCNotBit b => "ORL C,/" ++ byteText b
  | .movCBit b => "MOV C," ++ byteText b
  | .movBitC b => "MOV " ++ byteText b ++ ",C"
  | .jc rel => "JC " ++ relText 2 rel
  | .jnc rel => "JNC " ++ relText 2 rel
  | .jb b rel => "JB " ++ byteText b ++ "," ++ relText 3 rel
  | .jnb b rel => "JNB " ++ byteText b ++ "," ++ relText 3 rel
  | .jbc b rel => "JBC " ++ byteText b ++ "," ++ relText 3 rel
  | .acall a => "ACALL " ++ wordText (a.zeroExtend 16)
  | .lcall a => "LCALL " ++ wordText a
  | .ret => "RET"
  | .reti => "RETI"
  | .ajmp a => "AJMP " ++ wordText (a.zeroExtend 16)
  | .ljmp a => "LJMP " ++ wordText a
  | .sjmp rel => "SJMP " ++ relText 2 rel
  | .jmpADptr => "JMP @A+DPTR"
  | .jz rel => "JZ " ++ relText 2 rel
  | .jnz rel => "JNZ " ++ relText 2 rel
  | .cjneADir d rel => "CJNE A," ++ byteText d ++ "," ++ relText 3 rel
  | .cjneAImm imm rel => "CJNE A," ++ immText imm ++ "," ++ relText 3 rel
  | .cjneRnImm n imm rel => "CJNE " ++ regText n ++ "," ++ immText imm ++ "," ++ relText 3 rel
  | .cjneIndImm i imm rel => "CJNE " ++ indText i ++ "," ++ immText imm ++ "," ++ relText 3 rel
  | .djnzRn n rel => "DJNZ " ++ regText n ++ "," ++ relText 2 rel
  | .djnzDir d rel => "DJNZ " ++ byteText d ++ "," ++ relText 3 rel
  | .nop => "NOP"
  | .reserved => "DB " ++ byteText 0xA5

/-- The generic `JMP target` at code address `at` (R131): SJMP, AJMP or LJMP by the target's reach, the shortest that
reaches, SJMP before AJMP (DESIGN CHOICE, log 23). -/
def genericJump (at_ target : Addr) : Instr :=
  let next := at_ + 2
  let rel := (target.toNat : Int) - next.toNat
  if relFits rel then .sjmp rel
  else if next.extractLsb' 11 5 = target.extractLsb' 11 5 then .ajmp (target.extractLsb' 0 11)
  else .ljmp target

/-- The generic `CALL target` at code address `at` (R131): ACALL where the target lies in the page of the next
instruction, else LCALL (log 23). -/
def genericCall (at_ target : Addr) : Instr :=
  let next := at_ + 2
  if next.extractLsb' 11 5 = target.extractLsb' 11 5 then .acall (target.extractLsb' 0 11) else .lcall target

end Sys2Proof
end

