-- ==== Sys2Proof/Machine/Loader.lean ====
section
/-! DEFINITION. The Intel HEX program image loader (70_reset_and_hazards.md rules R710, R711), the persisted flash image
(R713), and the launch of a run (R701). -/

namespace Sys2Proof.Machine

/-- A hexadecimal digit, either case (R710). -/
def hexDigit (c : Char) : Option Nat :=
  if '0' ≤ c ∧ c ≤ '9' then some (c.toNat - 48)
  else if 'A' ≤ c ∧ c ≤ 'F' then some (c.toNat - 55)
  else if 'a' ≤ c ∧ c ≤ 'f' then some (c.toNat - 87)
  else none

/-- The digit pairs as bytes; none where a character is no digit or their number is odd (R710). -/
def hexBytes : List Char → Option (List Byte)
  | [] => some []
  | [_] => none
  | h :: l :: rest =>
    match hexDigit h, hexDigit l, hexBytes rest with
    | some x, some y, some bs => some (BitVec.ofNat 8 (16 * x + y) :: bs)
    | _, _, _ => none

/-- The lines of a text, without their line feeds. -/
def textLines : List Char → List Char → List (List Char)
  | [], cur => [cur.reverse]
  | c :: rest, cur => if c = '\n' then cur.reverse :: textLines rest [] else textLines rest (c :: cur)

/-- Strip a trailing carriage return (R710). -/
def stripReturn (l : List Char) : List Char := if l.getLast? = some '\r' then l.dropLast else l

/-- The sum of a list of bytes. -/
def byteSum (bs : List Byte) : Nat := (bs.map BitVec.toNat).sum

/-- What one record asks for: go on with this code memory, or the load is complete (R710). -/
inductive RecordResult where
  | more (m : Memory)
  | done
  deriving DecidableEq, Repr

/-- The bytes of one record against code memory `m` of size `n`: length, checksum, type, then the data (R710). -/
def applyRecord (n : Nat) (m : Memory) : List Byte → Except LoadError RecordResult
  | ll :: ah :: al :: tt :: rest =>
    if rest.length ≠ ll.toNat + 1 then .error .badLength
    else if byteSum (ll :: ah :: al :: tt :: rest) % 256 ≠ 0 then .error .badChecksum
    else if tt = 0x00 then
      if ll.toNat ≠ 0 ∧ n < (ah ++ al).toNat + ll.toNat then .error .addressRange
      else .ok (.more (Memory.writeBytes codeErased m (ah ++ al).toNat (rest.take ll.toNat)))
    else if tt = 0x01 then .ok .done
    else .error .badType
  | _ => .error .badLength

/-- One non-empty line: a colon, then digit pairs (R710). -/
def loadLine (n : Nat) (m : Memory) : List Char → Except LoadError RecordResult
  | ':' :: digits =>
    match hexBytes digits with
    | none => .error .malformed
    | some bs => applyRecord n m bs
  | _ => .error .malformed

/-- The lines in order, up to the type-1 record; later lines are not read (R710). -/
def loadLines (n : Nat) : List (List Char) → Memory → Except LoadError Memory
  | [], _ => .error .noEndRecord
  | l :: rest, m =>
    if (stripReturn l).isEmpty then loadLines n rest m
    else
      match loadLine n m (stripReturn l) with
      | .error e => .error e
      | .ok .done => .ok m
      | .ok (.more m') => loadLines n rest m'

/-- `LoadHex(text)` into code memory `m` of size `n` (R710). Bytes no record writes keep their value. -/
def loadHex (n : Nat) (text : List Char) (m : Memory) : Except LoadError Memory := loadLines n (textLines text []) m

/-- Code memory from a persisted image (R713): erased bytes where the image has none; a missing file is the empty image.
DESIGN CHOICE: byte `i` of the image is code address `i`, and bytes at or above CODE_SIZE are dropped (log 30). -/
def persistedImage (n : Nat) (blob : List Byte) : Memory := Memory.writeBytes codeErased [] 0 (blob.take n)

/-- The start of a run (R701): reset, then the image loaded; a load error refuses the launch (R711). -/
def launch (c : Config) (devices : List Peripheral) (attached : Bool) (text : List Char) : Result :=
  match loadHex c.codeSize text [] with
  | .error e => .refused (.loadFailed e)
  | .ok m => .next (State.resetOf c devices attached m)

end Sys2Proof.Machine
end

