-- ==== Sys2Proof/Machine/Rendezvous.lean ====
section
/-! DEFINITION. The driver's side of the rendezvous (60_exceptions.md rules R572 to R577, R583) and of the run flag (R508),
as functions on a unit's state. Where the spec says that the driver waits for the unit, the unit runs by `step`
(log 21). -/

namespace Sys2Proof.Machine

/-- `waiting` is true: the unit has reached its deadline and waits in SyncCheck (R571, R572). -/
def unitWaits (s : State) : Bool := (s.sync.map (·.waiting)).getD false

/-- An event window is open: begin_event has returned and the matching end_event has not been called (R574). -/
def windowOpen (s : State) : Bool := (s.sync.map (·.inWindow)).getD false

/-- begin_event returns: the window is open (R572). -/
def openWindow (s : State) : State := { s with sync := s.sync.map fun y => { y with inWindow := true } }

/-- The driver waits until `waiting` is true, the unit taking at most `k` steps meanwhile. A unit that stops leaves the
driver waiting for ever: the answer is the unit's stop. -/
def awaitUnit : Nat → State → Result
  | 0, s => if unitWaits s then .next s else .refused .driverDuty
  | k + 1, s =>
    if unitWaits s then .next s
    else
      match step s with
      | .next t => awaitUnit k t
      | .fault r => .fault r
      | .refused r => .refused r

/-- `begin_event(D)` (R572): publish the deadline, wait, open the window. A running unit waits after at most
D - ticks + 3 steps: one to leave an earlier wait, one a clock value up to D, one to enter the wait. A call in an open
window breaks the duty to end each event (R577). -/
def beginEvent (d : Tick) (s : State) : Result :=
  match s.sync with
  | none => .refused .noSynchronizer
  | some y =>
    if y.inWindow then .refused .driverDuty
    else
      match awaitUnit (d.toNat - s.ticks.toNat + 3) { s with sync := some { y with deadline := d } } with
      | .next t => .next (openWindow t)
      | .fault r => .fault r
      | .refused r => .refused r

/-- `end_event(N)` (R573): close the window and release the unit. -/
def endEvent (n : Tick) (s : State) : State :=
  { s with sync := s.sync.map fun y => { y with deadline := n, waiting := false, inWindow := false } }

/-- `begin_event_at(D)` (R575): refused for D below the unit's `ticks`; else begin_event, and once more after an
end_event(D) when the unit stopped early. A third turn could never return (R576, R577). -/
def beginEventAt (d : Tick) (s : State) : Result :=
  if d < s.ticks then .refused .deadlineInPast
  else
    match beginEvent d s with
    | .next t =>
      if t.ticks = d then .next t
      else
        match beginEvent d (endEvent d t) with
        | .next u => if u.ticks = d then .next u else .refused .driverDuty
        | .fault r => .fault r
        | .refused r => .refused r
    | .fault r => .fault r
    | .refused r => .refused r

/-- The SFR bits a predicate reads. -/
def condBits : Cond → List (Byte × BitVec 3)
  | .const _ => []
  | .sfrBit d b => [(d, b)]
  | .deviceBit _ _ _ => []
  | .not c => condBits c
  | .both c d => condBits c ++ condBits d
  | .either c d => condBits c ++ condBits d

/-- Bit `b` of SFR `d` is a request bit: the `pending` predicate of a source of IRQ_TABLE reads it (R530, R531). -/
def isRequestBit (d : Byte) (b : BitVec 3) (s : State) : Bool :=
  isSfrAddr d && s.cfg.irqTable.any fun x => (condBits x.pending).contains (d, b)

/-- In an open window the driver sets or clears request bit `b` of SFR `d`, keeping the duty of R564 (R574, R583). -/
def windowRequest (d : Byte) (b : BitVec 3) (v : Bool) (s : State) : Result :=
  if windowOpen s && isRequestBit d b s then
    .next { setSfr d (withBit (sfrGet d s) b v) s with irqRecheck := true }
  else .refused .driverDuty

/-- Peripheral `p` with the state of `q`: which device it is, what it owns and which registers have a read side effect
or belong to a port stay. -/
def withStateOf (q p : Peripheral) : Peripheral :=
  { q with device := p.device, owns := p.owns, readEffects := p.readEffects, ports := p.ports }

/-- The driver gives peripheral `k` another bus output, so the bus needs deriving (R565, log 31). -/
def outputChanges (k : Nat) (q : Peripheral) (s : State) : Bool :=
  (s.peripherals[k]?).any fun p => q.outEnable != p.outEnable || q.outByte != p.outByte

/-- In an open window the driver gives peripheral `k` the state of `q` (delivers a packet), keeping the duty of R564
(R574, R583). -/
def windowDevice (k : Nat) (q : Peripheral) (s : State) : Result :=
  if windowOpen s then
    .next { s with
      peripherals := s.peripherals.modify k (withStateOf q)
      needHwTick := s.needHwTick || outputChanges k q s
      irqRecheck := true }
  else .refused .driverDuty

/-- The driver clears the run flag: the unit takes no further cycle (R508). -/
def clearRunFlag (s : State) : State := { s with runFlag := false }

end Sys2Proof.Machine
end

