-- ==== Sys2Proof/Machine/Reset.lean ====
section
/-! DEFINITION. The full CPU reset of a unit that has run (70_reset_and_hazards.md rule R700). The state at the start of a
run is `State.resetOf` (R701). -/

namespace Sys2Proof.Machine

/-- A full CPU reset (R700): every piece of state that 10_state.md rule R70 lists takes its value there; code memory,
the clock, the shared bus, the rendezvous and the run flag stay (log 18). -/
def cpuReset (s : State) : State :=
  { State.resetOf s.cfg s.peripherals s.sync.isSome s.code with
    ticks := s.ticks
    bus := s.bus
    sync := s.sync
    runFlag := s.runFlag
    freeCount := s.freeCount }

end Sys2Proof.Machine
end

