-- ==== Sys2Proof/Machine/Trace.lean ====
section
/-! DEFINITION. The trace (60_exceptions.md rule R580): which steps of a unit run Step (R505), and the record that a trace
sink receives after it. A trace sink has no effect on the unit, so nothing here is read by `step` (log 27). -/

namespace Sys2Proof.Machine

/-- The record a trace sink receives after a Step. -/
structure TraceRecord where
  ticks : Tick
  previousPc : Addr
  bytes : List Byte
  acc : Byte
  psw : Byte
  sp : Byte
  dptr : Addr
  deriving DecidableEq, Repr

/-- The record of a Step that fetched from `before` and left `after`, which is the state right after Step: the hardware
tick and the clock of the cycle come later. -/
def traceRecord (before after : State) : TraceRecord where
  ticks := after.ticks
  previousPc := after.previousPc
  bytes := ([fetchOp before, fetchOperand 1 before, fetchOperand 2 before]).take (lenOf (fetchOp before))
  acc := acc after
  psw := psw after
  sp := sp after
  dptr := dptr after

/-- The state from which step (3) of R501 runs Step, when it does: no remainder is left, and no breakpoint stops it
(R502, R504). -/
def stepEntry (v : State) : Option State :=
  if v.tickDelay ≤ 0 then
    if v.cfg.breakpoints.contains v.pc then
      if v.cfg.continues .breakpoint then some (reportBreakpoint v) else none
    else some v
  else none

/-- The state from which this step of the unit runs Step, when it does. -/
def fetchingState (s : State) : Option State :=
  if runEnded s then none
  else
    match syncCheck s with
    | .wait _ => none
    | .run u => if u.ticks ≥ clockEnd then none else stepEntry (interruptCheck u)

/-- The record this step of the unit emits, none when it runs no Step. -/
def traceOf (s : State) : Option TraceRecord :=
  match fetchingState s with
  | none => none
  | some u =>
    match exec (fetchInstr u) (advancePc u) with
    | .next t => some (traceRecord u (epilogue t))
    | .fault _ => none
    | .refused _ => none

/-- The trace of `n` steps of a unit, in order. -/
def traceRun : Nat → State → List TraceRecord
  | 0, _ => []
  | n + 1, s =>
    (traceOf s).toList ++
      match step s with
      | .next t => traceRun n t
      | .fault _ => []
      | .refused _ => []

end Sys2Proof.Machine
end

