-- ==== Sys2Proof/Safety.lean ====
section
/-! DEFINITION. What counts as a sound state and as an unchanged part of one, in the terms the claims use. -/

namespace Sys2Proof.Machine

/-! ### Sound states -/

/-- The four memories have their canonical form and lie in their address spaces (20_memory.md rule R80). -/
def memoriesOk (s : State) : Bool :=
  (Memory.wf unspecByte s.iram && Memory.within 0x00 0x100 s.iram) &&
    ((Memory.wf unspecByte s.sfr && Memory.within 0x80 0x100 s.sfr) &&
      ((Memory.wf codeErased s.code && Memory.within 0 s.cfg.codeSize s.code) &&
        (Memory.wf unspecByte s.xdata && Memory.within 0 0x10000 s.xdata)))

/-- pc and previous_pc lie in code memory (10_state.md rules R35, R36). -/
def pcOk (s : State) : Bool :=
  decide (s.pc.toNat < s.cfg.codeSize) && decide (s.previousPc.toNat < s.cfg.codeSize)

/-- At most four handlers are active, their priorities strictly rise from the outermost to the innermost, and every
record holds the eight bytes of a bank (10_state.md rule R48, 60_exceptions.md rule R527). -/
def irqStackOk (s : State) : Bool :=
  decide (s.irqStack.length ≤ 4) &&
    (decide ((s.irqStack.map (·.priority)).Pairwise fun inner outer => outer < inner) &&
      s.irqStack.all fun l => l.r.length == 8)

/-- No remainder is negative: `tick_delay` and every `saved_delay` (10_state.md rule R46). -/
def delaysOk (s : State) : Bool := decide (0 ≤ s.tickDelay) && s.irqStack.all fun l => decide (0 ≤ l.savedDelay)

/-- The clock lies below INF (60_exceptions.md rule R548). -/
def clockOk (s : State) : Bool := decide (s.ticks < Tick.inf)

/-- `irq_recheck` is set whenever arbitration would dispatch a source (60_exceptions.md rules R524, R525). -/
def recheckOk (s : State) : Bool := s.irqRecheck || (irqChoice s).isNone

/-- The rendezvous state is sound: a unit that is waiting is inside the wait of SyncCheck, and while a window is open the
unit is waiting (60_exceptions.md rules R571, R574). -/
def syncOk (s : State) : Bool :=
  match s.sync with
  | none => true
  | some y => (!y.waiting || y.blocked) && (!y.inWindow || y.waiting)

/-- A sound state: legal parameters and every invariant above. -/
def stateOk (s : State) : Bool :=
  s.cfg.wellFormed && (memoriesOk s && (pcOk s && (irqStackOk s && (delaysOk s && (clockOk s && (recheckOk s &&
    syncOk s))))))

/-- No fault has been reported: a safe run in the sense of the fault channel (60_exceptions.md rule R511). -/
def noFaults (s : State) : Bool := s.faults.isEmpty

/-! ### Unchanged parts -/

/-- What is fixed of a peripheral: which device it is, the SFRs it owns, those with a read side effect and those of a port
(60_exceptions.md rules R560, R563, R565). -/
def attachment (p : Peripheral) : Device × List Byte × List Byte × List Byte :=
  (p.device, p.owns, p.readEffects, p.ports)

/-- The most that peripheral number `k` can do to the unit (60_exceptions.md rules R562 to R567): of all peripherals only
that one's state changes, and what is fixed of it stays; SFR bytes, code memory, need_hw_tick and irq_recheck may change,
the two flags being set only; peripheral fault kinds are appended to the log with the recorded pc of R512. -/
def deviceBounded (k : Nat) (s u : State) : Prop :=
  ∃ fs : List FaultRecord,
    u = { s with
      sfr := u.sfr, code := u.code, needHwTick := u.needHwTick, irqRecheck := u.irqRecheck,
      peripherals := u.peripherals, faults := s.faults ++ fs } ∧
    (s.needHwTick = true → u.needHwTick = true) ∧ (s.irqRecheck = true → u.irqRecheck = true) ∧
    (∀ j, j ≠ k → u.peripherals[j]? = s.peripherals[j]?) ∧
    (u.peripherals[k]?).map attachment = (s.peripherals[k]?).map attachment ∧
    ∀ f ∈ fs, f.pc = s.previousPc ∧ f.kind ∈ [.spiXrun, .radioXrun, .i2cError, .peripheralBusy]

/-- Every SFR outside `ds` reads as before. -/
def sfrsKept (ds : List Byte) (s t : State) : Prop := ∀ d, d ∉ ds → sfrGet d t = sfrGet d s

/-- Every IRAM byte outside `as` reads as before. -/
def iramKept (as : List Byte) (s t : State) : Prop := ∀ a, a ∉ as → iramGet a t = iramGet a s

/-- Every PSW bit outside `bs` is as before. -/
def pswKept (bs : List (BitVec 3)) (s t : State) : Prop := ∀ b, b ∉ bs → bitOf (psw t) b = bitOf (psw s) b

/-- Only the SFRs `ds` change, and `tick_delay` takes the cost of opcode `op`. -/
def onlySfrs (op : Byte) (ds : List Byte) (s t : State) : Prop :=
  t = { s with sfr := t.sfr, tickDelay := s.cfg.cyclesOf op } ∧ sfrsKept ds s t

/-- Only the IRAM bytes `as` change, and `tick_delay` takes the cost of opcode `op`. -/
def onlyIram (op : Byte) (as : List Byte) (s t : State) : Prop :=
  t = { s with iram := t.iram, tickDelay := s.cfg.cyclesOf op } ∧ iramKept as s t

/-- Nothing but A changes; A takes `v`. -/
def accOnly (op v : Byte) (s t : State) : Prop := onlySfrs op [0xE0] s t ∧ acc t = v

/-- Nothing but CY changes; CY takes `b`. -/
def carryOnly (op : Byte) (b : Bool) (s t : State) : Prop := onlySfrs op [0xD0] s t ∧ pswKept [7] s t ∧ cy t = b

/-- Nothing but the IRAM byte at `a` changes; it takes `v`. -/
def byteStored (op a v : Byte) (s t : State) : Prop := onlyIram op [a] s t ∧ iramGet a t = v

/-- Nothing but pc changes; it takes `a`. -/
def pcOnly (op : Byte) (a : Addr) (s t : State) : Prop :=
  t = { s with pc := a, tickDelay := s.cfg.cyclesOf op }

/-! ### Results of the instruction families -/

/-- A takes the sum of A, `v` and the carry-in `c`, and CY, AC, OV the flags of ADD8 (40_arithmetic.md rule R190). -/
def added (op v : Byte) (c : Bool) (s t : State) : Prop :=
  onlySfrs op [0xE0, 0xD0] s t ∧ pswKept [7, 6, 2] s t ∧
    (acc t).toNat = ((acc s).toNat + v.toNat + c.toNat) % 256 ∧
    cy t = decide (256 ≤ (acc s).toNat + v.toNat + c.toNat) ∧
    ac t = decide (0x10 ≤ (acc s).toNat % 0x10 + v.toNat % 0x10 + c.toNat) ∧
    ov t = (decide (0x80 ≤ (acc s).toNat % 0x80 + v.toNat % 0x80 + c.toNat) != cy t)

/-- A takes A minus `v` minus the borrow CY, and CY, AC, OV the flags of SUB8 (40_arithmetic.md rule R191). -/
def subtracted (op v : Byte) (s t : State) : Prop :=
  onlySfrs op [0xE0, 0xD0] s t ∧ pswKept [7, 6, 2] s t ∧
    ((acc t).toNat : Int) = ((acc s).toNat - v.toNat - (cy s).toNat : Int) % 256 ∧
    cy t = decide ((acc s).toNat < v.toNat + (cy s).toNat) ∧
    ac t = decide ((acc s).toNat % 0x10 < v.toNat % 0x10 + (cy s).toNat) ∧
    ov t = (decide ((acc s).toNat % 0x80 < v.toNat % 0x80 + (cy s).toNat) != cy t)

/-- The effect of DirWrite(d, v) (20_memory.md rule R84): an IRAM byte; or an SFR owned by no peripheral, with the
recheck flag set for an address of IRQ_SFRS; or an SFR whose owner's write handler runs after the store. -/
def storedDirect (d v : Byte) (s t : State) : Prop :=
  if d ≤ 0x7F#8 then t = { s with iram := t.iram } ∧ iramGet d t = v ∧ iramKept [d] s t
  else
    match ownerOf d s with
    | none =>
      t = { s with sfr := t.sfr, irqRecheck := s.irqRecheck || s.cfg.irqSfrs.contains d } ∧ sfrGet d t = v ∧
        sfrsKept [d] s t
    | some (k, p) => ∃ u, u = { s with sfr := u.sfr } ∧ sfrGet d u = v ∧ sfrsKept [d] s u ∧
        t = noteIrqSfr d (applyEffect k p (writeHandler p d u) u)

/-- DirWrite(d, v) and the cost of opcode `op`. -/
def directStored (op d v : Byte) (s t : State) : Prop :=
  ∃ u, storedDirect d v s u ∧ t = { u with tickDelay := s.cfg.cyclesOf op }

/-- A read-modify-write of the bit at bit address `b` by `f`: one read and one write of its byte (R85). -/
def bitStored (op b : Byte) (f : Bool → Bool) (s t : State) : Prop :=
  ∃ w, (∀ j, bitOf w j =
      if j = (bitLoc b).2 then f (bitOf (dirRead (bitLoc b).1 s).2 j) else bitOf (dirRead (bitLoc b).1 s).2 j) ∧
    directStored op (bitLoc b).1 w (dirRead (bitLoc b).1 s).1 t

/-- The STACK record of a push or pop that wraps SP, when STACK_CHECK is true (20_memory.md rules R88, R89). -/
def stackFault (wraps : Bool) (x : Detail) (s : State) : List FaultRecord :=
  if s.cfg.stackCheck && wraps then [⟨.stack, s.previousPc, x⟩] else []

/-- The effect of Push(v) (20_memory.md rule R88). -/
def pushed (v : Byte) (s t : State) : Prop :=
  t = { s with
    iram := t.iram, sfr := t.sfr, faults := s.faults ++ stackFault (sp s == 0xFF) .overflow s } ∧
    sp t = sp s + 1 ∧ sfrsKept [0x81] s t ∧ iramGet (sp s + 1) t = v ∧ iramKept [sp s + 1] s t

/-- The effect of Pop(), whose value is the IRAM byte at SP (20_memory.md rule R89). -/
def popped (s t : State) : Prop :=
  t = { s with sfr := t.sfr, faults := s.faults ++ stackFault (sp s == 0x00) .underflow s } ∧
    sp t = sp s - 1 ∧ sfrsKept [0x81] s t

/-- `rel_target(rel)`: the non-negative remainder of pc + rel (44_branching.md rule R420). -/
def relAddr (rel : Int) (s : State) : Addr :=
  BitVec.ofNat 16 (((s.pc.toNat : Int) + rel) % (s.cfg.codeSize : Int)).toNat

/-- A branch to `rel_target(rel)` taken when `b` holds. -/
def branched (op : Byte) (b : Bool) (rel : Int) (s t : State) : Prop :=
  pcOnly op (if b then relAddr rel s else s.pc) s t

/-- CY takes "v less than w", and the branch is taken when they differ (44_branching.md rules R410 to R413). -/
def compared (op v w : Byte) (rel : Int) (s t : State) : Prop :=
  t = { s with
    sfr := t.sfr, pc := if v = w then s.pc else relAddr rel s, tickDelay := s.cfg.cyclesOf op } ∧
    sfrsKept [0xD0] s t ∧ pswKept [7] s t ∧ cy t = decide (v < w)

/-- The mismatch records of a strict RETI against the snapshot `l`, in order (60_exceptions.md rule R526). -/
def iretFaults (l : IrqLevel) (s : State) : List FaultRecord :=
  (if acc s = l.acc then [] else [⟨.iretAccMismatch, s.previousPc, .pair l.acc (acc s)⟩]) ++
    ((if sp s = l.sp then [] else [⟨.iretSpMismatch, s.previousPc, .pair l.sp (sp s)⟩]) ++
      ((if psw s = l.psw then [] else [⟨.iretPswMismatch, s.previousPc, .pair l.psw (psw s)⟩]) ++
        ((if pointerBytes s = l.pointers then []
          else [⟨.iretDptrMismatch, s.previousPc, .pointers l.pointers (pointerBytes s)⟩]) ++
          (((List.range 8).filter fun k => (bankBytes s).getD k 0 != l.r.getD k 0).take 1).map fun k =>
            ⟨.iretBankMismatch, s.previousPc, .register k⟩)))

/-! ### Program images -/

/-- The bytes of one line of an image: those of its digit pairs after the colon (70_reset_and_hazards.md rule R710). -/
def lineBytes (l : List Char) : Option (List Byte) :=
  match stripReturn l with
  | ':' :: digits => hexBytes digits
  | _ => none

/-- The type-0 records before the type-1 record, each with its address and its data bytes (R710, R712). -/
def dataRecords : List (List Char) → List (Nat × List Byte)
  | [] => []
  | l :: rest =>
    match lineBytes l with
    | some (ll :: ah :: al :: tt :: body) =>
      if tt = 0x01 then []
      else if tt = 0x00 then ((ah ++ al).toNat, body.take ll.toNat) :: dataRecords rest
      else dataRecords rest
    | _ => dataRecords rest

/-- A data record covers code address `a` (R712). -/
def covers (a : Nat) (r : Nat × List Byte) : Prop := r.1 ≤ a ∧ a < r.1 + r.2.length

/-! ### The cycle -/

/-- The unit may take a cycle: neither halted nor stopped, the clock below its end, not held by its synchronizer
(60_exceptions.md rules R501, R508, R548, R571). -/
def mayCycle (s : State) : Prop :=
  s.halted = false ∧ s.runFlag = true ∧ s.ticks < clockEnd ∧ syncCheck s = .run s

end Sys2Proof.Machine
end

