-- ==== Sys2Proof/Certificates/Slice0/Obligations.lean ====
section
/-! DEFINITION. The statements for the provers. Each docstring names the rules of spec/ it formalises; the words used
(`added`, `pushed`, `storedDirect`, …) are in Safety.lean. Where a form reads a direct operand, `dirRead d s` is the pair
of the state its read hook leaves and the byte read; what it can be is `DirectAccessFollowsTheHooks`. -/

open Sys2Proof Sys2Proof.Machine

/-! ## Encoding -/

/-- Words written out from the encodings of 30_encoding.md decode to their instructions, with the bytes that follow left
over; nothing and a cut-off instruction are rejected. -/
def Obligations.DecodeSampleWords : Prop :=
  decode [0x2B] = .ok (.addARn 3, []) ∧ decode [0x25, 0x30, 0xAA] = .ok (.addADir 0x30, [0xAA]) ∧
    decode [0x55, 0x30] = .ok (.anlADir 0x30, []) ∧ decode [0x85, 0x30, 0x31] = .ok (.movDirDir 0x30 0x31, []) ∧
    decode [0x90, 0x12, 0x34] = .ok (.movDptrImm 0x1234, []) ∧ decode [0x10, 0x00, 0x02] = .ok (.jbc 0x00 2, []) ∧
    decode [0x51, 0x34] = .ok (.acall 0x234, []) ∧ decode [0x80, 0xFE] = .ok (.sjmp (-2), []) ∧
    decode [0xB7, 0x40, 0x80] = .ok (.cjneIndImm 1 0x40 (-128), []) ∧ decode [0xA5] = .ok (.reserved, []) ∧
    decode [] = .error .noByte ∧ decode [0x02, 0x12] = .error (.truncated 0x02)

/-- R129: 112 rows, each of the 256 bytes is matched by exactly one (match, mask) pair, and the decoder takes the
instruction and its length from that row. -/
def Obligations.EveryOpcodeByteHasOneRow : Prop :=
  opTable.length = 112 ∧
    (∀ op : Byte, (opTable.filter fun r => op &&& r.mask == r.value).length = 1) ∧
    ∀ (op b1 b2 : Byte) (r : OpRow), r ∈ opTable → op &&& r.mask = r.value →
      decodeOp op b1 b2 = r.build op b1 b2 ∧ lenOf op = r.len

/-- Decode and encode agree: decoding the bytes of a well-formed instruction, whatever follows them, gives it back and
leaves what follows (R121, R123, R124). -/
def Obligations.DecodeInvertsEncode : Prop :=
  ∀ (i : Instr) (rest : List Byte), i.wellFormed = true → decode (encode i ++ rest) = .ok (i, rest)

/-- Every opcode byte with any operand bytes decodes to a well-formed instruction, and encoding it gives those bytes back
up to the length of the opcode (R124, R128, R129). -/
def Obligations.EncodeInvertsDecode : Prop :=
  ∀ op b1 b2 : Byte, (decodeOp op b1 b2).wellFormed = true ∧
    encode (decodeOp op b1 b2) = [op, b1, b2].take (lenOf op) ∧ 1 ≤ lenOf op ∧ lenOf op ≤ 3

/-! ## Memory, stack and operand access -/

/-- R83, R84, R563: a direct address up to 0x7F is IRAM without side effect; a core SFR and an SFR that no peripheral
owns are read and written by the identity; an SFR of a peripheral goes through its handlers, the store before the write
handler; a write of an SFR in IRQ_SFRS sets irq_recheck. R560 has no address with two owners; that the first in list order
owns an address which several list is the model's choice (log 16). -/
def Obligations.DirectAccessFollowsTheHooks : Prop :=
  ∀ (d v : Byte) (s : State),
    (d ≤ 0x7F#8 → dirRead d s = (s, iramGet d s)) ∧
    (0x80#8 ≤ d → d ∈ s.cfg.coreSfrs ∨ (∀ p ∈ s.peripherals, d ∉ p.owns) →
      dirRead d s = (s, sfrGet d s) ∧ ownerOf d s = none) ∧
    (∀ (k : Nat) (p : Peripheral), 0x80#8 ≤ d → d ∉ s.cfg.coreSfrs → s.peripherals[k]? = some p → d ∈ p.owns →
      (∀ q ∈ s.peripherals.take k, d ∉ q.owns) →
      ownerOf d s = some (k, p) ∧ dirRead d s = (applyEffect k p (readHandler p d s).1 s, (readHandler p d s).2)) ∧
    storedDirect d v s (dirWrite d v s) ∧
    (0x80#8 ≤ d → d ∈ s.cfg.irqSfrs → (dirWrite d v s).irqRecheck = true)

/-- R563 to R567, R93: what a peripheral can do to the unit. A direct read of IRAM or of an SFR that none owns changes
nothing. The read handler, the write handler after its store, and the tick routine of peripheral k are within
`deviceBounded`: no other peripheral changes, nor what is fixed of peripheral k; the rest that may change is the SFR file,
code memory, need_hw_tick and irq_recheck, which are set only, and the fault log, to which peripheral fault kinds are
appended. A register with no documented read side effect is read without any change, and the byte read depends neither on
the clock nor on A, so two reads in a row give one byte. A tick routine leaves need_hw_tick. That a handler can do no more
is the model's choice (log 8), and so is what a byte read without side effect depends on (log 32). -/
def Obligations.HandlerEffectIsBounded : Prop :=
  ∀ (d v : Byte) (s : State),
    (d ≤ 0x7F#8 ∨ ownerOf d s = none → (dirRead d s).1 = s) ∧
    (∀ (k : Nat) (p : Peripheral), 0x80#8 ≤ d → ownerOf d s = some (k, p) →
      deviceBounded k s (dirRead d s).1 ∧ deviceBounded k (setSfr d v s) (dirWrite d v s) ∧
      (d ∉ p.readEffects → (dirRead d s).1 = s ∧
        ∀ (w : Byte) (now : Tick), (dirRead d (setAcc w { s with ticks := now })).2 = (dirRead d s).2)) ∧
    ∀ (attention : Bool) (k : Nat), deviceBounded k s (tickPeripheral attention s k) ∧
      (tickPeripheral attention s k).needHwTick = s.needHwTick

/-- R32 to R34, R82, R85: register Rn is the IRAM byte at 8*RS + n, RS being PSW bits 4:3, and @Ri is the IRAM byte at the
address Ri holds; bit addresses up to 0x7F are the bits of IRAM 0x20 to 0x2F, the others bits of the SFR at b & 0xF8; BitRead
reads the byte once, BitWrite reads it and writes it back with that bit replaced. -/
def Obligations.RegisterAndBitAddressing : Prop :=
  ∀ (n : BitVec 3) (i : BitVec 1) (b : Byte) (v : Bool) (s : State),
    ((regAddr n s).toNat = 8 * ((psw s).toNat / 8 % 4) + n.toNat ∧ readReg n s = iramGet (regAddr n s) s ∧
      pointer i s = readReg (i.setWidth 3) s ∧ indRead i s = iramGet (pointer i s) s) ∧
    (bitLoc b).1.toNat = (if b.toNat ≤ 0x7F then 0x20 + b.toNat / 8 else b.toNat / 8 * 8) ∧
    (bitLoc b).2.toNat = b.toNat % 8 ∧
    bitRead b s = ((dirRead (bitLoc b).1 s).1, bitOf (dirRead (bitLoc b).1 s).2 (bitLoc b).2) ∧
    ∃ w, bitWrite b v s = dirWrite (bitLoc b).1 w (dirRead (bitLoc b).1 s).1 ∧
      ∀ j, bitOf w j = if j = (bitLoc b).2 then v else bitOf (dirRead (bitLoc b).1 s).2 j

/-- R192: read as two's-complement signed bytes, OV of ADD8 and of SUB8 is set exactly when the exact result lies outside
-128..127, and read unsigned, CY exactly when it lies outside 0..255. -/
def Obligations.FlagsAreTheIntegerLaws : Prop :=
  ∀ (a b : Byte) (c : Bool),
    ((add8 a b c).cy = true ↔ 255 < a.toNat + b.toNat + c.toNat) ∧
    ((add8 a b c).ov = true ↔ a.toInt + b.toInt + c.toNat < -128 ∨ 127 < a.toInt + b.toInt + c.toNat) ∧
    ((sub8 a b c).cy = true ↔ (a.toNat : Int) - b.toNat - c.toNat < 0) ∧
    ((sub8 a b c).ov = true ↔ a.toInt - b.toInt - c.toNat < -128 ∨ 127 < a.toInt - b.toInt - c.toNat)

/-! ## Arithmetic instructions -/

/-- R200, R202 to R204, R206 to R208, R210, R211: A takes the sum or difference with a register, an indirect IRAM byte or
an immediate, CY, AC and OV the flags of ADD8 or SUB8, and nothing else changes. -/
def Obligations.AddAndSubtractSetAccAndFlags : Prop :=
  ∀ (n : BitVec 3) (i : BitVec 1) (imm : Byte) (s : State),
    (∃ t, exec (.addARn n) s = .next t ∧ added (0x28 + n.setWidth 8) (readReg n s) false s t) ∧
    (∃ t, exec (.addAInd i) s = .next t ∧ added (0x26 + i.setWidth 8) (indRead i s) false s t) ∧
    (∃ t, exec (.addAImm imm) s = .next t ∧ added 0x24 imm false s t) ∧
    (∃ t, exec (.addcARn n) s = .next t ∧ added (0x38 + n.setWidth 8) (readReg n s) (cy s) s t) ∧
    (∃ t, exec (.addcAInd i) s = .next t ∧ added (0x36 + i.setWidth 8) (indRead i s) (cy s) s t) ∧
    (∃ t, exec (.addcAImm imm) s = .next t ∧ added 0x34 imm (cy s) s t) ∧
    (∃ t, exec (.subbARn n) s = .next t ∧ subtracted (0x98 + n.setWidth 8) (readReg n s) s t) ∧
    (∃ t, exec (.subbAInd i) s = .next t ∧ subtracted (0x96 + i.setWidth 8) (indRead i s) s t) ∧
    (∃ t, exec (.subbAImm imm) s = .next t ∧ subtracted 0x94 imm s t)

/-- R201, R205, R209: the same with a direct operand. A and CY are read after the operand's read hook, as the pseudocode of
these rules has it. -/
def Obligations.AddAndSubtractDirect : Prop :=
  ∀ (d : Byte) (s : State),
    (∃ t, exec (.addADir d) s = .next t ∧ added 0x25 (dirRead d s).2 false (dirRead d s).1 t) ∧
    (∃ t, exec (.addcADir d) s = .next t ∧ added 0x35 (dirRead d s).2 (cy (dirRead d s).1) (dirRead d s).1 t) ∧
    (∃ t, exec (.subbADir d) s = .next t ∧ subtracted 0x95 (dirRead d s).2 (dirRead d s).1 t)

/-- R222, R223: MUL AB puts the product's high byte in B and its low byte in A; DIV AB by a divisor other than 0 puts the
quotient in A and the remainder in B; CY is cleared, OV is "product above 0xFF", or 0 for the division, and AC and all else
stays. -/
def Obligations.MultiplyAndDivide : Prop :=
  ∀ s : State,
    (∃ t, exec .mulAB s = .next t ∧ onlySfrs 0xA4 [0xE0, 0xF0, 0xD0] s t ∧ pswKept [7, 2] s t ∧
      (regB t).toNat * 256 + (acc t).toNat = (acc s).toNat * (regB s).toNat ∧ cy t = false ∧
      ov t = decide (0xFF < (acc s).toNat * (regB s).toNat)) ∧
    (regB s ≠ 0 → ∃ t, exec .divAB s = .next t ∧ onlySfrs 0x84 [0xE0, 0xF0, 0xD0] s t ∧ pswKept [7, 2] s t ∧
      (acc s).toNat = (acc t).toNat * (regB s).toNat + (regB t).toNat ∧ (regB t).toNat < (regB s).toNat ∧
      cy t = false ∧ ov t = false)

/-- R223, division by 0: the instruction completes, sets OV, clears CY and changes nothing but A, B and those flags. A and
B are unconstrained draws: nothing is said of them, and only the model's own counter of draws moves (log 6, log 7). -/
def Obligations.DivideByZeroCompletes : Prop :=
  ∀ s : State, regB s = 0 → ∃ t, exec .divAB s = .next t ∧
    t = { s with sfr := t.sfr, tickDelay := s.cfg.cyclesOf 0x84, freeCount := t.freeCount } ∧
    sfrsKept [0xE0, 0xF0, 0xD0] s t ∧ pswKept [7, 2] s t ∧ cy t = false ∧ ov t = true

/-- R224: DA A. The low adjustment adds 6 when the low nibble exceeds 9 or AC is set; the high one adds 0x60 when the high
nibble then exceeds 9 or CY is then set; CY is set by a carry out and never cleared; AC and OV stay. -/
def Obligations.DecimalAdjust : Prop :=
  ∀ s : State, ∃ (t : State) (l : Nat) (c : Bool), exec .daA s = .next t ∧
    l = (if 9 < (acc s).toNat % 16 ∨ ac s = true then (acc s).toNat + 6 else (acc s).toNat) ∧
    c = (cy s || decide (0xFF < l)) ∧ onlySfrs 0xD4 [0xE0, 0xD0] s t ∧ pswKept [7] s t ∧
    (if 9 < l % 256 / 16 ∨ c = true then
      (acc t).toNat = (l % 256 + 0x60) % 256 ∧ cy t = (c || decide (0xFF < l % 256 + 0x60))
    else (acc t).toNat = l % 256 ∧ cy t = c)

/-- R213, R215, R218, R220, R304 to R306, R312 to R314: INC, DEC and MOV of a register or an indirect IRAM byte store that
one byte of IRAM; the address is that of the register in the current bank, or the pointer register's value. For a direct
source the bank, the pointer register and the store are taken in the state its read hook leaves, which is the model's
order (log 19). -/
def Obligations.RegisterAndIndirectStores : Prop :=
  ∀ (n : BitVec 3) (i : BitVec 1) (d imm : Byte) (s : State),
    (∃ t, exec (.incRn n) s = .next t ∧ byteStored (0x08 + n.setWidth 8) (regAddr n s) (readReg n s + 1) s t) ∧
    (∃ t, exec (.decRn n) s = .next t ∧ byteStored (0x18 + n.setWidth 8) (regAddr n s) (readReg n s - 1) s t) ∧
    (∃ t, exec (.incInd i) s = .next t ∧ byteStored (0x06 + i.setWidth 8) (pointer i s) (indRead i s + 1) s t) ∧
    (∃ t, exec (.decInd i) s = .next t ∧ byteStored (0x16 + i.setWidth 8) (pointer i s) (indRead i s - 1) s t) ∧
    (∃ t, exec (.movRnA n) s = .next t ∧ byteStored (0xF8 + n.setWidth 8) (regAddr n s) (acc s) s t) ∧
    (∃ t, exec (.movRnImm n imm) s = .next t ∧ byteStored (0x78 + n.setWidth 8) (regAddr n s) imm s t) ∧
    (∃ t, exec (.movRnDir n d) s = .next t ∧ byteStored (0xA8 + n.setWidth 8) (regAddr n (dirRead d s).1)
      (dirRead d s).2 (dirRead d s).1 t) ∧
    (∃ t, exec (.movIndA i) s = .next t ∧ byteStored (0xF6 + i.setWidth 8) (pointer i s) (acc s) s t) ∧
    (∃ t, exec (.movIndImm i imm) s = .next t ∧ byteStored (0x76 + i.setWidth 8) (pointer i s) imm s t) ∧
    (∃ t, exec (.movIndDir i d) s = .next t ∧ byteStored (0xA6 + i.setWidth 8) (pointer i (dirRead d s).1)
      (dirRead d s).2 (dirRead d s).1 t)

/-- R214, R219, R254, R255, R260, R261, R266, R267: the read-modify-write forms read the direct operand through its read
hook once and write the new byte back through the write hook; no flag and nothing else changes. -/
def Obligations.DirectReadModifyWrite : Prop :=
  ∀ (d imm : Byte) (s u : State) (v : Byte), dirRead d s = (u, v) →
    (∃ t, exec (.incDir d) s = .next t ∧ directStored 0x05 d (v + 1) u t) ∧
    (∃ t, exec (.decDir d) s = .next t ∧ directStored 0x15 d (v - 1) u t) ∧
    (∃ t, exec (.anlDirA d) s = .next t ∧ directStored 0x52 d (v &&& acc u) u t) ∧
    (∃ t, exec (.anlDirImm d imm) s = .next t ∧ directStored 0x53 d (v &&& imm) u t) ∧
    (∃ t, exec (.orlDirA d) s = .next t ∧ directStored 0x42 d (v ||| acc u) u t) ∧
    (∃ t, exec (.orlDirImm d imm) s = .next t ∧ directStored 0x43 d (v ||| imm) u t) ∧
    (∃ t, exec (.xrlDirA d) s = .next t ∧ directStored 0x62 d (v ^^^ acc u) u t) ∧
    (∃ t, exec (.xrlDirImm d imm) s = .next t ∧ directStored 0x63 d (v ^^^ imm) u t)

/-- R216, R315, R43: INC DPTR and MOV DPTR,#data16 change the active data pointer only: the pair DPL1, DPH1 when DPS[0]
is 1, else DPL, DPH; the parameters give the data pointer registers distinct addresses (log 24). -/
def Obligations.DataPointerInstructions : Prop :=
  ∀ (w : Addr) (s : State), s.cfg.wellFormed = true →
    (∃ t, exec .incDptr s = .next t ∧ onlySfrs 0xA3 [dphAddr s, dplAddr s] s t ∧ dptr t = dptr s + 1) ∧
    (∃ t, exec (.movDptrImm w) s = .next t ∧ onlySfrs 0x90 [dphAddr s, dplAddr s] s t ∧ dptr t = w) ∧
    (dphAddr s, dplAddr s) =
      (if bitOf (sfrGet s.cfg.dpsAddr s) 0 then (s.cfg.dph1Addr, s.cfg.dpl1Addr) else (0x83, 0x82))

/-! ## Logical instructions -/

/-- R212, R217, R268 to R274: INC A, DEC A, CLR A, CPL A, RL A, RR A and SWAP A change A alone; RLC A and RRC A rotate the
nine bits of CY and A by one place and change nothing else. -/
def Obligations.AccumulatorOperations : Prop :=
  ∀ s : State,
    (∃ t, exec .incA s = .next t ∧ accOnly 0x04 (BitVec.ofNat 8 ((acc s).toNat + 1)) s t) ∧
    (∃ t, exec .decA s = .next t ∧ accOnly 0x14 (BitVec.ofNat 8 ((acc s).toNat + 255)) s t) ∧
    (∃ t, exec .clrA s = .next t ∧ accOnly 0xE4 0x00 s t) ∧
    (∃ t, exec .cplA s = .next t ∧ accOnly 0xF4 (~~~acc s) s t) ∧
    (∃ t, exec .rlA s = .next t ∧ accOnly 0x23 ((acc s).rotateLeft 1) s t) ∧
    (∃ t, exec .rrA s = .next t ∧ accOnly 0x03 ((acc s).rotateRight 1) s t) ∧
    (∃ t, exec .swapA s = .next t ∧ accOnly 0xC4 ((acc s).rotateLeft 4) s t) ∧
    (∃ t, exec .rlcA s = .next t ∧ onlySfrs 0x33 [0xE0, 0xD0] s t ∧ pswKept [7] s t ∧
      (cy t).toNat * 256 + (acc t).toNat = 2 * (acc s).toNat + (cy s).toNat) ∧
    (∃ t, exec .rrcA s = .next t ∧ onlySfrs 0x13 [0xE0, 0xD0] s t ∧ pswKept [7] s t ∧
      2 * (acc t).toNat + (cy t).toNat = (cy s).toNat * 256 + (acc s).toNat)

/-- R250 to R253, R256 to R259, R262 to R265: A takes the bitwise and, or, or exclusive or of A with the operand, and no
flag changes. That A is read after a direct operand's read hook is the model's order (log 19). -/
def Obligations.LogicalToAccumulator : Prop :=
  ∀ (n : BitVec 3) (i : BitVec 1) (d imm : Byte) (s u : State) (v : Byte), dirRead d s = (u, v) →
    (∃ t, exec (.anlARn n) s = .next t ∧ accOnly (0x58 + n.setWidth 8) (acc s &&& readReg n s) s t) ∧
    (∃ t, exec (.anlADir d) s = .next t ∧ accOnly 0x55 (acc u &&& v) u t) ∧
    (∃ t, exec (.anlAInd i) s = .next t ∧ accOnly (0x56 + i.setWidth 8) (acc s &&& indRead i s) s t) ∧
    (∃ t, exec (.anlAImm imm) s = .next t ∧ accOnly 0x54 (acc s &&& imm) s t) ∧
    (∃ t, exec (.orlARn n) s = .next t ∧ accOnly (0x48 + n.setWidth 8) (acc s ||| readReg n s) s t) ∧
    (∃ t, exec (.orlADir d) s = .next t ∧ accOnly 0x45 (acc u ||| v) u t) ∧
    (∃ t, exec (.orlAInd i) s = .next t ∧ accOnly (0x46 + i.setWidth 8) (acc s ||| indRead i s) s t) ∧
    (∃ t, exec (.orlAImm imm) s = .next t ∧ accOnly 0x44 (acc s ||| imm) s t) ∧
    (∃ t, exec (.xrlARn n) s = .next t ∧ accOnly (0x68 + n.setWidth 8) (acc s ^^^ readReg n s) s t) ∧
    (∃ t, exec (.xrlADir d) s = .next t ∧ accOnly 0x65 (acc u ^^^ v) u t) ∧
    (∃ t, exec (.xrlAInd i) s = .next t ∧ accOnly (0x66 + i.setWidth 8) (acc s ^^^ indRead i s) s t) ∧
    (∃ t, exec (.xrlAImm imm) s = .next t ∧ accOnly 0x64 (acc s ^^^ imm) s t)

/-! ## Data transfer instructions -/

/-- R300 to R303, R317 to R319: the loads of A change A alone; a table lookup reads code memory at the sum reduced modulo
CODE_SIZE. The direct form is stated for every direct address but 0xE0 (that form is IllegalFormsReport). -/
def Obligations.AccumulatorLoads : Prop :=
  ∀ (n : BitVec 3) (i : BitVec 1) (d imm : Byte) (s : State),
    (∃ t, exec (.movARn n) s = .next t ∧ accOnly (0xE8 + n.setWidth 8) (readReg n s) s t) ∧
    (∃ t, exec (.movAInd i) s = .next t ∧ accOnly (0xE6 + i.setWidth 8) (indRead i s) s t) ∧
    (∃ t, exec (.movAImm imm) s = .next t ∧ accOnly 0x74 imm s t) ∧
    (d ≠ 0xE0 → ∃ t, exec (.movADir d) s = .next t ∧ accOnly 0xE5 (dirRead d s).2 (dirRead d s).1 t) ∧
    (∃ t, exec .movcADptr s = .next t ∧
      accOnly 0x93 (Memory.read 0xFF s.code (((dptr s).toNat + (acc s).toNat) % s.cfg.codeSize)) s t) ∧
    (∃ t, exec .movcAPc s = .next t ∧
      accOnly 0x83 (Memory.read 0xFF s.code ((s.pc.toNat + (acc s).toNat) % s.cfg.codeSize)) s t)

/-- R301, R417, R511, R512, R514: MOV A,ACC and byte 0xA5 append their fault record with the address of the instruction
and have no other effect. -/
def Obligations.IllegalFormsReport : Prop :=
  ∀ s : State,
    exec (.movADir 0xE0) s = .next { s with
      faults := s.faults ++ [⟨.accToA, s.previousPc, .byte 0xE0⟩], tickDelay := s.cfg.cyclesOf 0xE5 } ∧
    exec .reserved s = .next { s with
      faults := s.faults ++ [⟨.illegalOpcode, s.previousPc, .byte 0xA5⟩], tickDelay := s.cfg.cyclesOf 0xA5 }

/-- R307 to R311: the moves to a direct address write it by DirWrite; the source is read first. -/
def Obligations.DirectStores : Prop :=
  ∀ (n : BitVec 3) (i : BitVec 1) (d src imm : Byte) (s : State),
    (∃ t, exec (.movDirA d) s = .next t ∧ directStored 0xF5 d (acc s) s t) ∧
    (∃ t, exec (.movDirRn n d) s = .next t ∧ directStored (0x88 + n.setWidth 8) d (readReg n s) s t) ∧
    (∃ t, exec (.movDirInd i d) s = .next t ∧ directStored (0x86 + i.setWidth 8) d (indRead i s) s t) ∧
    (∃ t, exec (.movDirImm d imm) s = .next t ∧ directStored 0x75 d imm s t) ∧
    (∃ t, exec (.movDirDir src d) s = .next t ∧ directStored 0x85 d (dirRead src s).2 (dirRead src s).1 t)

/-- R86, R316, R320 to R323, where the address exists: MOVX loads A from external data memory or stores A there, and
nothing else changes; the address is the active DPTR, or the page register with Ri. -/
def Obligations.MovxOfAnExistingAddress : Prop :=
  ∀ (i : BitVec 1) (s : State),
    (s.cfg.xdataOk (sfrGet s.cfg.movxPageSfr s ++ pointer i s) = true →
      (∃ t, exec (.movxAInd i) s = .next t ∧ accOnly (0xE2 + i.setWidth 8)
        (Memory.read unspecByte s.xdata (sfrGet s.cfg.movxPageSfr s ++ pointer i s).toNat) s t) ∧
      (∃ t, exec (.movxIndA i) s = .next t ∧
        t = { s with xdata := t.xdata, tickDelay := s.cfg.cyclesOf (0xF2 + i.setWidth 8) } ∧
        ∀ a : Nat, Memory.read unspecByte t.xdata a =
          if a = (sfrGet s.cfg.movxPageSfr s ++ pointer i s).toNat then acc s else Memory.read unspecByte s.xdata a)) ∧
    (s.cfg.xdataOk (dptr s) = true →
      (∃ t, exec .movxADptr s = .next t ∧ accOnly 0xE0 (Memory.read unspecByte s.xdata (dptr s).toNat) s t) ∧
      (∃ t, exec .movxDptrA s = .next t ∧
        t = { s with xdata := t.xdata, tickDelay := s.cfg.cyclesOf 0xF0 } ∧
        ∀ a : Nat, Memory.read unspecByte t.xdata a =
          if a = (dptr s).toNat then acc s else Memory.read unspecByte s.xdata a))

/-- R86, R320 to R323, R514, where the address does not exist: the XDATA_RANGE record with the address is appended; a
write is discarded; a read loads an unconstrained value into A (log 6, log 7), of which nothing is said. -/
def Obligations.MovxOfAMissingAddress : Prop :=
  ∀ (i : BitVec 1) (s : State),
    (s.cfg.xdataOk (sfrGet s.cfg.movxPageSfr s ++ pointer i s) = false →
      (∃ t, exec (.movxAInd i) s = .next t ∧ sfrsKept [0xE0] s t ∧
        t = { s with
          sfr := t.sfr, freeCount := t.freeCount, tickDelay := s.cfg.cyclesOf (0xE2 + i.setWidth 8),
          faults := s.faults ++
            [⟨.xdataRange, s.previousPc, .address (sfrGet s.cfg.movxPageSfr s ++ pointer i s)⟩] }) ∧
      exec (.movxIndA i) s = .next { s with
        tickDelay := s.cfg.cyclesOf (0xF2 + i.setWidth 8),
        faults := s.faults ++
          [⟨.xdataRange, s.previousPc, .address (sfrGet s.cfg.movxPageSfr s ++ pointer i s)⟩] }) ∧
    (s.cfg.xdataOk (dptr s) = false →
      (∃ t, exec .movxADptr s = .next t ∧ sfrsKept [0xE0] s t ∧
        t = { s with
          sfr := t.sfr, freeCount := t.freeCount, tickDelay := s.cfg.cyclesOf 0xE0,
          faults := s.faults ++ [⟨.xdataRange, s.previousPc, .address (dptr s)⟩] }) ∧
      exec .movxDptrA s = .next { s with
        tickDelay := s.cfg.cyclesOf 0xF0,
        faults := s.faults ++ [⟨.xdataRange, s.previousPc, .address (dptr s)⟩] })

/-- R88, R89, R324, R325: PUSH reads its operand, increments SP and stores at the new SP; POP reads the byte at SP,
decrements SP, then writes the operand. Only a wrap of SP under STACK_CHECK is reported, and the access is made. -/
def Obligations.PushAndPop : Prop :=
  ∀ (d : Byte) (s : State),
    (∃ t u, exec (.push d) s = .next t ∧ pushed (dirRead d s).2 (dirRead d s).1 u ∧
      t = { u with tickDelay := u.cfg.cyclesOf 0xC0 }) ∧
    (∃ t u, exec (.pop d) s = .next t ∧ popped s u ∧ directStored 0xD0 d (iramGet (sp s) s) u t)

/-- R326 to R329: the exchanges swap A (or its low nibble) with a register, an indirect IRAM byte or a direct operand. -/
def Obligations.Exchanges : Prop :=
  ∀ (n : BitVec 3) (i : BitVec 1) (d : Byte) (s : State),
    (∃ t, exec (.xchARn n) s = .next t ∧
      t = { s with sfr := t.sfr, iram := t.iram, tickDelay := s.cfg.cyclesOf (0xC8 + n.setWidth 8) } ∧
      sfrsKept [0xE0] s t ∧ iramKept [regAddr n s] s t ∧ acc t = readReg n s ∧ iramGet (regAddr n s) t = acc s) ∧
    (∃ t, exec (.xchAInd i) s = .next t ∧
      t = { s with sfr := t.sfr, iram := t.iram, tickDelay := s.cfg.cyclesOf (0xC6 + i.setWidth 8) } ∧
      sfrsKept [0xE0] s t ∧ iramKept [pointer i s] s t ∧ acc t = indRead i s ∧ iramGet (pointer i s) t = acc s) ∧
    (∃ t, exec (.xchdAInd i) s = .next t ∧
      t = { s with sfr := t.sfr, iram := t.iram, tickDelay := s.cfg.cyclesOf (0xD6 + i.setWidth 8) } ∧
      sfrsKept [0xE0] s t ∧ iramKept [pointer i s] s t ∧
      (acc t).toNat = (acc s).toNat / 16 * 16 + (indRead i s).toNat % 16 ∧
      (iramGet (pointer i s) t).toNat = (indRead i s).toNat / 16 * 16 + (acc s).toNat % 16) ∧
    (∃ t u, exec (.xchADir d) s = .next t ∧ storedDirect d (acc (dirRead d s).1) (dirRead d s).1 u ∧
      accOnly 0xC5 (dirRead d s).2 u t)

/-! ## Boolean instructions -/

/-- R350, R352, R354, R356 to R360: the carry operations change CY alone; a bit operand is read once through its hook.
That CY is read after the bit is the model's order (log 19). -/
def Obligations.CarryOperations : Prop :=
  ∀ (b : Byte) (s u : State) (v : Bool), bitRead b s = (u, v) →
    (∃ t, exec .clrC s = .next t ∧ carryOnly 0xC3 false s t) ∧
    (∃ t, exec .setbC s = .next t ∧ carryOnly 0xD3 true s t) ∧
    (∃ t, exec .cplC s = .next t ∧ carryOnly 0xB3 (!cy s) s t) ∧
    (∃ t, exec (.anlCBit b) s = .next t ∧ carryOnly 0x82 (cy u && v) u t) ∧
    (∃ t, exec (.anlCNotBit b) s = .next t ∧ carryOnly 0xB0 (cy u && !v) u t) ∧
    (∃ t, exec (.orlCBit b) s = .next t ∧ carryOnly 0x72 (cy u || v) u t) ∧
    (∃ t, exec (.orlCNotBit b) s = .next t ∧ carryOnly 0xA0 (cy u || !v) u t) ∧
    (∃ t, exec (.movCBit b) s = .next t ∧ carryOnly 0xA2 v u t)

/-- R351, R353, R355, R361: a bit is cleared, set, complemented or loaded from CY by one read and one write of its byte,
whose other bits stay. That MOV bit,C takes CY before the read hook of the byte runs is the model's order (log 19). -/
def Obligations.BitWrites : Prop :=
  ∀ (b : Byte) (s : State),
    (∃ t, exec (.clrBit b) s = .next t ∧ bitStored 0xC2 b (fun _ => false) s t) ∧
    (∃ t, exec (.setbBit b) s = .next t ∧ bitStored 0xD2 b (fun _ => true) s t) ∧
    (∃ t, exec (.cplBit b) s = .next t ∧ bitStored 0xB2 b (fun x => !x) s t) ∧
    (∃ t, exec (.movBitC b) s = .next t ∧ bitStored 0x92 b (fun _ => cy s) s t)

/-- R364 to R366: JB and JNB read the bit and branch; JBC reads its byte once, and when the bit is 1 writes it back as 0
and branches, else writes nothing. -/
def Obligations.BitBranches : Prop :=
  ∀ (b : Byte) (rel : Int) (s u : State) (w : Byte), dirRead (bitLoc b).1 s = (u, w) →
    (∃ t, exec (.jb b rel) s = .next t ∧ branched 0x20 (bitOf w (bitLoc b).2) rel u t) ∧
    (∃ t, exec (.jnb b rel) s = .next t ∧ branched 0x30 (!bitOf w (bitLoc b).2) rel u t) ∧
    (bitOf w (bitLoc b).2 = true → ∃ t x z, exec (.jbc b rel) s = .next t ∧
      (∀ j, bitOf x j = if j = (bitLoc b).2 then false else bitOf w j) ∧ storedDirect (bitLoc b).1 x u z ∧
      pcOnly 0x10 (relAddr rel u) z t) ∧
    (bitOf w (bitLoc b).2 = false → exec (.jbc b rel) s = .next { u with tickDelay := u.cfg.cyclesOf 0x10 })

/-! ## Program branching instructions -/

/-- R362, R363, R404 to R409, R416, R420, R421: the jumps, the branches on CY and on A, and NOP change pc alone; every
target is reduced modulo CODE_SIZE, and the page of AJMP is that of the next instruction. -/
def Obligations.JumpsAndBranches : Prop :=
  ∀ (a : BitVec 11) (w : Addr) (rel : Int) (s : State),
    (∃ t, exec (.ajmp a) s = .next t ∧ pcOnly ((a.extractLsb' 8 3).setWidth 8 * 0x20 + 0x01)
      (BitVec.ofNat 16 ((s.pc.toNat / 0x800 * 0x800 + a.toNat) % s.cfg.codeSize)) s t) ∧
    (∃ t, exec (.ljmp w) s = .next t ∧ pcOnly 0x02 (BitVec.ofNat 16 (w.toNat % s.cfg.codeSize)) s t) ∧
    (∃ t, exec (.sjmp rel) s = .next t ∧ branched 0x80 true rel s t) ∧
    (∃ t, exec .jmpADptr s = .next t ∧
      pcOnly 0x73 (BitVec.ofNat 16 (((acc s).toNat + (dptr s).toNat) % s.cfg.codeSize)) s t) ∧
    (∃ t, exec (.jc rel) s = .next t ∧ branched 0x40 (cy s) rel s t) ∧
    (∃ t, exec (.jnc rel) s = .next t ∧ branched 0x50 (!cy s) rel s t) ∧
    (∃ t, exec (.jz rel) s = .next t ∧ branched 0x60 (decide (acc s = 0)) rel s t) ∧
    (∃ t, exec (.jnz rel) s = .next t ∧ branched 0x70 (decide (acc s ≠ 0)) rel s t) ∧
    (∃ t, exec .nop s = .next t ∧ pcOnly 0x00 s.pc s t)

/-- R90(a), R400 to R402: a call pushes the low byte, then the high byte of the next instruction's address, and sets pc; RET
pops the high byte, then the low byte, into pc, and leaves the interrupt stack. -/
def Obligations.CallsAndReturn : Prop :=
  ∀ (a : BitVec 11) (w : Addr) (s : State),
    (∃ t u x, exec (.acall a) s = .next t ∧ pushed (s.pc.extractLsb' 0 8) s u ∧ pushed (s.pc.extractLsb' 8 8) u x ∧
      pcOnly ((a.extractLsb' 8 3).setWidth 8 * 0x20 + 0x11)
        (BitVec.ofNat 16 ((s.pc.toNat / 0x800 * 0x800 + a.toNat) % s.cfg.codeSize)) x t) ∧
    (∃ t u x, exec (.lcall w) s = .next t ∧ pushed (s.pc.extractLsb' 0 8) s u ∧ pushed (s.pc.extractLsb' 8 8) u x ∧
      pcOnly 0x12 (BitVec.ofNat 16 (w.toNat % s.cfg.codeSize)) x t) ∧
    (∃ t u x, exec .ret s = .next t ∧ popped s u ∧ popped u x ∧
      pcOnly 0x22 (BitVec.ofNat 16
        (((iramGet (sp s) s).toNat * 256 + (iramGet (sp s - 1) s).toNat) % s.cfg.codeSize)) x t)

/-- R410 to R413: the compare branches set CY to "less than, unsigned", branch when the operands differ and change nothing
else. A direct operand is read first, as the pseudocode of R410 has it. -/
def Obligations.CompareBranches : Prop :=
  ∀ (n : BitVec 3) (i : BitVec 1) (d imm : Byte) (rel : Int) (s : State),
    (∃ t, exec (.cjneADir d rel) s = .next t ∧
      compared 0xB5 (acc (dirRead d s).1) (dirRead d s).2 rel (dirRead d s).1 t) ∧
    (∃ t, exec (.cjneAImm imm rel) s = .next t ∧ compared 0xB4 (acc s) imm rel s t) ∧
    (∃ t, exec (.cjneRnImm n imm rel) s = .next t ∧ compared (0xB8 + n.setWidth 8) (readReg n s) imm rel s t) ∧
    (∃ t, exec (.cjneIndImm i imm rel) s = .next t ∧ compared (0xB6 + i.setWidth 8) (indRead i s) imm rel s t)

/-- R414, R415: the decrement branches store the operand less 1, branch when that is not 0, and write no flag. -/
def Obligations.DecrementBranches : Prop :=
  ∀ (n : BitVec 3) (d : Byte) (rel : Int) (s : State),
    (∃ t, exec (.djnzRn n rel) s = .next t ∧
      t = { s with
        iram := t.iram, tickDelay := s.cfg.cyclesOf (0xD8 + n.setWidth 8),
        pc := if readReg n s = 1 then s.pc else relAddr rel s } ∧
      iramGet (regAddr n s) t = readReg n s - 1 ∧ iramKept [regAddr n s] s t) ∧
    (∃ t u, exec (.djnzDir d rel) s = .next t ∧ storedDirect d ((dirRead d s).2 - 1) (dirRead d s).1 u ∧
      pcOnly 0xD5 (if (dirRead d s).2 = 1 then u.pc else relAddr rel u) u t)

/-! ## Interrupts -/

/-- R403, R526: RETI inside a handler pops the level, appends the mismatch records of a strict return, pops pc (high byte
first), costs CYCLES(0x32) plus the preempted remainder, and sets irq_recheck; with no active handler it is RET that sets
irq_recheck. A record holds eight register bytes: StepKeepsInterruptStack. -/
def Obligations.ReturnFromInterrupt : Prop :=
  ∀ (l : IrqLevel) (rest : List IrqLevel) (s : State),
    (s.irqStack = l :: rest → l.r.length = 8 → ∃ t u x, exec .reti s = .next t ∧
      popped { s with
        irqStack := rest, faults := s.faults ++ if s.cfg.strictIret then iretFaults l s else [] } u ∧
      popped u x ∧
      t = { x with
        pc := BitVec.ofNat 16
          (((iramGet (sp s) s).toNat * 256 + (iramGet (sp s - 1) s).toNat) % s.cfg.codeSize)
        tickDelay := s.cfg.cyclesOf 0x32 + l.savedDelay
        irqRecheck := true }) ∧
    (s.irqStack = [] → ∃ t u x, exec .reti s = .next t ∧ popped s u ∧ popped u x ∧
      t = { x with
        pc := BitVec.ofNat 16
          (((iramGet (sp s) s).toNat * 256 + (iramGet (sp s - 1) s).toNat) % s.cfg.codeSize)
        tickDelay := s.cfg.cyclesOf 0x32
        irqRecheck := true })

/-- R520, R521, R528: arbitration dispatches exactly an enabled pending source of the highest priority, the earliest of the
table among equals, when EA is set, that priority exceeds the innermost handler's and fewer than four handlers are active;
else it only clears irq_recheck. -/
def Obligations.ArbitrationDispatchesTheBestSource : Prop :=
  ∀ s : State,
    (∃ (k : Nat) (x : IrqSource), s.cfg.irqTable[k]? = some x ∧ irqEnabled s = true ∧
      evalCond s x.enabled = true ∧ evalCond s x.pending = true ∧
      (∀ (j : Nat) (y : IrqSource), s.cfg.irqTable[j]? = some y → evalCond s y.enabled = true →
        evalCond s y.pending = true → sourcePriority s y ≤ sourcePriority s x ∧
          (j < k → sourcePriority s y < sourcePriority s x)) ∧
      (∀ l ∈ s.irqStack.head?, l.priority < sourcePriority s x) ∧ s.irqStack.length < 4 ∧
      arbitrate s = dispatch x (sourcePriority s x) s) ∨
    ((irqEnabled s = false ∨ 4 ≤ s.irqStack.length ∨
      ∀ y ∈ s.cfg.irqTable, evalCond s y.enabled = true → evalCond s y.pending = true →
        ∃ l ∈ s.irqStack.head?, sourcePriority s y ≤ l.priority) ∧
      arbitrate s = { s with irqRecheck := false })

/-- R522, R523: dispatch pushes pc low byte first, jumps to the vector, charges IRQ_LATENCY, records the snapshot taken
after the pushes with the preempted remainder, then clears the source's auto-clear bit without a hook; EA and the other
enables, A, the flags and all else stay. -/
def Obligations.DispatchSavesAndVectors : Prop :=
  ∀ (x : IrqSource) (p : BitVec 2) (s : State), ∃ u w t,
    pushed (s.pc.extractLsb' 0 8) s u ∧ pushed (s.pc.extractLsb' 8 8) u w ∧
    t = { w with
      pc := BitVec.ofNat 16 (x.vector.toNat % s.cfg.codeSize), tickDelay := s.cfg.irqLatency,
      irqStack := ⟨p, acc w, psw w, sp w, sfrGet 0x82 w, sfrGet 0x83 w, sfrGet s.cfg.dpl1Addr w,
        sfrGet s.cfg.dph1Addr w, sfrGet s.cfg.dpsAddr w, bankBytes w, s.tickDelay⟩ :: s.irqStack } ∧
    (dispatch x p s = { t with sfr := (dispatch x p s).sfr }) ∧
    (x.autoClear = none → dispatch x p s = t) ∧
    (∀ (d : Byte) (b : BitVec 3), x.autoClear = some (d, b) → sfrsKept [d] t (dispatch x p s) ∧
      ∀ j, bitOf (sfrGet d (dispatch x p s)) j = if j = b then false else bitOf (sfrGet d t) j)

/-- R501(2), R529, R533: in a cycle whose arbitration dispatches, no instruction is fetched: the cycle is the dispatch, then
the count-down, the hardware tick, the clock and the fault policy; the trace sink receives no record (R580). -/
def Obligations.InterruptTakenBetweenInstructions : Prop :=
  ∀ (x : IrqSource) (p : BitVec 2) (s : State), mayCycle s → s.irqRecheck = true → irqChoice s = some (x, p) →
    0 < s.cfg.irqLatency → step s = .next (finishCycle s.faults.length (dispatch x p s)) ∧ traceOf s = none

/-- R525: where irq_recheck is sound (recheckOk), the gated arbitration of a cycle and an arbitration in every cycle leave
the same state up to irq_recheck itself. -/
def Obligations.GatedArbitrationIsExact : Prop :=
  ∀ s : State, recheckOk s = true →
    { interruptCheck s with irqRecheck := false } = { arbitrate s with irqRecheck := false }

/-- R524, R525: every step keeps irq_recheck sound: it is set whenever arbitration would dispatch. It rests on the model's
choice to keep the duty of R564 for every peripheral, in write handlers and tick routines and in read handlers too, which
R564 does not name (log 9). -/
def Obligations.StepKeepsRecheckSound : Prop :=
  ∀ s t : State, s.cfg.wellFormed = true → recheckOk s = true → step s = .next t → recheckOk t = true

/-- R522, R526: a handler that is one RETI returns to the interrupted place: pc, SP, the nesting and the remainder are as
before the dispatch, and with SP low enough nothing is reported. The source's auto-clear bit is no bit of a register that
RETI checks. -/
def Obligations.DispatchThenRetiReturns : Prop :=
  ∀ (x : IrqSource) (p : BitVec 2) (s : State), s.cfg.wellFormed = true → pcOk s = true →
    (∀ d b, x.autoClear = some (d, b) → d ∉ s.cfg.implicitSfrs) →
    ∃ t, exec .reti (dispatch x p s) = .next t ∧ t.pc = s.pc ∧ sp t = sp s ∧ t.irqStack = s.irqStack ∧
      t.tickDelay = s.cfg.cyclesOf 0x32 + s.tickDelay ∧ t.irqRecheck = true ∧
      ((sp s).toNat ≤ 0xFD → t.faults = s.faults)

/-! ## The cycle -/

/-- R505, R506, R501, R580: when the unit may take a cycle, arbitration dispatches nothing, no remainder is left and no
breakpoint stands at pc, and the bytes at pc decode to instruction i, step runs i (irq_recheck being clear): pc moves past
its bytes, previous_pc takes its address, i is executed, then come the parity epilogue, the count-down, the hardware tick,
the clock and the fault policy; the trace sink receives the clock value of the cycle, the address and bytes of i, and A,
PSW, SP and DPTR as the epilogue leaves them. Every step that answers a next state either emits one such record, or emits
none and fetches nothing, previous_pc staying. -/
def Obligations.StepRunsDecodedInstruction : Prop :=
  (∀ (i : Instr) (rest bytes : List Byte) (s : State), mayCycle s → (s.irqRecheck = true → irqChoice s = none) →
    s.tickDelay ≤ 0 →
    s.cfg.breakpoints.contains s.pc = false →
    bytes = [codeRead s.pc.toNat s, codeRead (s.pc.toNat + 1) s, codeRead (s.pc.toNat + 2) s] →
    decode bytes = .ok (i, rest) →
    ∀ t, exec i { s with
      irqRecheck := false,
      previousPc := s.pc,
      pc := BitVec.ofNat 16 ((s.pc.toNat + (encode i).length) % s.cfg.codeSize) } = .next t →
    step s = .next (finishCycle s.faults.length (epilogue t)) ∧
    traceOf s = some ⟨s.ticks, s.pc, bytes.take (encode i).length, acc (epilogue t), psw (epilogue t),
      sp (epilogue t), dptr (epilogue t)⟩) ∧
  ∀ s t : State, step s = .next t →
    (traceOf s = none ∧ t.previousPc = s.previousPc) ∨
    ∃ r, traceOf s = some r ∧ r.ticks = s.ticks ∧ r.previousPc = t.previousPc

/-- R507, R403: every instruction leaves in tick_delay the cost CYCLES(op) of its opcode byte, RETI inside a handler that
cost plus the preempted remainder; with legal parameters CYCLES(op) lies in 1..6. -/
def Obligations.InstructionCost : Prop :=
  ∀ (i : Instr) (s : State), ∃ t, exec i s = .next t ∧
    t.tickDelay = s.cfg.cyclesOf (opcodeOf i) +
      (match i, s.irqStack with
        | .reti, l :: _ => l.savedDelay
        | _, _ => 0) ∧
    (s.cfg.wellFormed = true → 1 ≤ s.cfg.cyclesOf (opcodeOf i) ∧ s.cfg.cyclesOf (opcodeOf i) ≤ 6)

/-- R506: while PARITY_TRACKING the epilogue puts the exclusive or of A's bits into PSW[0] and changes nothing else;
otherwise it changes nothing. -/
def Obligations.EpilogueSetsParity : Prop :=
  ∀ s : State,
    (s.cfg.parityTracking = true → epilogue s = { s with sfr := (epilogue s).sfr } ∧
      sfrsKept [0xD0] s (epilogue s) ∧ pswKept [0] s (epilogue s) ∧
      bitOf (psw (epilogue s)) 0 = (((List.finRange 8).map fun k => (acc s).getLsbD k.val).foldl xor false)) ∧
    (s.cfg.parityTracking = false → epilogue s = s)

/-- R501, R508, R513, R571, R582: a halted unit takes no cycle, and one that reads its run flag clear before a cycle takes
none. A unit inside the wait of SyncCheck has begun its cycle: while `waiting` is true it is stuck on its driver, neither
ended nor halted, whatever its run flag is. That step answers with a stop by name is the model's choice (log 13), that a
stuck unit's step leaves its state is (log 14), and so is the refusal at the end of u64 (R548, log 15). -/
def Obligations.HaltedOrStoppedUnitTakesNoCycle : Prop :=
  ∀ s : State,
    (s.halted = true → step s = .fault .unitHalted) ∧
    (s.halted = false → s.runFlag = false → (∀ y ∈ s.sync, y.blocked = false) → step s = .fault .runFlagClear) ∧
    (∀ y : Sync, s.sync = some y → s.halted = false → y.blocked = true → y.waiting = true → step s = .next s) ∧
    (∀ u : State, s.halted = false → s.runFlag = true → syncCheck s = .run u → Tick.inf - 1 ≤ s.ticks →
      step s = .refused .clockLimit)

/-- R504, R580: at a breakpoint the BREAKPOINT record with the pc of the instruction not yet executed is appended; with
CONTINUE false the unit halts at once and the rest of the cycle is not performed, and no trace record is emitted; with
CONTINUE true the cycle continues with the fetch. Step (2), which dispatches nothing here, has cleared irq_recheck. That
the record's detail is none, as the table of R510 has it against R504's own raise, is the model's reading (log 25). -/
def Obligations.BreakpointCheck : Prop :=
  ∀ s : State, mayCycle s → (s.irqRecheck = true → irqChoice s = none) → s.tickDelay ≤ 0 →
    s.pc ∈ s.cfg.breakpoints →
    (s.cfg.continues .breakpoint = false → traceOf s = none ∧
      step s = .next { s with
        irqRecheck := false, faults := s.faults ++ [⟨.breakpoint, s.pc, .none⟩], halted := true }) ∧
    (s.cfg.continues .breakpoint = true →
      step s = executeInstr s.faults.length { s with
        irqRecheck := false, faults := s.faults ++ [⟨.breakpoint, s.pc, .none⟩] })

/-- R549, a sentence the spec marks as derived: under the stated conditions k single cycles add k to ticks, subtract k from
tick_delay and change nothing else. -/
def Obligations.FastForwardIsKCycles : Prop :=
  ∀ (k : Nat) (s : State), s.halted = false → s.runFlag = true → s.irqRecheck = false → s.needHwTick = false →
    (k : Int) < s.tickDelay → s.ticks.toNat + k < Tick.inf.toNat →
    (∀ p ∈ s.peripherals, ∀ w ∈ p.wakeTimes, s.ticks.toNat + k ≤ w.toNat) →
    (∀ y ∈ s.sync, y.blocked = false ∧ s.ticks.toNat + k ≤ y.deadline.toNat) →
    Sys2Proof.core.run k s = .next { s with ticks := s.ticks + BitVec.ofNat 64 k, tickDelay := s.tickDelay - k }

/-- R540, R548, R504, R571: a step that answers a next state adds one to ticks, but for the wait in SyncCheck and a halting
breakpoint, which leave it; ticks never reaches 2^64 - 1. -/
def Obligations.ClockAdvancesByOne : Prop :=
  ∀ s t : State, step s = .next t →
    (t.ticks = s.ticks + 1 ∧ t.ticks < Tick.inf) ∨
    (t.ticks = s.ticks ∧ (∃ y ∈ t.sync, y.waiting = true ∧ y.blocked = true)) ∨
    (t.ticks = s.ticks ∧ t.halted = true ∧ ∃ f ∈ t.faults.drop s.faults.length, f.kind = .breakpoint)

/-- R50, R511, R513: a step only appends to the fault log, and it halts the unit exactly when one of the appended records
has CONTINUE(kind) false. -/
def Obligations.FaultPolicy : Prop :=
  ∀ s t : State, step s = .next t → ∃ fs, t.faults = s.faults ++ fs ∧
    t.halted = fs.any fun f => decide (f.kind ∈ s.cfg.stopOn)

/-- R81, R100: with no peripheral attached no step writes code memory, whatever the instruction. -/
def Obligations.CodeMemoryIsReadOnly : Prop :=
  ∀ s t : State, s.peripherals = [] → step s = .next t → t.code = s.code

/-- R562, R561, R565: hardware_tick does nothing while no attention is asked for and no Deadline has passed. Otherwise it
clears need_hw_tick and gives each peripheral its turn in list order, each from the state the turns before it left: with
attention every tick routine runs, else exactly those of the peripherals with a passed Deadline, whose passed operations
end (R566); then it derives the bus. need_hw_tick is clear after it. The bus takes the driver's byte when one device drives
it, the idle value when none does, or an unconstrained draw where that value is UNSPEC; two drivers are reported as
contention, the bus then being an unconstrained draw; of the draws nothing is said (log 7). A write of a port register asks
for a hardware tick; that any other handler either asks for one or leaves its device's bus output is the model's choice
(log 31). -/
def Obligations.HardwareTickAndBus : Prop :=
  ∀ s : State,
    (s.needHwTick = false → (∀ p ∈ s.peripherals, ∀ w ∈ p.wakeTimes, s.ticks < w) → hardwareTick s = s) ∧
    (s.needHwTick = true ∨ (∃ p ∈ s.peripherals, ∃ w ∈ p.wakeTimes, w ≤ s.ticks) →
      ∃ us : List State, ∃ z, us.length = s.peripherals.length + 1 ∧ us[0]? = some { s with needHwTick := false } ∧
        us.getLast? = some z ∧ hardwareTick s = deriveBus z ∧
        ∀ (k : Nat) (u v : State) (p : Peripheral), us[k]? = some u → us[k + 1]? = some v →
          s.peripherals[k]? = some p → u.peripherals[k]? = some p ∧
          (s.needHwTick = true ∨ (∃ w ∈ p.wakeTimes, w ≤ s.ticks) →
            v = applyEffect k (completed s.ticks p) ((tickRoutine p u).map withoutAttention)
              (completeOperations k u)) ∧
          (s.needHwTick = false → (∀ w ∈ p.wakeTimes, s.ticks < w) → v = u)) ∧
    (hardwareTick s).needHwTick = false ∧
    (∀ (k : Nat) (p : Peripheral), s.peripherals[k]? = some p → p.outEnable = true →
      (∀ (j : Nat) (q : Peripheral), s.peripherals[j]? = some q → q.outEnable = true → j = k) →
      deriveBus s = { s with bus := p.outByte }) ∧
    (∀ v : Byte, (∀ p ∈ s.peripherals, p.outEnable = false) → s.cfg.busIdle = some v →
      deriveBus s = { s with bus := v }) ∧
    ((∀ p ∈ s.peripherals, p.outEnable = false) → s.cfg.busIdle = none →
      deriveBus s = { s with bus := (deriveBus s).bus, freeCount := (deriveBus s).freeCount }) ∧
    (∀ (j k : Nat) (p q : Peripheral), j < k → s.peripherals[j]? = some p → s.peripherals[k]? = some q →
      p.outEnable = true → q.outEnable = true → ∃ ks : List Nat, j ∈ ks ∧ k ∈ ks ∧
        (∀ m, m ∈ ks ↔ ∃ r, s.peripherals[m]? = some r ∧ r.outEnable = true) ∧
        deriveBus s = { s with
          bus := (deriveBus s).bus, freeCount := (deriveBus s).freeCount,
          faults := s.faults ++ [⟨.busContention, s.previousPc, .drivers ks⟩] }) ∧
    ∀ (d v : Byte) (k : Nat) (p : Peripheral) (t : State), 0x80#8 ≤ d → ownerOf d s = some (k, p) →
      (t = dirWrite d v s → d ∈ p.ports → t.needHwTick = true) ∧
      (t = dirWrite d v s ∨ t = (dirRead d s).1 → t.needHwTick = true ∨
        ∃ q, t.peripherals[k]? = some q ∧ q.outEnable = p.outEnable ∧ q.outByte = p.outByte)

/-- R543 to R546: set keeps the minimum, reset gives INF, reset_to forces the value, a Deadline has passed from its time on,
and remaining is the time left or 0. R547, which the spec marks as derived: remaining does not grow as the clock advances,
and a Deadline that has passed stays passed. R566: a peripheral's command to a resource that is free when its action comes
marks it busy until a Deadline that many ticks ahead; a command to a busy resource is discarded with a PERIPHERAL_BUSY
record. R515: that record, and the record of a fault a handler or tick routine raises, stand at their place in the order of
the raises, whatever actions come before and after, all of which have the effect they would have without it. An operation
whose Deadline has passed makes its peripheral due, and the peripheral's turn in the hardware tick ends exactly the passed
operations, and starts only those of the tick routine's commands. That the resource is busy up to that turn, and that an
effect is a list of actions, is the model's choice (log 8, log 29). -/
def Obligations.DeadlineOperations : Prop :=
  (∀ w t now later : Tick,
    (deadlineSet w t).toNat = min w.toNat t.toNat ∧ (deadlineReset w).toNat = 2 ^ 64 - 1 ∧ deadlineResetTo w t = t ∧
    (deadlinePassed now w = true ↔ w.toNat ≤ now.toNat) ∧ (deadlineRemaining now w).toNat = w.toNat - now.toNat ∧
    (now ≤ later → deadlineRemaining later (deadlineSet w t) ≤ deadlineRemaining now w ∧
      (deadlinePassed now w = true → deadlinePassed later w = true)) ∧
    (now < Tick.inf → deadlinePassed now Tick.inf = false)) ∧
  ∀ (k : Nat) (p : Peripheral) (s : State), s.peripherals[k]? = some p →
    applyEffect k p [] s = s ∧
    (∀ (e : DeviceEffect) (c : DeviceCommand) (starts : DeviceChange) (q : Peripheral),
      (applyEffect k p e s).peripherals[k]? = some q → (∀ o ∈ q.operations, o.resource ≠ c.resource) →
        ∃ o r, (applyEffect k p (e ++ [.command c starts]) s).peripherals[k]? = some r ∧
          r.operations = q.operations ++ [o] ∧ o.resource = c.resource ∧
          o.wakeAt.toNat = min (s.ticks.toNat + c.duration) (2 ^ 64 - 1) ∧
          (applyEffect k p (e ++ [.command c starts]) s).faults = (applyEffect k p e s).faults) ∧
    (∀ (before after : DeviceEffect) (a : DeviceAction) (kind : FaultKind) (detail : List Byte),
      (∃ f, a = .report f detail ∧ kind = peripheralFaultKind f) ∨
        (∃ c starts q o, a = .command c starts ∧ (applyEffect k p before s).peripherals[k]? = some q ∧
          o ∈ q.operations ∧ o.resource = c.resource ∧ kind = .peripheralBusy ∧ detail = c.detail) →
      ∃ rs, (applyEffect k p (before ++ after) s).faults = (applyEffect k p before s).faults ++ rs ∧
        applyEffect k p (before ++ a :: after) s = { applyEffect k p (before ++ after) s with
          faults := (applyEffect k p before s).faults ++ ⟨kind, s.previousPc, .device detail⟩ :: rs }) ∧
    ((∃ o ∈ p.operations, o.wakeAt ≤ s.ticks) → due s p = true) ∧
    ∀ attention : Bool, attention = true ∨ due s p = true →
      ∃ q new, (tickPeripheral attention s k).peripherals[k]? = some q ∧
        q.operations = (p.operations.filter fun o => decide (s.ticks < o.wakeAt)) ++ new ∧
        ∀ o ∈ new, ∃ c starts, .command c starts ∈ tickRoutine p s ∧ o.resource = c.resource ∧
          o.wakeAt.toNat = min (s.ticks.toNat + c.duration) (2 ^ 64 - 1)

/-! ## Reset and invariants -/

/-- R700, R70: a full CPU reset with legal parameters leaves every listed register at its value, no active handler, an empty
fault log, every Deadline at INF, and code memory as it was. That no self-timed operation is under way is the model's
choice (log 29), and what a reset of a running unit keeps is its reading (log 18). -/
def Obligations.ResetLeavesListedValues : Prop :=
  ∀ s t : State, s.cfg.wellFormed = true → t = cpuReset s →
    (t.pc = 0 ∧ t.previousPc = 0 ∧ t.tickDelay = 0 ∧ t.irqStack = [] ∧ t.irqRecheck = false ∧
      t.needHwTick = false ∧ t.faults = [] ∧ t.halted = false ∧ t.code = s.code) ∧
    (sfrGet 0xE0 t = 0 ∧ sfrGet 0xF0 t = 0 ∧ sfrGet 0xD0 t = 0 ∧ sfrGet 0x81 t = 0x07 ∧ sfrGet 0x82 t = 0 ∧
      sfrGet 0x83 t = 0 ∧ sfrGet s.cfg.dpl1Addr t = 0 ∧ sfrGet s.cfg.dph1Addr t = 0 ∧ sfrGet s.cfg.dpsAddr t = 0 ∧
      sfrGet 0xA8 t = 0) ∧
    (sfrGet 0x80 t = 0xFF ∧ sfrGet 0x90 t = 0xFF ∧ sfrGet 0xA0 t = 0xFF ∧ sfrGet 0xB0 t = 0xFF) ∧
    (∀ p ∈ t.peripherals, p.operations = [] ∧ ∀ w ∈ p.deadlines, w = Tick.inf)

/-- The reset state meets every invariant: legal parameters, canonical memories, pc in code memory, a sound interrupt stack,
no negative remainder, the clock in range, irq_recheck and the rendezvous state sound (the parameters of reset are the model's choice, log 1). -/
def Obligations.ResetMeetsTheInvariants : Prop := stateOk State.reset = true

/-- R80, R30: every step keeps the four memories in their canonical form inside their address spaces. -/
def Obligations.StepKeepsMemoriesCanonical : Prop :=
  ∀ s t : State, s.cfg.wellFormed = true → memoriesOk s = true → step s = .next t → memoriesOk t = true

/-- R35, R36: every step keeps pc and previous_pc inside code memory. -/
def Obligations.StepKeepsPcInCode : Prop := ∀ s t : State, pcOk s = true → step s = .next t → pcOk t = true

/-- R46, R48, R527: every step keeps at most four active handlers, their priorities strictly rising inwards, eight register
bytes in every record, and no remainder negative. -/
def Obligations.StepKeepsInterruptStack : Prop :=
  ∀ s t : State, s.cfg.wellFormed = true → irqStackOk s = true → delaysOk s = true → step s = .next t →
    irqStackOk t = true ∧ delaysOk t = true

/-- R30, R508, R560, R571, R574, R583: no step changes a parameter, the run flag, which devices are attached and what is
fixed of them, whether a synchronizer is attached, or whether an event window is open; and every step keeps the rendezvous
state sound: a unit that is waiting is inside the wait of SyncCheck, and while a window is open the unit is waiting. The
driver's calls keep it sound too; that they are functions on the unit's state is the model's choice (log 21). -/
def Obligations.StepKeepsParametersAndAttachments : Prop :=
  (∀ s t : State, step s = .next t → t.cfg = s.cfg ∧ t.runFlag = s.runFlag ∧ t.sync.isSome = s.sync.isSome ∧
    t.peripherals.map attachment = s.peripherals.map attachment ∧ windowOpen t = windowOpen s ∧
    (syncOk s = true → syncOk t = true)) ∧
  ∀ (d n : Tick) (s : State), syncOk s = true → syncOk (endEvent n s) = true ∧
    (∀ t, beginEvent d s = .next t → syncOk t = true) ∧ ∀ t, beginEventAt d s = .next t → syncOk t = true

/-! ## Rendezvous and loader -/

/-- R571, R573, R574, R582, R583: an attached unit that reached its deadline enters the wait and takes no step while
`waiting` is true, whatever its run flag is; end_event releases it, and the cycle it has begun then continues, whatever the
new deadline and the run flag are. Outside an open window the driver's two writes are refused, and so is a write of a bit
that no source's pending predicate reads; in a window they set that request bit, or the state of that peripheral, and
irq_recheck, and change nothing else but need_hw_tick. That a waiting unit's step leaves its state is the model's choice
(log 14), and so are the form of the driver's writes and their refusals (log 21, log 33) and need_hw_tick (log 31). -/
def Obligations.SyncCheckBlocksTheUnit : Prop :=
  ∀ (s : State) (y : Sync), s.sync = some y → s.halted = false →
    (y.blocked = false → s.runFlag = true → y.deadline ≤ s.ticks →
      step s = .next { s with sync := some { y with waiting := true, blocked := true } }) ∧
    (y.blocked = true → y.waiting = true → step s = .next s ∧
      ∀ n : Tick, s.ticks < Tick.inf - 1 →
        step (endEvent n s) = cycleBody { s with sync := some ⟨n, false, false, false⟩ }) ∧
    (y.blocked = false → s.runFlag = true → s.ticks < y.deadline → s.ticks < Tick.inf - 1 → step s = cycleBody s) ∧
    ∀ (d : Byte) (b : BitVec 3) (v : Bool) (k : Nat) (q : Peripheral),
      (y.inWindow = false → windowRequest d b v s = .refused .driverDuty ∧
        windowDevice k q s = .refused .driverDuty) ∧
      ((∀ x ∈ s.cfg.irqTable, (d, b) ∉ condBits x.pending) → windowRequest d b v s = .refused .driverDuty) ∧
      (y.inWindow = true → 0x80#8 ≤ d → (∃ x ∈ s.cfg.irqTable, (d, b) ∈ condBits x.pending) →
        ∃ t, windowRequest d b v s = .next t ∧ t = { s with sfr := t.sfr, irqRecheck := true } ∧ sfrsKept [d] s t ∧
          ∀ j, bitOf (sfrGet d t) j = if j = b then v else bitOf (sfrGet d s) j) ∧
      (y.inWindow = true → ∃ t, windowDevice k q s = .next t ∧
        t = { s with peripherals := t.peripherals, needHwTick := t.needHwTick, irqRecheck := true } ∧
        (∀ j, j ≠ k → t.peripherals[j]? = s.peripherals[j]?) ∧
        ∀ p, s.peripherals[k]? = some p → ∃ r, t.peripherals[k]? = some r ∧ attachment r = attachment p ∧
          r.bytes = q.bytes ∧ r.wakeTimes = q.wakeTimes ∧ r.outEnable = q.outEnable ∧ r.outByte = q.outByte ∧
          (r.outEnable ≠ p.outEnable ∨ r.outByte ≠ p.outByte → t.needHwTick = true))

/-- R574 to R576: begin_event_at(D) refuses a D below the unit's ticks; when it returns, ticks reads exactly D, the window
is open, and the unit takes no step in it. A begin_event that returns opens the window, the unit waiting. The premise is
the invariant of StepKeepsParametersAndAttachments. That the driver's calls are functions which run the unit by a bounded
number of steps and refuse past it is the model's choice (log 21). -/
def Obligations.BeginEventAtIsExact : Prop :=
  ∀ (d : Tick) (s : State), syncOk s = true →
    (d < s.ticks → beginEventAt d s = .refused .deadlineInPast) ∧
    (∀ t, beginEvent d s = .next t → windowOpen t = true ∧ unitWaits t = true) ∧
    ∀ t, beginEventAt d s = .next t → t.ticks = d ∧ windowOpen t = true ∧ ∀ u, step t = .next u → u = t

/-- R576, the call returns: for a unit that counts down the remainder of an instruction, with nothing due before D,
begin_event_at(D) brings it to D in its window, with the cycles counted and nothing else changed. That the call is a
function which runs the unit by a bounded number of steps is the model's choice (log 21). -/
def Obligations.BeginEventAtReturns : Prop :=
  ∀ (k : Nat) (w : Tick) (s : State), s.sync = some ⟨w, false, false, false⟩ →
    s.halted = false → s.runFlag = true → s.irqRecheck = false → s.needHwTick = false → (k : Int) < s.tickDelay →
    s.ticks.toNat + k < Tick.inf.toNat →
    (∀ p ∈ s.peripherals, ∀ w ∈ p.wakeTimes, s.ticks.toNat + k ≤ w.toNat) →
    beginEventAt (s.ticks + BitVec.ofNat 64 k) s = .next { s with
      ticks := s.ticks + BitVec.ofNat 64 k, tickDelay := s.tickDelay - k,
      sync := some ⟨s.ticks + BitVec.ofNat 64 k, true, true, true⟩ }

/-- R710: a record of right length and checksum is taken when it is of type 0 with its bytes inside CODE_SIZE, ends the load
when it is of type 1, and is a load error when it is of any other type; one of wrong length or checksum, or with a byte at
or above CODE_SIZE, is a load error, and so is a text without a type-1 record. A type-0 record that is taken stores its
data bytes from its address on and leaves every other code byte. R712: after a successful load a code byte is that of the
last type-0 record before the type-1 record that covers its address, and as before the load where none covers it. -/
def Obligations.LoaderRecords : Prop :=
  (∀ (n : Nat) (m : Memory) (ll ah al tt : Byte) (rest : List Byte) (sum : Nat),
    sum = ll.toNat + ah.toNat + al.toNat + tt.toNat + (rest.map BitVec.toNat).sum →
    (rest.length = ll.toNat + 1 → sum % 256 = 0 →
      (tt = 0 → ll = 0 ∨ (ah ++ al).toNat + ll.toNat ≤ n →
        ∃ m', applyRecord n m (ll :: ah :: al :: tt :: rest) = .ok (.more m')) ∧
      (tt = 1 → applyRecord n m (ll :: ah :: al :: tt :: rest) = .ok .done) ∧
      (tt ≠ 0 → tt ≠ 1 → applyRecord n m (ll :: ah :: al :: tt :: rest) = .error .badType)) ∧
    (∀ m', applyRecord n m (ll :: ah :: al :: tt :: rest) = .ok (.more m') → tt = 0 ∧ rest.length = ll.toNat + 1 ∧
      (∀ j, j < ll.toNat → (ah ++ al).toNat + j < n ∧
        Memory.read codeErased m' ((ah ++ al).toNat + j) = rest.getD j 0) ∧
      ∀ a, a < (ah ++ al).toNat ∨ (ah ++ al).toNat + ll.toNat ≤ a →
        Memory.read codeErased m' a = Memory.read codeErased m a) ∧
    (rest.length = ll.toNat + 1 → sum % 256 ≠ 0 →
      applyRecord n m (ll :: ah :: al :: tt :: rest) = .error .badChecksum) ∧
    (rest.length ≠ ll.toNat + 1 → ∃ e, applyRecord n m (ll :: ah :: al :: tt :: rest) = .error e) ∧
    (∀ j, j < ll.toNat → n ≤ (ah ++ al).toNat + j → tt = 0 →
      ∃ e, applyRecord n m (ll :: ah :: al :: tt :: rest) = .error e)) ∧
  ∀ (n : Nat) (m : Memory) (text : List Char),
    ((∀ l ∈ textLines text [], ∀ bs, lineBytes l = some bs → bs[3]? ≠ some 1) → ∃ e, loadHex n text m = .error e) ∧
    ∀ m', loadHex n text m = .ok m' → ∀ a : Nat,
      ((∀ r ∈ dataRecords (textLines text []), ¬ covers a r) →
        Memory.read codeErased m' a = Memory.read codeErased m a) ∧
      ∀ (r : Nat × List Byte) (before behind : List (Nat × List Byte)),
        dataRecords (textLines text []) = before ++ r :: behind → covers a r → (∀ q ∈ behind, ¬ covers a q) →
        Memory.read codeErased m' a = r.2.getD (a - r.1) 0
end

