-- ==== Sys2Proof/Laws/Memory.lean ====
section
/-! SUPPORT. The laws of memories: read after write, the canonical form and the bounds kept by every write; and of the
bits of a byte. -/

namespace Sys2Proof

theorem Memory.read_insertCell (dflt : Byte) (m : Memory) (a b : Nat) (v : Byte) :
    Memory.read dflt (Memory.insertCell m a v) b = if b = a then v else Memory.read dflt m b := by
  induction m with
  | nil => simp [Memory.insertCell, Memory.read]
  | cons c rest ih =>
    obtain ⟨k, w⟩ := c
    simp only [Memory.insertCell]
    split
    · simp [Memory.read]
    · split
      · next h => subst h; simp only [Memory.read]; split <;> rfl
      · simp only [Memory.read, ih]
        split <;> split <;> simp_all

theorem Memory.read_filter (dflt : Byte) (m : Memory) (a b : Nat) :
    Memory.read dflt (m.filter fun c => c.1 != a) b = if b = a then dflt else Memory.read dflt m b := by
  induction m with
  | nil => simp [Memory.read]
  | cons c rest ih =>
    obtain ⟨k, w⟩ := c
    simp only [List.filter_cons]
    by_cases h : k = a
    · subst h
      simp only [bne_self_eq_false, Bool.false_eq_true, if_false, ih, Memory.read]
      split <;> rfl
    · simp only [bne_iff_ne, ne_eq, h, not_false_eq_true, if_true, Memory.read, ih]
      split <;> split <;> simp_all

/-- A read after a write gives the value written at that address, and the old value at every other. -/
theorem Memory.read_write (dflt : Byte) (m : Memory) (a b : Nat) (v : Byte) :
    Memory.read dflt (Memory.write dflt m a v) b = if b = a then v else Memory.read dflt m b := by
  unfold Memory.write
  split
  · next h => subst h; exact Memory.read_filter _ _ _ _
  · exact Memory.read_insertCell _ _ _ _ _

theorem Memory.mem_insertCell {m : Memory} {a : Nat} {v : Byte} {c : Host.Cell}
    (h : c ∈ Memory.insertCell m a v) : c = (a, v) ∨ c ∈ m := by
  induction m with
  | nil => simpa [Memory.insertCell] using h
  | cons d rest ih =>
    obtain ⟨k, w⟩ := d
    simp only [Memory.insertCell] at h
    split at h
    · simpa using h
    · split at h
      · rcases List.mem_cons.1 h with h | h
        · exact .inl h
        · exact .inr (List.mem_cons_of_mem _ h)
      · rcases List.mem_cons.1 h with h | h
        · exact .inr (h ▸ List.mem_cons_self ..)
        · exact (ih h).imp id (List.mem_cons_of_mem _)

/-- The canonical form as a property. -/
theorem Memory.wf_iff (dflt : Byte) (m : Memory) :
    Memory.wf dflt m = true ↔ (m.map Prod.fst).Pairwise (· < ·) ∧ ∀ c ∈ m, c.2 ≠ dflt := by
  simp [Memory.wf]

theorem Memory.insertCell_pairwise {m : Memory} (h : (m.map Prod.fst).Pairwise (· < ·)) (a : Nat) (v : Byte) :
    ((Memory.insertCell m a v).map Prod.fst).Pairwise (· < ·) := by
  induction m with
  | nil => simp [Memory.insertCell]
  | cons d rest ih =>
    obtain ⟨k, w⟩ := d
    simp only [List.map_cons, List.pairwise_cons, List.mem_map, forall_exists_index, and_imp] at h
    simp only [Memory.insertCell]
    split
    · next hk =>
      simp only [List.map_cons, List.pairwise_cons, List.mem_cons, List.mem_map]
      refine ⟨?_, ?_, h.2⟩
      · rintro x (rfl | ⟨c, hc, rfl⟩)
        · exact hk
        · exact Nat.lt_trans hk (h.1 _ c hc rfl)
      · rintro x ⟨c, hc, rfl⟩
        exact h.1 _ c hc rfl
    · split
      · next hk =>
        subst hk
        simp only [List.map_cons, List.pairwise_cons, List.mem_map]
        exact ⟨by rintro x ⟨c, hc, rfl⟩; exact h.1 _ c hc rfl, h.2⟩
      · next h1 h2 =>
        simp only [List.map_cons, List.pairwise_cons, List.mem_map]
        refine ⟨?_, ih h.2⟩
        rintro x ⟨c, hc, rfl⟩
        rcases Memory.mem_insertCell hc with rfl | hc
        · show k < a
          omega
        · exact h.1 _ c hc rfl

/-- Every write keeps the canonical form. -/
theorem Memory.wf_write {dflt : Byte} {m : Memory} (h : Memory.wf dflt m = true) (a : Nat) (v : Byte) :
    Memory.wf dflt (Memory.write dflt m a v) = true := by
  rw [Memory.wf_iff] at *
  unfold Memory.write
  split
  · exact ⟨h.1.sublist ((List.filter_sublist).map _), fun c hc => h.2 c (List.mem_filter.1 hc).1⟩
  · next hv =>
    refine ⟨Memory.insertCell_pairwise h.1 a v, fun c hc => ?_⟩
    rcases Memory.mem_insertCell hc with rfl | hc
    · exact hv
    · exact h.2 c hc

theorem Memory.within_iff (lo hi : Nat) (m : Memory) :
    Memory.within lo hi m = true ↔ ∀ c ∈ m, lo ≤ c.1 ∧ c.1 < hi := by
  simp [Memory.within]

/-- A write inside the bounds keeps the bounds. -/
theorem Memory.within_write {dflt : Byte} {lo hi : Nat} {m : Memory} (h : Memory.within lo hi m = true) {a : Nat}
    (ha : lo ≤ a) (hb : a < hi) (v : Byte) : Memory.within lo hi (Memory.write dflt m a v) = true := by
  rw [Memory.within_iff] at *
  intro c hc
  unfold Memory.write at hc
  split at hc
  · exact h c (List.mem_filter.1 hc).1
  · rcases Memory.mem_insertCell hc with rfl | hc
    · exact ⟨ha, hb⟩
    · exact h c hc

/-- A list of bytes written from `a` on reads back there, and every other address is as before. -/
theorem Memory.read_writeBytes (dflt : Byte) (bs : List Byte) (m : Memory) (a b : Nat) :
    Memory.read dflt (Memory.writeBytes dflt m a bs) b =
      if a ≤ b ∧ b < a + bs.length then bs.getD (b - a) 0 else Memory.read dflt m b := by
  induction bs generalizing m a with
  | nil =>
    rw [if_neg (by simp)]
    rfl
  | cons v rest ih =>
    rw [Memory.writeBytes, ih, Memory.read_write]
    by_cases h : b = a
    · subst h
      simp
    · by_cases h2 : a + 1 ≤ b ∧ b < a + 1 + rest.length
      · rw [if_pos h2, if_pos (by simp; omega)]
        obtain ⟨k, hk⟩ : ∃ k, b - a = k + 1 := ⟨b - a - 1, by omega⟩
        rw [hk, show b - (a + 1) = k by omega]
        rfl
      · rw [if_neg h2, if_neg h, if_neg (by simp; omega)]

theorem Memory.wf_writeBytes {dflt : Byte} (bs : List Byte) {m : Memory} (h : Memory.wf dflt m = true) (a : Nat) :
    Memory.wf dflt (Memory.writeBytes dflt m a bs) = true := by
  induction bs generalizing m a with
  | nil => exact h
  | cons v rest ih => exact ih (Memory.wf_write h a v) _

theorem Memory.wf_nil (dflt : Byte) : Memory.wf dflt [] = true := rfl

theorem Memory.within_nil (lo hi : Nat) : Memory.within lo hi [] = true := rfl

/-! ### Bits of a byte -/

theorem bitOf_eq_true_iff (v : Byte) (i : BitVec 3) : bitOf v i = true ↔ v.getLsbD i.toNat = true := Iff.rfl

/-- The bits of a byte with one bit replaced. -/
@[simp] theorem bitOf_withBit (v : Byte) (i j : BitVec 3) (b : Bool) :
    bitOf (withBit v i b) j = if j = i then b else bitOf v j := by
  have hi : i.toNat < 8 := i.isLt
  have hj : j.toNat < 8 := j.isLt
  have hij : j = i ↔ j.toNat = i.toNat := ⟨fun h => h ▸ rfl, BitVec.eq_of_toNat_eq⟩
  unfold bitOf withBit
  cases b
  · simp only [Bool.false_eq_true, if_false, BitVec.getLsbD_and, BitVec.getLsbD_not, BitVec.getLsbD_shiftLeft,
      BitVec.getLsbD_one, hij]
    by_cases h : j.toNat = i.toNat
    · simp [h, hi]
    · by_cases h2 : j.toNat < i.toNat
      · simp [h, h2, hj]
      · simp [h, h2, hj, show ¬ (j.toNat - i.toNat = 0) by omega]
  · simp only [if_true, BitVec.getLsbD_or, BitVec.getLsbD_shiftLeft, BitVec.getLsbD_one, hij]
    by_cases h : j.toNat = i.toNat
    · simp [h, hi]
    · by_cases h2 : j.toNat < i.toNat
      · simp [h, h2]
      · simp [h, h2, show ¬ (j.toNat - i.toNat = 0) by omega]

/-- Two bytes with the same eight bits are equal. -/
theorem eq_of_bitOf {v w : Byte} (h : ∀ i, bitOf v i = bitOf w i) : v = w := by
  apply BitVec.eq_of_getLsbD_eq
  intro k hk
  have := h (BitVec.ofNat 3 k)
  simpa [bitOf, Nat.mod_eq_of_lt hk] using this

end Sys2Proof
end

