-- ==== Sys2Proof/Laws/State.lean ====
section
/-! SUPPORT. One lemma per field per update of the state, and what an SFR or IRAM byte reads as after each update, so that no
later proof unfolds a record update. -/

namespace Sys2Proof.Machine

/-! ### `setSfr` -/

@[simp] theorem setSfr_cfg (d v : Byte) (s : State) : (setSfr d v s).cfg = s.cfg := rfl
@[simp] theorem setSfr_iram (d v : Byte) (s : State) : (setSfr d v s).iram = s.iram := rfl
@[simp] theorem setSfr_sfr (d v : Byte) (s : State) : (setSfr d v s).sfr = Memory.write unspecByte s.sfr d.toNat v := rfl
@[simp] theorem setSfr_code (d v : Byte) (s : State) : (setSfr d v s).code = s.code := rfl
@[simp] theorem setSfr_xdata (d v : Byte) (s : State) : (setSfr d v s).xdata = s.xdata := rfl
@[simp] theorem setSfr_pc (d v : Byte) (s : State) : (setSfr d v s).pc = s.pc := rfl
@[simp] theorem setSfr_previousPc (d v : Byte) (s : State) : (setSfr d v s).previousPc = s.previousPc := rfl
@[simp] theorem setSfr_tickDelay (d v : Byte) (s : State) : (setSfr d v s).tickDelay = s.tickDelay := rfl
@[simp] theorem setSfr_irqStack (d v : Byte) (s : State) : (setSfr d v s).irqStack = s.irqStack := rfl
@[simp] theorem setSfr_irqRecheck (d v : Byte) (s : State) : (setSfr d v s).irqRecheck = s.irqRecheck := rfl
@[simp] theorem setSfr_needHwTick (d v : Byte) (s : State) : (setSfr d v s).needHwTick = s.needHwTick := rfl
@[simp] theorem setSfr_faults (d v : Byte) (s : State) : (setSfr d v s).faults = s.faults := rfl
@[simp] theorem setSfr_halted (d v : Byte) (s : State) : (setSfr d v s).halted = s.halted := rfl
@[simp] theorem setSfr_ticks (d v : Byte) (s : State) : (setSfr d v s).ticks = s.ticks := rfl
@[simp] theorem setSfr_peripherals (d v : Byte) (s : State) : (setSfr d v s).peripherals = s.peripherals := rfl
@[simp] theorem setSfr_bus (d v : Byte) (s : State) : (setSfr d v s).bus = s.bus := rfl
@[simp] theorem setSfr_sync (d v : Byte) (s : State) : (setSfr d v s).sync = s.sync := rfl
@[simp] theorem setSfr_runFlag (d v : Byte) (s : State) : (setSfr d v s).runFlag = s.runFlag := rfl
@[simp] theorem setSfr_freeCount (d v : Byte) (s : State) : (setSfr d v s).freeCount = s.freeCount := rfl

/-! ### `setIram` -/

@[simp] theorem setIram_cfg (a v : Byte) (s : State) : (setIram a v s).cfg = s.cfg := rfl
@[simp] theorem setIram_iram (a v : Byte) (s : State) : (setIram a v s).iram = Memory.write unspecByte s.iram a.toNat v := rfl
@[simp] theorem setIram_sfr (a v : Byte) (s : State) : (setIram a v s).sfr = s.sfr := rfl
@[simp] theorem setIram_code (a v : Byte) (s : State) : (setIram a v s).code = s.code := rfl
@[simp] theorem setIram_xdata (a v : Byte) (s : State) : (setIram a v s).xdata = s.xdata := rfl
@[simp] theorem setIram_pc (a v : Byte) (s : State) : (setIram a v s).pc = s.pc := rfl
@[simp] theorem setIram_previousPc (a v : Byte) (s : State) : (setIram a v s).previousPc = s.previousPc := rfl
@[simp] theorem setIram_tickDelay (a v : Byte) (s : State) : (setIram a v s).tickDelay = s.tickDelay := rfl
@[simp] theorem setIram_irqStack (a v : Byte) (s : State) : (setIram a v s).irqStack = s.irqStack := rfl
@[simp] theorem setIram_irqRecheck (a v : Byte) (s : State) : (setIram a v s).irqRecheck = s.irqRecheck := rfl
@[simp] theorem setIram_needHwTick (a v : Byte) (s : State) : (setIram a v s).needHwTick = s.needHwTick := rfl
@[simp] theorem setIram_faults (a v : Byte) (s : State) : (setIram a v s).faults = s.faults := rfl
@[simp] theorem setIram_halted (a v : Byte) (s : State) : (setIram a v s).halted = s.halted := rfl
@[simp] theorem setIram_ticks (a v : Byte) (s : State) : (setIram a v s).ticks = s.ticks := rfl
@[simp] theorem setIram_peripherals (a v : Byte) (s : State) : (setIram a v s).peripherals = s.peripherals := rfl
@[simp] theorem setIram_bus (a v : Byte) (s : State) : (setIram a v s).bus = s.bus := rfl
@[simp] theorem setIram_sync (a v : Byte) (s : State) : (setIram a v s).sync = s.sync := rfl
@[simp] theorem setIram_runFlag (a v : Byte) (s : State) : (setIram a v s).runFlag = s.runFlag := rfl
@[simp] theorem setIram_freeCount (a v : Byte) (s : State) : (setIram a v s).freeCount = s.freeCount := rfl

/-! ### `setPc` -/

@[simp] theorem setPc_cfg (a : Nat) (s : State) : (setPc a s).cfg = s.cfg := rfl
@[simp] theorem setPc_iram (a : Nat) (s : State) : (setPc a s).iram = s.iram := rfl
@[simp] theorem setPc_sfr (a : Nat) (s : State) : (setPc a s).sfr = s.sfr := rfl
@[simp] theorem setPc_code (a : Nat) (s : State) : (setPc a s).code = s.code := rfl
@[simp] theorem setPc_xdata (a : Nat) (s : State) : (setPc a s).xdata = s.xdata := rfl
@[simp] theorem setPc_pc (a : Nat) (s : State) : (setPc a s).pc = BitVec.ofNat 16 (a % s.cfg.codeSize) := rfl
@[simp] theorem setPc_previousPc (a : Nat) (s : State) : (setPc a s).previousPc = s.previousPc := rfl
@[simp] theorem setPc_tickDelay (a : Nat) (s : State) : (setPc a s).tickDelay = s.tickDelay := rfl
@[simp] theorem setPc_irqStack (a : Nat) (s : State) : (setPc a s).irqStack = s.irqStack := rfl
@[simp] theorem setPc_irqRecheck (a : Nat) (s : State) : (setPc a s).irqRecheck = s.irqRecheck := rfl
@[simp] theorem setPc_needHwTick (a : Nat) (s : State) : (setPc a s).needHwTick = s.needHwTick := rfl
@[simp] theorem setPc_faults (a : Nat) (s : State) : (setPc a s).faults = s.faults := rfl
@[simp] theorem setPc_halted (a : Nat) (s : State) : (setPc a s).halted = s.halted := rfl
@[simp] theorem setPc_ticks (a : Nat) (s : State) : (setPc a s).ticks = s.ticks := rfl
@[simp] theorem setPc_peripherals (a : Nat) (s : State) : (setPc a s).peripherals = s.peripherals := rfl
@[simp] theorem setPc_bus (a : Nat) (s : State) : (setPc a s).bus = s.bus := rfl
@[simp] theorem setPc_sync (a : Nat) (s : State) : (setPc a s).sync = s.sync := rfl
@[simp] theorem setPc_runFlag (a : Nat) (s : State) : (setPc a s).runFlag = s.runFlag := rfl
@[simp] theorem setPc_freeCount (a : Nat) (s : State) : (setPc a s).freeCount = s.freeCount := rfl

/-! ### `charge` -/

@[simp] theorem charge_cfg (op : Byte) (s : State) : (charge op s).cfg = s.cfg := rfl
@[simp] theorem charge_iram (op : Byte) (s : State) : (charge op s).iram = s.iram := rfl
@[simp] theorem charge_sfr (op : Byte) (s : State) : (charge op s).sfr = s.sfr := rfl
@[simp] theorem charge_code (op : Byte) (s : State) : (charge op s).code = s.code := rfl
@[simp] theorem charge_xdata (op : Byte) (s : State) : (charge op s).xdata = s.xdata := rfl
@[simp] theorem charge_pc (op : Byte) (s : State) : (charge op s).pc = s.pc := rfl
@[simp] theorem charge_previousPc (op : Byte) (s : State) : (charge op s).previousPc = s.previousPc := rfl
@[simp] theorem charge_tickDelay (op : Byte) (s : State) : (charge op s).tickDelay = s.cfg.cyclesOf op := rfl
@[simp] theorem charge_irqStack (op : Byte) (s : State) : (charge op s).irqStack = s.irqStack := rfl
@[simp] theorem charge_irqRecheck (op : Byte) (s : State) : (charge op s).irqRecheck = s.irqRecheck := rfl
@[simp] theorem charge_needHwTick (op : Byte) (s : State) : (charge op s).needHwTick = s.needHwTick := rfl
@[simp] theorem charge_faults (op : Byte) (s : State) : (charge op s).faults = s.faults := rfl
@[simp] theorem charge_halted (op : Byte) (s : State) : (charge op s).halted = s.halted := rfl
@[simp] theorem charge_ticks (op : Byte) (s : State) : (charge op s).ticks = s.ticks := rfl
@[simp] theorem charge_peripherals (op : Byte) (s : State) : (charge op s).peripherals = s.peripherals := rfl
@[simp] theorem charge_bus (op : Byte) (s : State) : (charge op s).bus = s.bus := rfl
@[simp] theorem charge_sync (op : Byte) (s : State) : (charge op s).sync = s.sync := rfl
@[simp] theorem charge_runFlag (op : Byte) (s : State) : (charge op s).runFlag = s.runFlag := rfl
@[simp] theorem charge_freeCount (op : Byte) (s : State) : (charge op s).freeCount = s.freeCount := rfl

/-! ### `raiseAt` -/

@[simp] theorem raiseAt_cfg (a : Addr) (k : FaultKind) (x : Detail) (s : State) : (raiseAt a k x s).cfg = s.cfg := rfl
@[simp] theorem raiseAt_iram (a : Addr) (k : FaultKind) (x : Detail) (s : State) : (raiseAt a k x s).iram = s.iram := rfl
@[simp] theorem raiseAt_sfr (a : Addr) (k : FaultKind) (x : Detail) (s : State) : (raiseAt a k x s).sfr = s.sfr := rfl
@[simp] theorem raiseAt_code (a : Addr) (k : FaultKind) (x : Detail) (s : State) : (raiseAt a k x s).code = s.code := rfl
@[simp] theorem raiseAt_xdata (a : Addr) (k : FaultKind) (x : Detail) (s : State) : (raiseAt a k x s).xdata = s.xdata := rfl
@[simp] theorem raiseAt_pc (a : Addr) (k : FaultKind) (x : Detail) (s : State) : (raiseAt a k x s).pc = s.pc := rfl
@[simp] theorem raiseAt_previousPc (a : Addr) (k : FaultKind) (x : Detail) (s : State) : (raiseAt a k x s).previousPc = s.previousPc := rfl
@[simp] theorem raiseAt_tickDelay (a : Addr) (k : FaultKind) (x : Detail) (s : State) : (raiseAt a k x s).tickDelay = s.tickDelay := rfl
@[simp] theorem raiseAt_irqStack (a : Addr) (k : FaultKind) (x : Detail) (s : State) : (raiseAt a k x s).irqStack = s.irqStack := rfl
@[simp] theorem raiseAt_irqRecheck (a : Addr) (k : FaultKind) (x : Detail) (s : State) : (raiseAt a k x s).irqRecheck = s.irqRecheck := rfl
@[simp] theorem raiseAt_needHwTick (a : Addr) (k : FaultKind) (x : Detail) (s : State) : (raiseAt a k x s).needHwTick = s.needHwTick := rfl
@[simp] theorem raiseAt_faults (a : Addr) (k : FaultKind) (x : Detail) (s : State) : (raiseAt a k x s).faults = s.faults ++ [⟨k, a, x⟩] := rfl
@[simp] theorem raiseAt_halted (a : Addr) (k : FaultKind) (x : Detail) (s : State) : (raiseAt a k x s).halted = s.halted := rfl
@[simp] theorem raiseAt_ticks (a : Addr) (k : FaultKind) (x : Detail) (s : State) : (raiseAt a k x s).ticks = s.ticks := rfl
@[simp] theorem raiseAt_peripherals (a : Addr) (k : FaultKind) (x : Detail) (s : State) : (raiseAt a k x s).peripherals = s.peripherals := rfl
@[simp] theorem raiseAt_bus (a : Addr) (k : FaultKind) (x : Detail) (s : State) : (raiseAt a k x s).bus = s.bus := rfl
@[simp] theorem raiseAt_sync (a : Addr) (k : FaultKind) (x : Detail) (s : State) : (raiseAt a k x s).sync = s.sync := rfl
@[simp] theorem raiseAt_runFlag (a : Addr) (k : FaultKind) (x : Detail) (s : State) : (raiseAt a k x s).runFlag = s.runFlag := rfl
@[simp] theorem raiseAt_freeCount (a : Addr) (k : FaultKind) (x : Detail) (s : State) : (raiseAt a k x s).freeCount = s.freeCount := rfl

/-! ### `raise` -/

@[simp] theorem raise_cfg (k : FaultKind) (x : Detail) (s : State) : (raise k x s).cfg = s.cfg := rfl
@[simp] theorem raise_iram (k : FaultKind) (x : Detail) (s : State) : (raise k x s).iram = s.iram := rfl
@[simp] theorem raise_sfr (k : FaultKind) (x : Detail) (s : State) : (raise k x s).sfr = s.sfr := rfl
@[simp] theorem raise_code (k : FaultKind) (x : Detail) (s : State) : (raise k x s).code = s.code := rfl
@[simp] theorem raise_xdata (k : FaultKind) (x : Detail) (s : State) : (raise k x s).xdata = s.xdata := rfl
@[simp] theorem raise_pc (k : FaultKind) (x : Detail) (s : State) : (raise k x s).pc = s.pc := rfl
@[simp] theorem raise_previousPc (k : FaultKind) (x : Detail) (s : State) : (raise k x s).previousPc = s.previousPc := rfl
@[simp] theorem raise_tickDelay (k : FaultKind) (x : Detail) (s : State) : (raise k x s).tickDelay = s.tickDelay := rfl
@[simp] theorem raise_irqStack (k : FaultKind) (x : Detail) (s : State) : (raise k x s).irqStack = s.irqStack := rfl
@[simp] theorem raise_irqRecheck (k : FaultKind) (x : Detail) (s : State) : (raise k x s).irqRecheck = s.irqRecheck := rfl
@[simp] theorem raise_needHwTick (k : FaultKind) (x : Detail) (s : State) : (raise k x s).needHwTick = s.needHwTick := rfl
@[simp] theorem raise_faults (k : FaultKind) (x : Detail) (s : State) : (raise k x s).faults = s.faults ++ [⟨k, s.previousPc, x⟩] := rfl
@[simp] theorem raise_halted (k : FaultKind) (x : Detail) (s : State) : (raise k x s).halted = s.halted := rfl
@[simp] theorem raise_ticks (k : FaultKind) (x : Detail) (s : State) : (raise k x s).ticks = s.ticks := rfl
@[simp] theorem raise_peripherals (k : FaultKind) (x : Detail) (s : State) : (raise k x s).peripherals = s.peripherals := rfl
@[simp] theorem raise_bus (k : FaultKind) (x : Detail) (s : State) : (raise k x s).bus = s.bus := rfl
@[simp] theorem raise_sync (k : FaultKind) (x : Detail) (s : State) : (raise k x s).sync = s.sync := rfl
@[simp] theorem raise_runFlag (k : FaultKind) (x : Detail) (s : State) : (raise k x s).runFlag = s.runFlag := rfl
@[simp] theorem raise_freeCount (k : FaultKind) (x : Detail) (s : State) : (raise k x s).freeCount = s.freeCount := rfl

/-! ### `completeOperations` -/

@[simp] theorem completeOperations_cfg (k : Nat) (s : State) : (completeOperations k s).cfg = s.cfg := rfl
@[simp] theorem completeOperations_iram (k : Nat) (s : State) : (completeOperations k s).iram = s.iram := rfl
@[simp] theorem completeOperations_sfr (k : Nat) (s : State) : (completeOperations k s).sfr = s.sfr := rfl
@[simp] theorem completeOperations_code (k : Nat) (s : State) : (completeOperations k s).code = s.code := rfl
@[simp] theorem completeOperations_xdata (k : Nat) (s : State) : (completeOperations k s).xdata = s.xdata := rfl
@[simp] theorem completeOperations_pc (k : Nat) (s : State) : (completeOperations k s).pc = s.pc := rfl
@[simp] theorem completeOperations_previousPc (k : Nat) (s : State) : (completeOperations k s).previousPc = s.previousPc := rfl
@[simp] theorem completeOperations_tickDelay (k : Nat) (s : State) : (completeOperations k s).tickDelay = s.tickDelay := rfl
@[simp] theorem completeOperations_irqStack (k : Nat) (s : State) : (completeOperations k s).irqStack = s.irqStack := rfl
@[simp] theorem completeOperations_irqRecheck (k : Nat) (s : State) : (completeOperations k s).irqRecheck = s.irqRecheck := rfl
@[simp] theorem completeOperations_needHwTick (k : Nat) (s : State) : (completeOperations k s).needHwTick = s.needHwTick := rfl
@[simp] theorem completeOperations_faults (k : Nat) (s : State) : (completeOperations k s).faults = s.faults := rfl
@[simp] theorem completeOperations_halted (k : Nat) (s : State) : (completeOperations k s).halted = s.halted := rfl
@[simp] theorem completeOperations_ticks (k : Nat) (s : State) : (completeOperations k s).ticks = s.ticks := rfl
@[simp] theorem completeOperations_peripherals (k : Nat) (s : State) : (completeOperations k s).peripherals = s.peripherals.modify k (completed s.ticks) := rfl
@[simp] theorem completeOperations_bus (k : Nat) (s : State) : (completeOperations k s).bus = s.bus := rfl
@[simp] theorem completeOperations_sync (k : Nat) (s : State) : (completeOperations k s).sync = s.sync := rfl
@[simp] theorem completeOperations_runFlag (k : Nat) (s : State) : (completeOperations k s).runFlag = s.runFlag := rfl
@[simp] theorem completeOperations_freeCount (k : Nat) (s : State) : (completeOperations k s).freeCount = s.freeCount := rfl

/-! ### `draw` -/

@[simp] theorem draw_cfg (s : State) : (draw s).1.cfg = s.cfg := rfl
@[simp] theorem draw_iram (s : State) : (draw s).1.iram = s.iram := rfl
@[simp] theorem draw_sfr (s : State) : (draw s).1.sfr = s.sfr := rfl
@[simp] theorem draw_code (s : State) : (draw s).1.code = s.code := rfl
@[simp] theorem draw_xdata (s : State) : (draw s).1.xdata = s.xdata := rfl
@[simp] theorem draw_pc (s : State) : (draw s).1.pc = s.pc := rfl
@[simp] theorem draw_previousPc (s : State) : (draw s).1.previousPc = s.previousPc := rfl
@[simp] theorem draw_tickDelay (s : State) : (draw s).1.tickDelay = s.tickDelay := rfl
@[simp] theorem draw_irqStack (s : State) : (draw s).1.irqStack = s.irqStack := rfl
@[simp] theorem draw_irqRecheck (s : State) : (draw s).1.irqRecheck = s.irqRecheck := rfl
@[simp] theorem draw_needHwTick (s : State) : (draw s).1.needHwTick = s.needHwTick := rfl
@[simp] theorem draw_faults (s : State) : (draw s).1.faults = s.faults := rfl
@[simp] theorem draw_halted (s : State) : (draw s).1.halted = s.halted := rfl
@[simp] theorem draw_ticks (s : State) : (draw s).1.ticks = s.ticks := rfl
@[simp] theorem draw_peripherals (s : State) : (draw s).1.peripherals = s.peripherals := rfl
@[simp] theorem draw_bus (s : State) : (draw s).1.bus = s.bus := rfl
@[simp] theorem draw_sync (s : State) : (draw s).1.sync = s.sync := rfl
@[simp] theorem draw_runFlag (s : State) : (draw s).1.runFlag = s.runFlag := rfl
@[simp] theorem draw_freeCount (s : State) : (draw s).1.freeCount = s.freeCount + 1 := rfl

/-! ### Reading an SFR or an IRAM byte after an update -/

/-- Reading an SFR after a store to one. -/
@[simp] theorem sfrGet_setSfr (d e v : Byte) (s : State) : sfrGet d (setSfr e v s) = if d = e then v else sfrGet d s := by
  have h : d.toNat = e.toNat ↔ d = e := ⟨BitVec.eq_of_toNat_eq, fun h => h ▸ rfl⟩
  simp only [sfrGet, setSfr_sfr, Memory.read_write, h]

/-- Reading an IRAM byte after a store to one. -/
@[simp] theorem iramGet_setIram (a b v : Byte) (s : State) :
    iramGet a (setIram b v s) = if a = b then v else iramGet a s := by
  have h : a.toNat = b.toNat ↔ a = b := ⟨BitVec.eq_of_toNat_eq, fun h => h ▸ rfl⟩
  simp only [iramGet, setIram_iram, Memory.read_write, h]

@[simp] theorem sfrGet_setIram (d a v : Byte) (s : State) : sfrGet d (setIram a v s) = sfrGet d s := rfl
@[simp] theorem sfrGet_setPc (d : Byte) (a : Nat) (s : State) : sfrGet d (setPc a s) = sfrGet d s := rfl
@[simp] theorem sfrGet_charge (d op : Byte) (s : State) : sfrGet d (charge op s) = sfrGet d s := rfl
@[simp] theorem sfrGet_raiseAt (d : Byte) (a : Addr) (k : FaultKind) (x : Detail) (s : State) :
    sfrGet d (raiseAt a k x s) = sfrGet d s := rfl
@[simp] theorem sfrGet_raise (d : Byte) (k : FaultKind) (x : Detail) (s : State) :
    sfrGet d (raise k x s) = sfrGet d s := rfl
@[simp] theorem sfrGet_draw (d : Byte) (s : State) : sfrGet d (draw s).1 = sfrGet d s := rfl

@[simp] theorem iramGet_setSfr (a d v : Byte) (s : State) : iramGet a (setSfr d v s) = iramGet a s := rfl
@[simp] theorem iramGet_setPc (a : Byte) (n : Nat) (s : State) : iramGet a (setPc n s) = iramGet a s := rfl
@[simp] theorem iramGet_charge (a op : Byte) (s : State) : iramGet a (charge op s) = iramGet a s := rfl
@[simp] theorem iramGet_raiseAt (b : Byte) (a : Addr) (k : FaultKind) (x : Detail) (s : State) :
    iramGet b (raiseAt a k x s) = iramGet b s := rfl
@[simp] theorem iramGet_raise (b : Byte) (k : FaultKind) (x : Detail) (s : State) :
    iramGet b (raise k x s) = iramGet b s := rfl
@[simp] theorem iramGet_draw (a : Byte) (s : State) : iramGet a (draw s).1 = iramGet a s := rfl

/-! ### The named registers are SFRs -/

theorem setAcc_eq (v : Byte) (s : State) : setAcc v s = setSfr 0xE0 v s := rfl
theorem setB_eq (v : Byte) (s : State) : setB v s = setSfr 0xF0 v s := rfl
theorem setPsw_eq (v : Byte) (s : State) : setPsw v s = setSfr 0xD0 v s := rfl
theorem setSp_eq (v : Byte) (s : State) : setSp v s = setSfr 0x81 v s := rfl

/-- An operation that writes SFRs only changes no other field. -/
theorem setCy_eq (b : Bool) (s : State) : setCy b s = { s with sfr := (setCy b s).sfr } := rfl
theorem setAc_eq (b : Bool) (s : State) : setAc b s = { s with sfr := (setAc b s).sfr } := rfl
theorem setOv_eq (b : Bool) (s : State) : setOv b s = { s with sfr := (setOv b s).sfr } := rfl
theorem setArith_eq (r : AluResult) (s : State) : setArith r s = { s with sfr := (setArith r s).sfr } := rfl
theorem setDptr_eq (v : Addr) (s : State) : setDptr v s = { s with sfr := (setDptr v s).sfr } := rfl
theorem epilogue_eq (s : State) : epilogue s = { s with sfr := (epilogue s).sfr } := by
  unfold epilogue; split <;> rfl

/-! ### PSW after a flag is written -/

@[simp] theorem psw_setCy (b : Bool) (s : State) : psw (setCy b s) = withBit (psw s) 7 b := by simp [psw, setCy, setPsw]
@[simp] theorem psw_setAc (b : Bool) (s : State) : psw (setAc b s) = withBit (psw s) 6 b := by simp [psw, setAc, setPsw]
@[simp] theorem psw_setOv (b : Bool) (s : State) : psw (setOv b s) = withBit (psw s) 2 b := by simp [psw, setOv, setPsw]
@[simp] theorem psw_setAcc (v : Byte) (s : State) : psw (setAcc v s) = psw s := by simp [psw, setAcc]
@[simp] theorem psw_setB (v : Byte) (s : State) : psw (setB v s) = psw s := by simp [psw, setB]
@[simp] theorem psw_charge (op : Byte) (s : State) : psw (charge op s) = psw s := rfl
@[simp] theorem acc_charge (op : Byte) (s : State) : acc (charge op s) = acc s := rfl
@[simp] theorem regB_charge (op : Byte) (s : State) : regB (charge op s) = regB s := rfl
@[simp] theorem acc_setAcc (v : Byte) (s : State) : acc (setAcc v s) = v := by simp [acc, setAcc]
@[simp] theorem acc_setB (v : Byte) (s : State) : acc (setB v s) = acc s := by simp [acc, setB]
@[simp] theorem regB_setB (v : Byte) (s : State) : regB (setB v s) = v := by simp [regB, setB]
@[simp] theorem regB_setAcc (v : Byte) (s : State) : regB (setAcc v s) = regB s := by simp [regB, setAcc]

/-- Writing one flag leaves every SFR but PSW. -/
theorem sfrGet_setCy {d : Byte} (h : d ≠ 0xD0) (b : Bool) (s : State) : sfrGet d (setCy b s) = sfrGet d s := by
  rw [setCy, setPsw, sfrGet_setSfr, if_neg h]
theorem sfrGet_setAc {d : Byte} (h : d ≠ 0xD0) (b : Bool) (s : State) : sfrGet d (setAc b s) = sfrGet d s := by
  rw [setAc, setPsw, sfrGet_setSfr, if_neg h]
theorem sfrGet_setOv {d : Byte} (h : d ≠ 0xD0) (b : Bool) (s : State) : sfrGet d (setOv b s) = sfrGet d s := by
  rw [setOv, setPsw, sfrGet_setSfr, if_neg h]

@[simp] theorem acc_setCy (b : Bool) (s : State) : acc (setCy b s) = acc s := sfrGet_setCy (by decide) b s
@[simp] theorem acc_setAc (b : Bool) (s : State) : acc (setAc b s) = acc s := sfrGet_setAc (by decide) b s
@[simp] theorem acc_setOv (b : Bool) (s : State) : acc (setOv b s) = acc s := sfrGet_setOv (by decide) b s
@[simp] theorem regB_setCy (b : Bool) (s : State) : regB (setCy b s) = regB s := sfrGet_setCy (by decide) b s
@[simp] theorem regB_setOv (b : Bool) (s : State) : regB (setOv b s) = regB s := sfrGet_setOv (by decide) b s

end Sys2Proof.Machine
end

