-- ==== Sys2Proof/Laws/Ops.lean ====
section
/-! SUPPORT. One lemma per shared operation that says everything it can do. -/

namespace Sys2Proof.Machine

/-! ### The program counter -/

theorem codeSize_pos (c : Config) : 0 < c.codeSize := Nat.pos_of_ne_zero (by simp [Config.codeSize])

theorem codeSize_le (c : Config) : c.codeSize ≤ 65536 := by
  have h : c.codeSizeLog2.val ≤ 16 := by omega
  calc c.codeSize = 2 ^ c.codeSizeLog2.val := rfl
    _ ≤ 2 ^ 16 := Nat.pow_le_pow_right (by decide) h

/-- The address stored in pc, reduced modulo CODE_SIZE. -/
theorem setPc_toNat (a : Nat) (s : State) : (setPc a s).pc.toNat = a % s.cfg.codeSize := by
  have h1 := Nat.mod_lt a (codeSize_pos s.cfg)
  have h2 := codeSize_le s.cfg
  simp only [setPc_pc, BitVec.toNat_ofNat]
  exact Nat.mod_eq_of_lt (by omega)

/-- A value already reduced is stored as it is. -/
theorem setPc_mod (a : Nat) (s : State) : setPc (a % s.cfg.codeSize) s = setPc a s := by
  simp [setPc]

theorem relTarget_lt (rel : Int) (s : State) : relTarget rel s < s.cfg.codeSize := by
  have h := codeSize_pos s.cfg
  have h1 := Int.emod_nonneg ((s.pc.toNat : Int) + rel) (show (s.cfg.codeSize : Int) ≠ 0 by omega)
  have h2 := Int.emod_lt_of_pos ((s.pc.toNat : Int) + rel) (show (0 : Int) < s.cfg.codeSize by omega)
  unfold relTarget
  omega

/-- A taken branch sets pc to the relative target. -/
theorem setPc_relTarget (rel : Int) (s : State) : setPc (relTarget rel s) s = { s with pc := relAddr rel s } := by
  unfold setPc relAddr
  rw [Nat.mod_eq_of_lt (relTarget_lt rel s)]
  rfl

/-- A conditional branch, taken or not. -/
theorem branchIf_eq (b : Bool) (rel : Int) (s : State) :
    branchIf b rel s = { s with pc := if b then relAddr rel s else s.pc } := by
  cases b
  · rfl
  · exact setPc_relTarget rel s

/-! ### The stack -/

/-- Raising on a condition appends one record or none. -/
theorem raiseIf_eq (b : Bool) (k : FaultKind) (x : Detail) (s : State) :
    raiseIf b k x s = { s with faults := s.faults ++ if b then [⟨k, s.previousPc, x⟩] else [] } := by
  cases b
  · simp [raiseIf]
  · rfl

theorem push_eq (v : Byte) (s : State) :
    push v s = { setIram (sp s + 1) v (setSp (sp s + 1) s) with
      faults := s.faults ++ stackFault (sp s == 0xFF) .overflow s } := by
  have h : (sp s + 1 == (0x00 : Byte)) = (sp s == 0xFF) := by
    rw [Bool.eq_iff_iff, beq_iff_eq, beq_iff_eq]
    constructor <;> intro h <;> bv_omega
  show raiseIf (s.cfg.stackCheck && (sp s + 1 == (0x00 : Byte))) .stack .overflow _ = _
  rw [h, raiseIf_eq]
  rfl

/-- What a push does. -/
theorem pushed_push (v : Byte) (s : State) : pushed v s (push v s) := by
  rw [push_eq]
  refine ⟨rfl, ?_, fun d hd => ?_, ?_, fun a ha => ?_⟩
  · show sfrGet 0x81 (setSfr 0x81 _ s) = _
    simp
  · show sfrGet d (setSfr 0x81 _ s) = _
    rw [sfrGet_setSfr, if_neg (by simpa using hd)]
  · show iramGet _ (setIram _ v (setSp _ s)) = v
    simp
  · show iramGet a (setIram _ v (setSp _ s)) = _
    rw [iramGet_setIram, if_neg (by simpa using ha)]
    rfl

theorem pop_eq (s : State) :
    pop s = ({ setSp (sp s - 1) s with faults := s.faults ++ stackFault (sp s == 0x00) .underflow s },
      iramGet (sp s) s) := by
  have h : (sp s - 1 == (0xFF : Byte)) = (sp s == 0x00) := by
    rw [Bool.eq_iff_iff, beq_iff_eq, beq_iff_eq]
    constructor <;> intro h <;> bv_omega
  show (raiseIf (s.cfg.stackCheck && (sp s - 1 == (0xFF : Byte))) .stack .underflow _, _) = _
  rw [h, raiseIf_eq]
  rfl

@[simp] theorem pop_value (s : State) : (pop s).2 = iramGet (sp s) s := rfl

/-- What a pop does. -/
theorem popped_pop (s : State) : popped s (pop s).1 := by
  rw [pop_eq]
  refine ⟨rfl, ?_, fun d hd => ?_⟩
  · show sfrGet 0x81 (setSfr 0x81 _ s) = _
    simp
  · show sfrGet d (setSfr 0x81 _ s) = _
    rw [sfrGet_setSfr, if_neg (by simpa using hd)]

/-- A pop changes no IRAM byte, no parameter and no address register but SP. -/
theorem popped_iram {s t : State} (h : popped s t) : t.iram = s.iram := by rw [h.1]
theorem popped_cfg {s t : State} (h : popped s t) : t.cfg = s.cfg := by rw [h.1]
theorem pushed_cfg {v : Byte} {s t : State} (h : pushed v s t) : t.cfg = s.cfg := by rw [h.1]

/-- Pushing and popping pc leave the parameters. -/
@[simp] theorem pushPc_cfg (s : State) : (pushPc s).cfg = s.cfg := by
  show (push _ (push _ s)).cfg = s.cfg
  rw [pushed_cfg (pushed_push _ _), pushed_cfg (pushed_push _ _)]

/-- Popping pc: the high byte at SP, the low byte below it, and pc set to their concatenation. -/
theorem popPc_eq (s : State) : ∃ u w, popped s u ∧ popped u w ∧
    popPc s = { w with
      pc := BitVec.ofNat 16
        (((iramGet (sp s) s).toNat * 256 + (iramGet (sp s - 1) s).toNat) % s.cfg.codeSize) } := by
  refine ⟨(pop s).1, (pop (pop s).1).1, popped_pop s, popped_pop _, ?_⟩
  have h1 := popped_pop s
  have hv : (pop (pop s).1).2 = iramGet (sp s - 1) s := by
    rw [pop_value, h1.2.1]
    unfold iramGet
    rw [popped_iram h1]
  have hc : (pop (pop s).1).1.cfg = s.cfg := by rw [popped_cfg (popped_pop _), popped_cfg h1]
  show setPc ((pop s).2 ++ (pop (pop s).1).2).toNat _ = _
  rw [hv, pop_value, setPc, hc]
  have : (iramGet (sp s) s ++ iramGet (sp s - 1) s).toNat =
      (iramGet (sp s) s).toNat * 256 + (iramGet (sp s - 1) s).toNat := by
    rw [BitVec.toNat_append, ← Nat.shiftLeft_add_eq_or_of_lt (iramGet (sp s - 1) s).isLt, Nat.shiftLeft_eq]
  rw [this]

/-! ### Direct operands -/

@[simp] theorem ownerOf_setSfr (d e v : Byte) (s : State) : ownerOf d (setSfr e v s) = ownerOf d s := rfl

/-- The write hook of an SFR that no peripheral owns does nothing. -/
theorem onSfrWrite_none {d : Byte} {s : State} (h : ownerOf d s = none) : onSfrWrite d s = s := by
  simp [onSfrWrite, h]

theorem noteIrqSfr_eq (d : Byte) (s : State) :
    noteIrqSfr d s = { s with irqRecheck := s.irqRecheck || s.cfg.irqSfrs.contains d } := by
  unfold noteIrqSfr
  cases h : s.cfg.irqSfrs.contains d <;> simp

/-- What a write of a direct operand does. -/
theorem storedDirect_dirWrite (d v : Byte) (s : State) : storedDirect d v s (dirWrite d v s) := by
  unfold storedDirect dirWrite
  by_cases hd : d ≤ 0x7F#8
  · rw [if_pos hd, if_pos hd]
    refine ⟨rfl, by simp, fun a ha => ?_⟩
    rw [iramGet_setIram, if_neg (by simpa using ha)]
  · rw [if_neg hd, if_neg hd]
    have hs : sfrGet d (setSfr d v s) = v := by simp
    have hk : sfrsKept [d] s (setSfr d v s) := fun e he => by
      rw [sfrGet_setSfr, if_neg (by simpa using he)]
    cases ho : ownerOf d s with
    | none =>
      rw [onSfrWrite_none (by simpa using ho), noteIrqSfr_eq]
      exact ⟨rfl, hs, hk⟩
    | some kp =>
      obtain ⟨k, p⟩ := kp
      refine ⟨setSfr d v s, rfl, hs, hk, ?_⟩
      simp [onSfrWrite, ho]

/-- Peripheral `k` after its operations with a passed Deadline are completed. -/
theorem completeOperations_get {k : Nat} {s : State} {p : Peripheral} (h : s.peripherals[k]? = some p) :
    (completeOperations k s).peripherals[k]? = some (completed s.ticks p) := by
  simp [h]

/-! ### Settling an effect -/

@[simp] theorem withOwnState_ownState (p : Peripheral) : withOwnState (ownState p) p = p := rfl

@[simp] theorem settle_nil (now : Tick) (p : Peripheral) : settle now p [] = unsettled p := rfl

/-- The last action of an effect acts on what the actions before it came to. -/
theorem settle_concat (now : Tick) (p : Peripheral) (e : DeviceEffect) (a : DeviceAction) :
    settle now p (e ++ [a]) = settleAction now (settle now p e) a := by
  simp [settle]

/-- A property that every action keeps, an effect keeps. -/
theorem settle_keeps {P : Settled → Prop} {now : Tick} {p : Peripheral} {e : DeviceEffect} (h0 : P (unsettled p))
    (ha : ∀ f, ∀ a ∈ e, P f → P (settleAction now f a)) : P (settle now p e) := by
  unfold settle
  generalize unsettled p = f at h0
  induction e generalizing f with
  | nil => exact h0
  | cons a e ih => exact ih (fun g b hb => ha g b (List.mem_cons_of_mem _ hb)) _ (ha _ _ (by simp) h0)

/-- What one action can do: report a fault; or make a change and, when a command to a free resource makes it, start that
command's operation. -/
theorem settleAction_cases (now : Tick) (f : Settled) (a : DeviceAction) :
    (∃ k d, a = .report k d ∧ settleAction now f a = settleFault (peripheralFaultKind k) d f) ∨
    (∃ c, a = .change c ∧ settleAction now f a = settleChange c f) ∨
    (∃ c x, a = .command c x ∧ resourceBusy f.peripheral c = true ∧
      settleAction now f a = settleFault .peripheralBusy c.detail f) ∨
    (∃ c x, a = .command c x ∧ resourceBusy f.peripheral c = false ∧
      settleAction now f a = { settleChange x f with peripheral := started now c (settleChange x f).peripheral }) := by
  cases a with
  | report k d => exact .inl ⟨k, d, rfl, rfl⟩
  | change c => exact .inr (.inl ⟨c, rfl, rfl⟩)
  | command c x =>
    cases h : resourceBusy f.peripheral c with
    | true => exact .inr (.inr (.inl ⟨c, x, rfl, h, by simp [settleAction, h]⟩))
    | false => exact .inr (.inr (.inr ⟨c, x, rfl, h, by simp [settleAction, h]⟩))

/-- An action appends to the faults reported before it, and does not look at them. -/
theorem settleAction_faults (now : Tick) (a : DeviceAction) (f : Settled) :
    ∃ gs, ∀ fs, settleAction now { f with faults := fs } a = { settleAction now f a with faults := fs ++ gs } := by
  cases a with
  | report k d => exact ⟨[(peripheralFaultKind k, d)], fun _ => rfl⟩
  | change c => exact ⟨[], fun fs => by simp [settleAction, settleChange]⟩
  | command c x =>
    cases h : resourceBusy f.peripheral c with
    | true => exact ⟨[(.peripheralBusy, c.detail)], fun fs => by simp [settleAction, h, settleFault]⟩
    | false => exact ⟨[], fun fs => by simp [settleAction, h, settleChange]⟩

/-- A list of actions appends to the faults reported before it, and does not look at them. -/
theorem actions_faults (now : Tick) (e : DeviceEffect) (f : Settled) :
    ∃ gs, ∀ fs, e.foldl (settleAction now) { f with faults := fs } =
      { e.foldl (settleAction now) f with faults := fs ++ gs } := by
  induction e generalizing f with
  | nil => exact ⟨[], fun fs => by simp⟩
  | cons a e ih =>
    obtain ⟨as, ha⟩ := settleAction_faults now a f
    obtain ⟨gs, hg⟩ := ih (settleAction now f a)
    refine ⟨as ++ gs, fun fs => ?_⟩
    rw [List.foldl_cons, ha, hg, List.append_assoc]
    rfl

/-- An action that only reports adds its fault, at its place in the order of the raises, and changes nothing else (R515). -/
theorem settle_report {now : Tick} {p : Peripheral} {e₁ : DeviceEffect} {a : DeviceAction} {k : FaultKind}
    {d : List Byte} (h : settleAction now (settle now p e₁) a = settleFault k d (settle now p e₁))
    (e₂ : DeviceEffect) : ∃ gs,
    (settle now p (e₁ ++ e₂)).faults = (settle now p e₁).faults ++ gs ∧
    settle now p (e₁ ++ a :: e₂) =
      { settle now p (e₁ ++ e₂) with faults := (settle now p e₁).faults ++ (k, d) :: gs } := by
  obtain ⟨gs, hg⟩ := actions_faults now e₂ (settle now p e₁)
  have h1 : settle now p (e₁ ++ e₂) = e₂.foldl (settleAction now) (settle now p e₁) := by simp [settle]
  have h2 : settle now p (e₁ ++ a :: e₂) = e₂.foldl (settleAction now) (settleFault k d (settle now p e₁)) := by
    rw [← h]; simp [settle]
  refine ⟨gs, ?_, ?_⟩
  · rw [h1]
    exact congrArg Settled.faults (hg (settle now p e₁).faults)
  · rw [h1, h2, settleFault, hg]
    simp

/-- No action changes which device a peripheral is, or what it owns. -/
theorem settle_attachment (now : Tick) (p : Peripheral) (e : DeviceEffect) :
    attachment (settle now p e).peripheral = attachment p := by
  refine settle_keeps (P := fun f => attachment f.peripheral = attachment p) rfl fun f a _ hf => ?_
  rcases settleAction_cases now f a with ⟨_, _, _, h⟩ | ⟨_, _, h⟩ | ⟨_, _, _, _, h⟩ | ⟨_, _, _, _, h⟩ <;>
    rw [h] <;> exact hf

/-- An effect keeps the operations under way, and starts only those of its commands. -/
theorem settle_operations (now : Tick) (p : Peripheral) (e : DeviceEffect) :
    ∃ new, (settle now p e).peripheral.operations = p.operations ++ new ∧
      ∀ o ∈ new, ∃ c x, .command c x ∈ e ∧ o = ⟨c.resource, completionTime now c.duration⟩ := by
  refine settle_keeps (P := fun f => ∃ new, f.peripheral.operations = p.operations ++ new ∧
    ∀ o ∈ new, ∃ c x, .command c x ∈ e ∧ o = ⟨c.resource, completionTime now c.duration⟩)
    ⟨[], (List.append_nil _).symm, by simp⟩ fun f a ha hf => ?_
  rcases settleAction_cases now f a with ⟨_, _, _, h⟩ | ⟨_, _, h⟩ | ⟨_, _, _, _, h⟩ | ⟨c, x, rfl, _, h⟩
  · rw [h]; exact hf
  · rw [h]; exact hf
  · rw [h]; exact hf
  · obtain ⟨new, h1, h2⟩ := hf
    rw [h]
    refine ⟨new ++ [⟨c.resource, completionTime now c.duration⟩], ?_, fun o ho => ?_⟩
    · show f.peripheral.operations ++ _ = _
      rw [h1, List.append_assoc]
    · rcases List.mem_append.1 ho with ho | ho
      · exact h2 o ho
      · exact ⟨c, x, ha, by simpa using ho⟩

/-- An effect whose actions have been stripped of their requests asks for no hardware tick. -/
@[simp] theorem settle_withoutAttention (now : Tick) (p : Peripheral) (e : DeviceEffect) :
    (settle now p (e.map withoutAttention)).attention = false := by
  refine settle_keeps (P := fun f => f.attention = false) rfl fun f a ha hf => ?_
  obtain ⟨b, _, rfl⟩ := List.mem_map.1 ha
  cases b with
  | report k d => exact hf
  | change c => simp [withoutAttention, settleAction, settleChange, hf]
  | command c x =>
    unfold settleAction withoutAttention
    dsimp only
    split
    · exact hf
    · simp [settleChange, hf]

/-- Every fault of an effect is one of the kinds a peripheral raises. -/
theorem settle_kinds (now : Tick) (p : Peripheral) (e : DeviceEffect) :
    ∀ x ∈ (settle now p e).faults, x.1 ∈ [FaultKind.spiXrun, .radioXrun, .i2cError, .peripheralBusy] := by
  refine settle_keeps (P := fun f => ∀ x ∈ f.faults, x.1 ∈ [FaultKind.spiXrun, .radioXrun, .i2cError, .peripheralBusy])
    (by simp [unsettled]) fun f a _ hf x hx => ?_
  rcases settleAction_cases now f a with ⟨k, d, _, h⟩ | ⟨_, _, h⟩ | ⟨c, _, _, _, h⟩ | ⟨_, _, _, _, h⟩ <;> rw [h] at hx
  · rcases List.mem_append.1 hx with hx | hx
    · exact hf x hx
    · rw [List.mem_singleton.1 hx]; cases k <;> simp [peripheralFaultKind]
  · exact hf x hx
  · rcases List.mem_append.1 hx with hx | hx
    · exact hf x hx
    · rw [List.mem_singleton.1 hx]; simp
  · exact hf x hx

@[simp] theorem touchesIrq_unsettled (k : Nat) (p : Peripheral) (c : Config) :
    touchesIrq k p (unsettled p) c = false := by
  simp [touchesIrq, unsettled]

/-- Storing back the peripheral that is there changes nothing. -/
theorem set_self {k : Nat} {ps : List Peripheral} {p : Peripheral} (h : ps[k]? = some p) : ps.set k p = ps := by
  apply List.ext_getElem?
  intro j
  rw [List.getElem?_set]
  split
  · next hj =>
    subst hj
    split
    · exact h.symm
    · next hl => rw [List.getElem?_eq_none (by omega)]
  · rfl

/-- An effect's records carry a peripheral fault kind and the recorded pc of R512. -/
theorem deviceFaults_kind {now : Tick} {p : Peripheral} {e : DeviceEffect} {s : State} {r : FaultRecord}
    (h : r ∈ deviceFaults (settle now p e) s) :
    r.pc = s.previousPc ∧ r.kind ∈ [FaultKind.spiXrun, .radioXrun, .i2cError, .peripheralBusy] := by
  obtain ⟨x, hx, rfl⟩ := List.mem_map.1 h
  exact ⟨rfl, settle_kinds _ _ _ x hx⟩

/-- An effect of peripheral `k` leaves every other peripheral. -/
theorem applyEffect_other {j k : Nat} (h : j ≠ k) (p : Peripheral) (e : DeviceEffect) (s : State) :
    (applyEffect k p e s).peripherals[j]? = s.peripherals[j]? :=
  List.getElem?_set_ne (Ne.symm h)

/-- Peripheral `k` after its own effect. -/
theorem applyEffect_get {k : Nat} {p : Peripheral} {s : State} (h : s.peripherals[k]? = some p) (e : DeviceEffect) :
    (applyEffect k p e s).peripherals[k]? = some (settle s.ticks p e).peripheral := by
  show (s.peripherals.set k _)[k]? = _
  rw [List.getElem?_set, if_pos rfl, if_pos (List.getElem?_eq_some_iff.1 h).1]

/-- No effect changes nothing. -/
theorem applyEffect_nil {k : Nat} {p : Peripheral} {s : State} (h : s.peripherals[k]? = some p) :
    applyEffect k p [] s = s := by
  show ({ s with
    peripherals := s.peripherals.set k p
    needHwTick := s.needHwTick || false
    irqRecheck := s.irqRecheck || (false || touchesIrq k p (unsettled p) s.cfg)
    faults := s.faults ++ [] } : State) = s
  rw [set_self h]
  simp

/-- An action that only reports adds its record, at its place in the order of the raises, and changes nothing else. -/
theorem applyEffect_report {k : Nat} {p : Peripheral} {s : State} {e₁ : DeviceEffect} {a : DeviceAction}
    {kind : FaultKind} {d : List Byte}
    (h : settleAction s.ticks (settle s.ticks p e₁) a = settleFault kind d (settle s.ticks p e₁)) (e₂ : DeviceEffect) :
    ∃ rs, (applyEffect k p (e₁ ++ e₂) s).faults = (applyEffect k p e₁ s).faults ++ rs ∧
      applyEffect k p (e₁ ++ a :: e₂) s = { applyEffect k p (e₁ ++ e₂) s with
        faults := (applyEffect k p e₁ s).faults ++ ⟨kind, s.previousPc, .device d⟩ :: rs } := by
  obtain ⟨gs, h1, h2⟩ := settle_report h e₂
  refine ⟨gs.map fun x => ⟨x.1, s.previousPc, .device x.2⟩, ?_, ?_⟩
  · show s.faults ++ deviceFaults _ s = s.faults ++ deviceFaults _ s ++ _
    simp [deviceFaults, h1]
  · unfold applyEffect
    dsimp only
    rw [h2]
    simp [deviceFaults, touchesIrq]

/-- A peripheral's effect, field by field. -/
theorem applyEffect_eq (k : Nat) (p : Peripheral) (e : DeviceEffect) (s : State) :
    applyEffect k p e s = { s with
      sfr := (applyEffect k p e s).sfr, code := (applyEffect k p e s).code,
      peripherals := (applyEffect k p e s).peripherals, needHwTick := (applyEffect k p e s).needHwTick,
      irqRecheck := (applyEffect k p e s).irqRecheck, faults := (applyEffect k p e s).faults } := rfl

/-- The owner of an SFR is the peripheral at its number, which lists that address. -/
theorem ownerOf_some {d : Byte} {s : State} {k : Nat} {p : Peripheral} (h : ownerOf d s = some (k, p)) :
    s.peripherals[k]? = some p ∧ d ∈ p.owns ∧ d ∉ s.cfg.coreSfrs := by
  unfold ownerOf at h
  split at h
  · cases h
  · next hc =>
    split at h
    · cases h
    · next j hf =>
      simp only [Option.map_eq_some_iff, Prod.mk.injEq] at h
      obtain ⟨q, hq, rfl, rfl⟩ := h
      refine ⟨hq, ?_, by simpa using hc⟩
      obtain ⟨hj, hp, _⟩ := List.findIdx?_eq_some_iff_getElem.1 hf
      rw [List.getElem?_eq_getElem hj, Option.some.injEq] at hq
      subst hq
      simpa using hp

/-- A register with no documented read side effect is read without one. -/
theorem readHandler_pure {p : Peripheral} {d : Byte} (h : d ∉ p.readEffects) (s : State) :
    (readHandler p d s).1 = [] := by
  unfold readHandler
  split
  · rfl
  · rw [if_neg (by simpa using h)]

/-- What a handler that asks for the bus leaves: the peripheral its effect leaves, and the hardware tick is asked for when
the register is one of a port or when the outputs differ from the peripheral's. -/
theorem askingForBus_settled (now : Tick) (p : Peripheral) (port : Bool) (e : DeviceEffect) :
    (settle now p (askingForBus now p port e)).peripheral = (settle now p e).peripheral ∧
    (settle now p (askingForBus now p port e)).attention = ((settle now p e).attention ||
      (port || ((settle now p e).peripheral.outEnable != p.outEnable ||
        (settle now p e).peripheral.outByte != p.outByte))) := by
  unfold askingForBus
  split
  · next h => rw [settle_concat, h]; exact ⟨rfl, rfl⟩
  · next h => simp_all

/-- A direct read leaves the state alone, or applies the effect of the owner's read handler. -/
theorem dirRead_cases (d : Byte) (s : State) :
    (dirRead d s).1 = s ∨ ∃ k p, s.peripherals[k]? = some p ∧
      (dirRead d s).1 = applyEffect k p (readHandler p d s).1 s := by
  unfold dirRead onSfrRead
  split
  · exact .inl rfl
  · cases ho : ownerOf d s with
    | none => exact .inl rfl
    | some kp => exact .inr ⟨kp.1, kp.2, (ownerOf_some ho).1, rfl⟩

/-! ### The strict checks of RETI -/

theorem firstDifference_eq (as bs : List Byte) (k : Nat) (h : as.length = bs.length) :
    firstDifference as bs k =
      (((List.range as.length).filter fun j => bs.getD j 0 != as.getD j 0).map (· + k)).head? := by
  induction as generalizing bs k with
  | nil => simp [firstDifference]
  | cons a as ih =>
    cases bs with
    | nil => simp at h
    | cons b bs =>
      have hl : as.length = bs.length := by simpa using h
      simp only [firstDifference, List.length_cons, List.range_succ_eq_map, List.filter_cons, List.getD_cons_zero]
      by_cases hab : a = b
      · subst hab
        rw [if_pos rfl, ih bs (k + 1) hl]
        simp [List.filter_map, Function.comp_def, Nat.add_comm, Nat.add_left_comm]
      · have hba : (b != a) = true := by simpa using fun h => hab h.symm
        rw [if_neg hab, if_pos hba]
        simp

/-- The checks of a strict RETI append their mismatch records and change nothing else. -/
theorem checkSnapshot_eq (l : IrqLevel) (s : State) (h : l.r.length = 8) :
    checkSnapshot l s = { s with faults := s.faults ++ iretFaults l s } := by
  have hne : ∀ {α : Type} [DecidableEq α] (x y : α) (r : FaultRecord),
      (if (x != y) = true then [r] else []) = if x = y then [] else [r] := by
    intro α _ x y r
    by_cases hxy : x = y <;> simp [hxy]
  unfold checkSnapshot
  rw [firstDifference_eq _ _ _ (by rw [h]; rfl), h]
  simp only [raiseIf_eq, iretFaults, hne]
  generalize (List.range 8).filter (fun k => (bankBytes s).getD k 0 != l.r.getD k 0) = ks
  cases ks <;> simp [raise, raiseAt, List.append_assoc]

/-! ### The shapes of the meanings -/

/-- A meaning that only stores A. -/
theorem accOnly_setAcc (op v : Byte) (s : State) : accOnly op v s (charge op (setAcc v s)) := by
  refine ⟨⟨rfl, fun d hd => ?_⟩, ?_⟩
  · show sfrGet d (setSfr 0xE0 v s) = _
    rw [sfrGet_setSfr, if_neg (by simpa using hd)]
  · show sfrGet 0xE0 (setSfr 0xE0 v s) = _
    simp

/-- A meaning that only stores CY. -/
theorem carryOnly_setCy (op : Byte) (b : Bool) (s : State) : carryOnly op b s (charge op (setCy b s)) := by
  refine ⟨⟨rfl, fun d hd => ?_⟩, fun j hj => ?_, ?_⟩
  · exact sfrGet_setCy (by simpa using hd) b s
  · rw [psw_charge, psw_setCy, bitOf_withBit, if_neg (by simpa using hj)]
  · show bitOf (psw (setCy b s)) 7 = b
    rw [psw_setCy, bitOf_withBit, if_pos rfl]

/-- A meaning that only stores one IRAM byte. -/
theorem byteStored_setIram (op a v : Byte) (s : State) : byteStored op a v s (charge op (setIram a v s)) := by
  refine ⟨⟨rfl, fun d hd => ?_⟩, ?_⟩
  · show iramGet d (setIram a v s) = _
    rw [iramGet_setIram, if_neg (by simpa using hd)]
  · show iramGet a (setIram a v s) = _
    simp

/-- No direct access changes a parameter. -/
@[simp] theorem dirRead_cfg (d : Byte) (s : State) : (dirRead d s).1.cfg = s.cfg := by
  rcases dirRead_cases d s with h | ⟨k, p, _, h⟩ <;> rw [h]
  rfl

@[simp] theorem dirWrite_cfg (d v : Byte) (s : State) : (dirWrite d v s).cfg = s.cfg := by
  have h := storedDirect_dirWrite d v s
  unfold storedDirect at h
  split at h
  · rw [h.1]
  · split at h
    · rw [h.1]
    · obtain ⟨u, h1, _, _, h2⟩ := h
      rw [h2, noteIrqSfr_eq]
      show u.cfg = _
      rw [h1]

/-- A meaning that only writes a direct operand. -/
theorem directStored_dirWrite (op d v : Byte) (s : State) : directStored op d v s (charge op (dirWrite d v s)) :=
  ⟨_, storedDirect_dirWrite d v s, by rw [charge, dirWrite_cfg]⟩

/-- A meaning that only changes a bit operand. -/
theorem bitStored_bitUpdate (op b : Byte) (f : Bool → Bool) (s : State) :
    bitStored op b f s (charge op (bitUpdate b f s)) := by
  refine ⟨withBit (dirRead (bitLoc b).1 s).2 (bitLoc b).2 (f (bitOf (dirRead (bitLoc b).1 s).2 (bitLoc b).2)),
    fun j => ?_, directStored_dirWrite _ _ _ _⟩
  rw [bitOf_withBit]
  split
  · next h => rw [h]
  · rfl

/-- A meaning that only branches. -/
theorem branched_branchIf (op : Byte) (b : Bool) (rel : Int) (s : State) :
    branched op b rel s (charge op (branchIf b rel s)) := by
  rw [branchIf_eq]; rfl

/-- A register form's opcode byte: the five opcode bits above the register number. -/
theorem opcode_register (h : BitVec 5) (n : BitVec 3) : h ++ n = (h.setWidth 8 <<< 3) + n.setWidth 8 := by
  revert h n; decide

/-- An indirect form's opcode byte: the seven opcode bits above the pointer number. -/
theorem opcode_indirect (h : BitVec 7) (n : BitVec 1) : h ++ n = (h.setWidth 8 <<< 1) + n.setWidth 8 := by
  revert h n; decide

/-- The page target: the 2 KB page of pc with the 11-bit address in it. -/
theorem pageTarget_toNat (a : BitVec 11) (s : State) :
    (pageTarget a s).toNat = s.pc.toNat / 0x800 * 0x800 + a.toNat := by
  unfold pageTarget
  rw [BitVec.toNat_append, ← Nat.shiftLeft_add_eq_or_of_lt a.isLt, Nat.shiftLeft_eq, BitVec.extractLsb'_toNat,
    Nat.shiftRight_eq_div_pow]
  have := s.pc.isLt
  omega

end Sys2Proof.Machine
end

