-- ==== Sys2Proof/Laws/Exec.lean ====
section
/-! SUPPORT. Said once for all instructions: a property that the shared operations keep, every instruction keeps; and every
instruction answers a next state. -/

namespace Sys2Proof.Machine

/-- A property of states that every shared operation of the meanings keeps. -/
structure Closed (P : State → Prop) : Prop where
  implicit : ∀ (d v : Byte) (s : State), d ∈ s.cfg.implicitSfrs → P s → P (setSfr d v s)
  iram : ∀ (a v : Byte) (s : State), P s → P (setIram a v s)
  read : ∀ (d : Byte) (s : State), P s → P (dirRead d s).1
  direct : ∀ (d v : Byte) (s : State), P s → P (dirWrite d v s)
  xdata : ∀ (a : Addr) (v : Byte) (s : State), P s → P (xdataWrite a v s)
  goto : ∀ (a : Nat) (s : State), P s → P (setPc a s)
  cost : ∀ (op : Byte) (s : State), P s → P (charge op s)
  report : ∀ (k : FaultKind) (x : Detail) (s : State), P s → P (raise k x s)
  random : ∀ s : State, P s → P (draw s).1

namespace Closed

variable {P : State → Prop} (hP : Closed P)

include hP

theorem acc (v : Byte) (s : State) (h : P s) : P (setAcc v s) := hP.implicit _ _ _ (by simp [Config.implicitSfrs]) h
theorem regB (v : Byte) (s : State) (h : P s) : P (setB v s) := hP.implicit _ _ _ (by simp [Config.implicitSfrs]) h
theorem psw (v : Byte) (s : State) (h : P s) : P (setPsw v s) := hP.implicit _ _ _ (by simp [Config.implicitSfrs]) h
theorem sp (v : Byte) (s : State) (h : P s) : P (setSp v s) := hP.implicit _ _ _ (by simp [Config.implicitSfrs]) h
theorem cy (b : Bool) (s : State) (h : P s) : P (setCy b s) := hP.psw _ _ h
theorem ac (b : Bool) (s : State) (h : P s) : P (setAc b s) := hP.psw _ _ h
theorem ov (b : Bool) (s : State) (h : P s) : P (setOv b s) := hP.psw _ _ h

theorem arith (r : AluResult) (s : State) (h : P s) : P (setArith r s) :=
  hP.ov _ _ (hP.ac _ _ (hP.cy _ _ (hP.acc _ _ h)))

theorem dptr (v : Addr) (s : State) (h : P s) : P (setDptr v s) := by
  unfold setDptr
  refine hP.implicit _ _ _ ?_ (hP.implicit _ _ _ ?_ h)
  · show dplAddr s ∈ s.cfg.implicitSfrs
    unfold dplAddr; split <;> simp [Config.implicitSfrs]
  · unfold dphAddr; split <;> simp [Config.implicitSfrs]

theorem reportIf (b : Bool) (k : FaultKind) (x : Detail) (s : State) (h : P s) : P (raiseIf b k x s) := by
  unfold raiseIf; split
  · exact hP.report _ _ _ h
  · exact h

theorem push (v : Byte) (s : State) (h : P s) : P (Machine.push v s) :=
  hP.reportIf _ _ _ _ (hP.iram _ _ _ (hP.sp _ _ h))

theorem pop (s : State) (h : P s) : P (Machine.pop s).1 := hP.reportIf _ _ _ _ (hP.sp _ _ h)

theorem pushPc (s : State) (h : P s) : P (Machine.pushPc s) := hP.push _ _ (hP.push _ _ h)

theorem popPc (s : State) (h : P s) : P (Machine.popPc s) := hP.goto _ _ (hP.pop _ (hP.pop _ h))

theorem branchIf (b : Bool) (rel : Int) (s : State) (h : P s) : P (Machine.branchIf b rel s) := by
  unfold Machine.branchIf; split
  · exact hP.goto _ _ h
  · exact h

theorem compareBranch (v w : Byte) (rel : Int) (s : State) (h : P s) : P (Machine.compareBranch v w rel s) :=
  hP.branchIf _ _ _ (hP.cy _ _ h)

theorem update (d : Byte) (f : Byte → Byte) (s : State) (h : P s) : P (dirUpdate d f s) :=
  hP.direct _ _ _ (hP.read _ _ h)

theorem bitUpdate (b : Byte) (f : Bool → Bool) (s : State) (h : P s) : P (Machine.bitUpdate b f s) := hP.update _ _ _ h

theorem bitWrite (b v) (s : State) (h : P s) : P (Machine.bitWrite b v s) := hP.bitUpdate _ _ _ h

theorem bitRead (b : Byte) (s : State) (h : P s) : P (Machine.bitRead b s).1 := hP.read _ _ h

theorem writeReg (n : BitVec 3) (v : Byte) (s : State) (h : P s) : P (Machine.writeReg n v s) := hP.iram _ _ _ h

theorem indWrite (i : BitVec 1) (v : Byte) (s : State) (h : P s) : P (Machine.indWrite i v s) := hP.iram _ _ _ h

theorem xdataRead (a : Addr) (s : State) (h : P s) : P (Machine.xdataRead a s).1 := by
  unfold Machine.xdataRead; split
  · exact h
  · exact hP.random _ (hP.report _ _ _ h)

theorem epilogue (s : State) (h : P s) : P (Machine.epilogue s) := by
  unfold Machine.epilogue; split
  · exact hP.psw _ _ h
  · exact h

theorem checkSnapshot (l : IrqLevel) (s : State) (h : P s) : P (Machine.checkSnapshot l s) := by
  unfold Machine.checkSnapshot
  have h4 := hP.reportIf (pointerBytes s != l.pointers) .iretDptrMismatch (.pointers l.pointers (pointerBytes s)) _
    (hP.reportIf (Machine.psw s != l.psw) .iretPswMismatch (.pair l.psw (Machine.psw s)) _
      (hP.reportIf (Machine.sp s != l.sp) .iretSpMismatch (.pair l.sp (Machine.sp s)) _
        (hP.reportIf (Machine.acc s != l.acc) .iretAccMismatch (.pair l.acc (Machine.acc s)) s h)))
  dsimp only
  split
  · exact h4
  · exact hP.report _ _ _ h4

end Closed

/-- Every instruction but RETI keeps a closed property. -/
theorem exec_closed {P : State → Prop} (hP : Closed P) {i : Instr} {s t : State} (hi : i ≠ .reti) (hs : P s)
    (h : exec i s = .next t) : P t := by
  have hdiv : P (if regB s = 0 then divideByZero s else divide s) := by
    split
    · exact hP.cy _ _ (hP.ov _ _ (hP.regB _ _ (hP.acc _ _ (hP.random _ (hP.random _ hs)))))
    · exact hP.cy _ _ (hP.ov _ _ (hP.regB _ _ (hP.acc _ _ hs)))
  cases i
  case reti => exact absurd rfl hi
  case divAB => cases h; exact hP.cost _ _ hdiv
  case movADir d =>
    simp only [exec, execMovADir] at h
    split at h <;> cases h
    · exact hP.cost _ _ (hP.report _ _ _ hs)
    · exact hP.cost _ _ (hP.acc _ _ (hP.read _ _ hs))
  case jbc b rel =>
    simp only [exec, execJbc] at h
    cases h
    refine hP.cost _ _ ?_
    split
    · exact hP.goto _ _ (hP.direct _ _ _ (hP.read _ _ hs))
    · exact hP.read _ _ hs
  case addARn | addAInd | addAImm | addcARn | addcAInd | addcAImm | subbARn | subbAInd | subbAImm =>
    cases h
    exact hP.cost _ _ (hP.arith _ _ hs)
  case addADir | addcADir | subbADir =>
    cases h
    exact hP.cost _ _ (hP.arith _ _ (hP.read _ _ hs))
  case incA | decA | anlARn | anlAInd | anlAImm | orlARn | orlAInd | orlAImm | xrlARn | xrlAInd | xrlAImm | clrA |
    cplA | rlA | rrA | swapA | movARn | movAInd | movAImm | movcADptr | movcAPc =>
    cases h
    exact hP.cost _ _ (hP.acc _ _ hs)
  case anlADir | orlADir | xrlADir =>
    cases h
    exact hP.cost _ _ (hP.acc _ _ (hP.read _ _ hs))
  case movxAInd | movxADptr =>
    cases h
    exact hP.cost _ _ (hP.acc _ _ (hP.xdataRead _ _ hs))
  case movxIndA | movxDptrA =>
    cases h
    exact hP.cost _ _ (hP.xdata _ _ _ hs)
  case incRn | incInd | decRn | decInd | movRnA | movRnImm | movIndA | movIndImm =>
    cases h
    exact hP.cost _ _ (hP.iram _ _ _ hs)
  case movRnDir | movIndDir =>
    cases h
    exact hP.cost _ _ (hP.iram _ _ _ (hP.read _ _ hs))
  case incDir | decDir | anlDirImm | orlDirImm | xrlDirImm =>
    cases h
    exact hP.cost _ _ (hP.update _ _ _ hs)
  case anlDirA | orlDirA | xrlDirA | movDirDir =>
    cases h
    exact hP.cost _ _ (hP.direct _ _ _ (hP.read _ _ hs))
  case movDirA | movDirRn | movDirInd | movDirImm =>
    cases h
    exact hP.cost _ _ (hP.direct _ _ _ hs)
  case incDptr | movDptrImm =>
    cases h
    exact hP.cost _ _ (hP.dptr _ _ hs)
  case mulAB =>
    cases h
    exact hP.cost _ _ (hP.ov _ _ (hP.cy _ _ (hP.regB _ _ (hP.acc _ _ hs))))
  case daA | rlcA | rrcA =>
    cases h
    exact hP.cost _ _ (hP.cy _ _ (hP.acc _ _ hs))
  case push =>
    cases h
    exact hP.cost _ _ (hP.push _ _ (hP.read _ _ hs))
  case pop =>
    cases h
    exact hP.cost _ _ (hP.direct _ _ _ (hP.pop _ hs))
  case xchARn | xchAInd | xchdAInd =>
    cases h
    exact hP.cost _ _ (hP.acc _ _ (hP.iram _ _ _ hs))
  case xchADir =>
    cases h
    exact hP.cost _ _ (hP.acc _ _ (hP.direct _ _ _ (hP.read _ _ hs)))
  case clrC | setbC | cplC =>
    cases h
    exact hP.cost _ _ (hP.cy _ _ hs)
  case anlCBit | anlCNotBit | orlCBit | orlCNotBit | movCBit =>
    cases h
    exact hP.cost _ _ (hP.cy _ _ (hP.read _ _ hs))
  case clrBit | setbBit | cplBit | movBitC =>
    cases h
    exact hP.cost _ _ (hP.bitUpdate _ _ _ hs)
  case jc | jnc | sjmp | jz | jnz =>
    cases h
    exact hP.cost _ _ (hP.branchIf _ _ _ hs)
  case jb | jnb =>
    cases h
    exact hP.cost _ _ (hP.branchIf _ _ _ (hP.read _ _ hs))
  case acall | lcall =>
    cases h
    exact hP.cost _ _ (hP.goto _ _ (hP.pushPc _ hs))
  case ret =>
    cases h
    exact hP.cost _ _ (hP.popPc _ hs)
  case ajmp | ljmp | jmpADptr =>
    cases h
    exact hP.cost _ _ (hP.goto _ _ hs)
  case cjneADir =>
    cases h
    exact hP.cost _ _ (hP.compareBranch _ _ _ _ (hP.read _ _ hs))
  case cjneAImm | cjneRnImm | cjneIndImm =>
    cases h
    exact hP.cost _ _ (hP.compareBranch _ _ _ _ hs)
  case djnzRn =>
    cases h
    exact hP.cost _ _ (hP.branchIf _ _ _ (hP.iram _ _ _ hs))
  case djnzDir =>
    cases h
    exact hP.cost _ _ (hP.branchIf _ _ _ (hP.direct _ _ _ (hP.read _ _ hs)))
  case nop =>
    cases h
    exact hP.cost _ _ (hs)
  case reserved =>
    cases h
    exact hP.cost _ _ (hP.report _ _ _ hs)

/-- The return of RETI keeps a closed property that popping a level, setting the remainder and setting irq_recheck keep. -/
theorem exec_reti_closed {P : State → Prop} (hP : Closed P) {s t : State}
    (hpop : ∀ l rest, s.irqStack = l :: rest → P { s with irqStack := rest })
    (hdelay : ∀ u : State, P u → ∀ l ∈ s.irqStack, P { u with tickDelay := u.cfg.cyclesOf 0x32 + l.savedDelay })
    (hflag : ∀ u : State, P u → P { u with irqRecheck := true }) (hs : P s) (h : exec .reti s = .next t) : P t := by
  simp only [exec, execReti] at h
  split at h <;> cases h
  · next l rest hst =>
    refine hflag _ (hdelay _ (hP.popPc _ ?_) l (by rw [hst]; exact List.mem_cons_self ..))
    split
    · exact hP.checkSnapshot _ _ (hpop l rest hst)
    · exact hpop l rest hst
  · exact hflag _ (hP.cost _ _ (hP.popPc _ hs))

/-- Every instruction answers a next state. -/
theorem exec_next (i : Instr) (s : State) : ∃ t, exec i s = .next t := by
  cases i
  case reti => simp only [exec, execReti]; split <;> exact ⟨_, rfl⟩
  case movADir d => simp only [exec, execMovADir]; split <;> exact ⟨_, rfl⟩
  all_goals exact ⟨_, rfl⟩

end Sys2Proof.Machine
end

