-- ==== Sys2Proof/Laws/Cycle.lean ====
section
/-! SUPPORT. Said once for the cycle: what a step can do, and that a property kept by the shared operations and by a
peripheral's effect is kept by every step. -/

namespace Sys2Proof.Machine

/-- A unit whose run has not ended and that SyncCheck lets run takes its cycle. -/
theorem step_of_run {s u : State} (h : runEnded s = false) (hr : syncCheck s = .run u) (ht : u.ticks < clockEnd) :
    step s = cycleBody u := by
  have h5 : ¬ (u.ticks ≥ clockEnd) := by simpa using ht
  unfold step unitStep
  simp only [h, hr, Bool.false_eq_true, if_false, if_neg h5]

/-- A unit that waits takes no cycle. -/
theorem step_of_wait {s t : State} (h : runEnded s = false) (hr : syncCheck s = .wait t) : step s = .next t := by
  unfold step unitStep
  simp only [h, hr, Bool.false_eq_true, if_false]

/-- A unit that may take a cycle takes it. -/
theorem step_of_mayCycle {s : State} (h : mayCycle s) : step s = cycleBody s :=
  step_of_run (by simp [runEnded, h.1, h.2.1]) h.2.2.2 h.2.2.1

/-- Everything a step that answers a next state can have done: it waits in SyncCheck; or, from the state `u` that
SyncCheck lets run, after the interrupt check, it counts down, halts at a breakpoint, or executes an instruction. -/
theorem step_next_cases {s t : State} (h : step s = .next t) :
    runEnded s = false ∧
    (syncCheck s = .wait t ∨ ∃ u v, syncCheck s = .run u ∧ u.ticks < clockEnd ∧ v = interruptCheck u ∧
      ((0 < v.tickDelay ∧ t = finishCycle u.faults.length v) ∨
       (v.tickDelay ≤ 0 ∧ v.pc ∈ v.cfg.breakpoints ∧ v.cfg.continues .breakpoint = false ∧
          t = { reportBreakpoint v with halted := true }) ∨
       (v.tickDelay ≤ 0 ∧ ∃ w x, (w = v ∧ v.pc ∉ v.cfg.breakpoints ∨
          w = reportBreakpoint v ∧ v.cfg.continues .breakpoint = true) ∧
          exec (fetchInstr w) (advancePc w) = .next x ∧ t = finishCycle u.faults.length (epilogue x)))) := by
  unfold step unitStep at h
  split at h
  · cases h
  next hh =>
  refine ⟨by simpa using hh, ?_⟩
  split at h
  · next u hu => cases h; exact .inl hu
  · next u hu =>
    split at h
    · cases h
    next ht =>
    refine .inr ⟨u, interruptCheck u, hu, by simpa using ht, rfl, ?_⟩
    have hex : ∀ w, executeInstr u.faults.length w = .next t →
        ∃ x, exec (fetchInstr w) (advancePc w) = .next x ∧ t = finishCycle u.faults.length (epilogue x) := by
      intro w hw
      obtain ⟨x, hx⟩ := exec_next (fetchInstr w) (advancePc w)
      unfold executeInstr at hw
      rw [hx] at hw
      cases hw
      exact ⟨x, hx, rfl⟩
    unfold cycleBody afterInterrupts at h
    split at h
    · next hd =>
      unfold fetchStage at h
      split at h
      · next hb =>
        split at h
        · next hc =>
          obtain ⟨x, hx, rfl⟩ := hex _ h
          exact .inr (.inr ⟨hd, _, x, .inr ⟨rfl, hc⟩, hx, rfl⟩)
        · next hc =>
          cases h
          exact .inr (.inl ⟨hd, by simpa using hb, by simpa using hc, rfl⟩)
      · next hb =>
        obtain ⟨x, hx, rfl⟩ := hex _ h
        exact .inr (.inr ⟨hd, _, x, .inl ⟨rfl, by simpa using hb⟩, hx, rfl⟩)
    · next hd =>
      cases h
      exact .inl ⟨by omega, rfl⟩

/-- The scan of the table returns its start or a source of the table. -/
theorem scan_mem (s : State) (xs : List IrqSource) (start : Option (IrqSource × BitVec 2)) {b : IrqSource × BitVec 2}
    (h : xs.foldl (scanSource s) start = some b) : start = some b ∨ b.1 ∈ xs := by
  induction xs generalizing start with
  | nil => exact .inl h
  | cons x xs ih =>
    rcases ih _ h with h | h
    · unfold scanSource at h
      split at h
      · split at h
        · cases h; exact .inr (List.mem_cons_self ..)
        · split at h
          · cases h; exact .inr (List.mem_cons_self ..)
          · exact .inl h
      · exact .inl h
    · exact .inr (List.mem_cons_of_mem _ h)

/-- Arbitration chooses a source of the table. -/
theorem irqChoice_mem {s : State} {b : IrqSource × BitVec 2} (h : irqChoice s = some b) : b.1 ∈ s.cfg.irqTable := by
  unfold irqChoice at h
  split at h
  · split at h
    · cases h
    · next hb =>
      split at h
      · cases h
        rcases scan_mem s _ _ hb with h | h
        · cases h
        · exact h
      · cases h
  · cases h

/-- A property of states that a peripheral's effect and the shared bus keep. -/
structure TickClosed (P : State → Prop) : Prop where
  effect : ∀ (k : Nat) (p : Peripheral) (e : DeviceEffect) (s : State), s.peripherals[k]? = some p → P s →
    P (applyEffect k p e s)
  complete : ∀ (k : Nat) (s : State), P s → P (completeOperations k s)
  attention : ∀ (b : Bool) (s : State), P s → P { s with needHwTick := b }
  bus : ∀ (v : Byte) (s : State), P s → P { s with bus := v }
  report : ∀ (k : FaultKind) (x : Detail) (s : State), P s → P (raise k x s)
  random : ∀ s : State, P s → P (draw s).1

namespace TickClosed

variable {P : State → Prop} (hP : TickClosed P)

include hP

theorem tickPeripheral (attention : Bool) (s : State) (k : Nat) (h : P s) :
    P (Machine.tickPeripheral attention s k) := by
  unfold Machine.tickPeripheral
  split
  · exact h
  · next p hp =>
    split
    · exact hP.effect _ _ _ _ (completeOperations_get hp) (hP.complete _ _ h)
    · exact h

theorem deriveBus (s : State) (h : P s) : P (Machine.deriveBus s) := by
  unfold Machine.deriveBus
  split
  · split
    · exact hP.bus _ _ h
    · exact hP.bus _ _ (hP.random _ h)
  · exact hP.bus _ _ h
  · exact hP.bus _ _ (hP.random _ (hP.report _ _ _ h))

/-- The hardware tick keeps a property that effects and the bus keep. -/
theorem hardwareTick (s : State) (h : P s) : P (Machine.hardwareTick s) := by
  unfold Machine.hardwareTick
  split
  · refine hP.deriveBus _ ?_
    generalize List.range s.peripherals.length = ks
    have h0 := hP.attention false s h
    revert h0
    generalize ({ s with needHwTick := false } : State) = u
    induction ks generalizing u with
    | nil => exact id
    | cons k ks ih => exact fun hu => ih _ (hP.tickPeripheral _ _ _ hu)
  · exact h

end TickClosed

/-- The hardware tick leaves a field that no effect, raise, draw or bus update touches. -/
theorem hardwareTick_field {α : Type} (f : State → α) (he : ∀ k p e s, f (applyEffect k p e s) = f s)
    (hc : ∀ k s, f (completeOperations k s) = f s) (ha : ∀ (b : Bool) (s : State), f { s with needHwTick := b } = f s)
    (hb : ∀ (v : Byte) (s : State), f { s with bus := v } = f s) (hr : ∀ k x s, f (raise k x s) = f s)
    (hd : ∀ s, f (draw s).1 = f s) (s : State) : f (hardwareTick s) = f s := by
  have hP : TickClosed fun u => f u = f s :=
    { effect := fun k p e u _ h => (he k p e u).trans h
      complete := fun k u h => (hc k u).trans h
      attention := fun b u h => (ha b u).trans h
      bus := fun v u h => (hb v u).trans h
      report := fun k x u h => (hr k x u).trans h
      random := fun u h => (hd u).trans h }
  exact hP.hardwareTick s rfl

/-- A property that effects keep, a direct read keeps. -/
theorem dirRead_keeps {P : State → Prop}
    (he : ∀ (k : Nat) (p : Peripheral) (e : DeviceEffect) (s : State), s.peripherals[k]? = some p → P s →
      P (applyEffect k p e s)) (d : Byte) (s : State) (h : P s) : P (dirRead d s).1 := by
  rcases dirRead_cases d s with hd | ⟨k, p, hp, hd⟩ <;> rw [hd]
  · exact h
  · exact he _ _ _ _ hp h

/-- A property that stores, effects and setting irq_recheck keep, a direct write keeps. -/
theorem dirWrite_keeps {P : State → Prop} (hs : ∀ (d v : Byte) (s : State), P s → P (setSfr d v s))
    (hi : ∀ (a v : Byte) (s : State), P s → P (setIram a v s))
    (he : ∀ (k : Nat) (p : Peripheral) (e : DeviceEffect) (s : State), s.peripherals[k]? = some p → P s →
      P (applyEffect k p e s))
    (hf : ∀ (b : Bool) (s : State), P s → P { s with irqRecheck := b }) (d v : Byte) (s : State) (h : P s) :
    P (dirWrite d v s) := by
  unfold dirWrite
  split
  · exact hi _ _ _ h
  · rw [noteIrqSfr_eq]
    apply hf
    unfold onSfrWrite
    split
    · exact hs _ _ _ h
    · next ho => exact he _ _ _ _ (ownerOf_some ho).1 (hs _ _ _ h)

/-- Completing operations leaves which devices are attached and what they own. -/
theorem completeOperations_devices (k : Nat) (s : State) :
    (completeOperations k s).peripherals.map attachment = s.peripherals.map attachment := by
  rw [completeOperations_peripherals]
  apply List.ext_getElem?
  intro j
  rw [List.getElem?_map, List.getElem?_map, List.getElem?_modify]
  cases s.peripherals[j]? with
  | none => rfl
  | some p => by_cases hj : k = j <;> simp [hj, attachment, completed]

/-- An effect leaves which devices are attached and what they own. -/
theorem applyEffect_devices (k : Nat) (p : Peripheral) (e : DeviceEffect) (s : State)
    (h : s.peripherals[k]? = some p) :
    (applyEffect k p e s).peripherals.map attachment = s.peripherals.map attachment := by
  show (s.peripherals.set k _).map _ = _
  rw [List.map_set]
  apply List.ext_getElem?
  intro j
  rw [List.getElem?_set]
  split
  · next hj =>
    subst hj
    split
    · rw [List.getElem?_map, h, Option.map_some, settle_attachment]
    · next hl => rw [List.getElem?_eq_none (by omega)]
  · rfl

/-- The hardware tick leaves these fields. -/
@[simp] theorem hardwareTick_cfg (s : State) : (hardwareTick s).cfg = s.cfg :=
  hardwareTick_field (·.cfg) (fun _ _ _ _ => rfl) (fun _ _ => rfl) (fun _ _ => rfl) (fun _ _ => rfl) (fun _ _ _ => rfl) (fun _ => rfl) s
@[simp] theorem hardwareTick_iram (s : State) : (hardwareTick s).iram = s.iram :=
  hardwareTick_field (·.iram) (fun _ _ _ _ => rfl) (fun _ _ => rfl) (fun _ _ => rfl) (fun _ _ => rfl) (fun _ _ _ => rfl) (fun _ => rfl) s
@[simp] theorem hardwareTick_xdata (s : State) : (hardwareTick s).xdata = s.xdata :=
  hardwareTick_field (·.xdata) (fun _ _ _ _ => rfl) (fun _ _ => rfl) (fun _ _ => rfl) (fun _ _ => rfl) (fun _ _ _ => rfl) (fun _ => rfl) s
@[simp] theorem hardwareTick_pc (s : State) : (hardwareTick s).pc = s.pc :=
  hardwareTick_field (·.pc) (fun _ _ _ _ => rfl) (fun _ _ => rfl) (fun _ _ => rfl) (fun _ _ => rfl) (fun _ _ _ => rfl) (fun _ => rfl) s
@[simp] theorem hardwareTick_tickDelay (s : State) : (hardwareTick s).tickDelay = s.tickDelay :=
  hardwareTick_field (·.tickDelay) (fun _ _ _ _ => rfl) (fun _ _ => rfl) (fun _ _ => rfl) (fun _ _ => rfl) (fun _ _ _ => rfl)
    (fun _ => rfl) s
@[simp] theorem hardwareTick_irqStack (s : State) : (hardwareTick s).irqStack = s.irqStack :=
  hardwareTick_field (·.irqStack) (fun _ _ _ _ => rfl) (fun _ _ => rfl) (fun _ _ => rfl) (fun _ _ => rfl) (fun _ _ _ => rfl)
    (fun _ => rfl) s
@[simp] theorem hardwareTick_halted (s : State) : (hardwareTick s).halted = s.halted :=
  hardwareTick_field (·.halted) (fun _ _ _ _ => rfl) (fun _ _ => rfl) (fun _ _ => rfl) (fun _ _ => rfl) (fun _ _ _ => rfl)
    (fun _ => rfl) s
@[simp] theorem hardwareTick_ticks (s : State) : (hardwareTick s).ticks = s.ticks :=
  hardwareTick_field (·.ticks) (fun _ _ _ _ => rfl) (fun _ _ => rfl) (fun _ _ => rfl) (fun _ _ => rfl) (fun _ _ _ => rfl) (fun _ => rfl) s
@[simp] theorem hardwareTick_sync (s : State) : (hardwareTick s).sync = s.sync :=
  hardwareTick_field (·.sync) (fun _ _ _ _ => rfl) (fun _ _ => rfl) (fun _ _ => rfl) (fun _ _ => rfl) (fun _ _ _ => rfl) (fun _ => rfl) s

/-- A property of states that the shared operations, a peripheral's effect and the cycle's own bookkeeping keep. -/
structure CycleClosed (P : State → Prop) : Prop extends Closed P, TickClosed P where
  fetch : ∀ s : State, P s → P { s with previousPc := s.pc }
  clear : ∀ (d : Byte) (b : BitVec 3) (x : IrqSource) (s : State), x ∈ s.cfg.irqTable → x.autoClear = some (d, b) → P s →
    P (setSfr d (withBit (sfrGet d s) b false) s)
  level : ∀ (ls : List IrqLevel) (n : Int) (s : State), P s → P { s with irqStack := ls, tickDelay := n }
  flag : ∀ (b : Bool) (s : State), P s → P { s with irqRecheck := b }
  stop : ∀ s : State, P s → P { s with halted := true }
  clock : ∀ s : State, P s → P { s with ticks := s.ticks + 1 }
  breakpoint : ∀ s : State, P s → P (reportBreakpoint s)
  rendezvous : ∀ (y z : Sync) (s : State), s.sync = some y → P s → P { s with sync := some z }

namespace CycleClosed

variable {P : State → Prop} (hP : CycleClosed P)

include hP

theorem finishCycle (n : Nat) (s : State) (h : P s) : P (Machine.finishCycle n s) := by
  have h1 := hP.clock _ (hP.toTickClosed.hardwareTick { s with tickDelay := s.tickDelay - 1 } (hP.level _ _ s h))
  unfold Machine.finishCycle faultPolicy
  dsimp only
  split
  · exact hP.stop _ h1
  · exact h1

theorem dispatch (x : IrqSource) (p : BitVec 2) (s : State) (hx : x ∈ s.cfg.irqTable) (h : P s) :
    P (Machine.dispatch x p s) := by
  have h1 := hP.goto x.vector.toNat _ (hP.toClosed.pushPc _ h)
  have hc : (setPc x.vector.toNat (pushPc s)).cfg = s.cfg := pushPc_cfg s
  unfold Machine.dispatch autoClear
  dsimp only
  split
  · exact hP.level _ _ _ h1
  · next d b hd => exact hP.clear _ _ x _ (by rw [← hc] at hx; exact hx) hd (hP.level _ _ _ h1)

theorem interruptCheck (s : State) (h : P s) : P (Machine.interruptCheck s) := by
  unfold Machine.interruptCheck arbitrate
  split
  · split
    · next b hb => exact hP.dispatch _ _ _ (irqChoice_mem hb) h
    · exact hP.flag _ _ h
  · exact h

theorem exec {i : Instr} {s t : State} (h : P s) (hx : Machine.exec i s = .next t) : P t := by
  by_cases hi : i = .reti
  · subst hi
    exact exec_reti_closed hP.toClosed (fun l rest _ => hP.level rest s.tickDelay s h)
      (fun u hu l _ => hP.level u.irqStack _ u hu) (fun u hu => hP.flag _ u hu) h hx
  · exact exec_closed hP.toClosed hi h hx

theorem syncCheck {s u : State} (h : P s) (hs : Machine.syncCheck s = .run u ∨ Machine.syncCheck s = .wait u) :
    P u := by
  unfold Machine.syncCheck at hs
  split at hs
  · rcases hs with hs | hs <;> cases hs
    exact h
  · next y hy =>
    split at hs <;> split at hs <;> rcases hs with hs | hs <;> cases hs
    · exact h
    · exact hP.rendezvous _ _ s hy h
    · exact hP.rendezvous _ _ s hy h
    · exact h

/-- Every step keeps a cycle-closed property. -/
theorem step {s t : State} (h : P s) (hs : Machine.step s = .next t) : P t := by
  rcases (step_next_cases hs).2 with hw | ⟨u, v, hu, _, rfl, hc⟩
  · exact hP.syncCheck h (.inr hw)
  · have hv := hP.interruptCheck u (hP.syncCheck h (.inl hu))
    rcases hc with ⟨_, rfl⟩ | ⟨_, _, _, rfl⟩ | ⟨_, w, x, hw, hx, rfl⟩
    · exact hP.finishCycle _ _ hv
    · exact hP.stop _ (hP.breakpoint _ hv)
    · have hPw : P w := by
        rcases hw with ⟨rfl, _⟩ | ⟨rfl, _⟩
        · exact hv
        · exact hP.breakpoint _ hv
      exact hP.finishCycle _ _ (hP.toClosed.epilogue _ (hP.exec (hP.goto _ _ (hP.fetch _ hPw)) hx))

end CycleClosed

end Sys2Proof.Machine
end

