-- ==== Sys2Proof/Laws/Fields.lean ====
section
/-! SUPPORT. The fields that the parts of a cycle leave alone, and what the end of a cycle does to the counters. -/

namespace Sys2Proof.Machine

/-- A field that no shared operation touches is a closed property. -/
theorem closed_of_field {α : Type} (f : State → α) (a : α) (hs : ∀ d v s, f (setSfr d v s) = f s)
    (hi : ∀ d v s, f (setIram d v s) = f s) (he : ∀ k p e s, f (applyEffect k p e s) = f s)
    (hf : ∀ (b : Bool) (s : State), f { s with irqRecheck := b } = f s) (hx : ∀ a v s, f (xdataWrite a v s) = f s)
    (hg : ∀ n s, f (setPc n s) = f s) (hc : ∀ op s, f (charge op s) = f s) (hr : ∀ k x s, f (raise k x s) = f s)
    (hd : ∀ s, f (draw s).1 = f s) : Closed fun s => f s = a where
  implicit := fun d v s _ h => (hs d v s).trans h
  iram := fun d v s h => (hi d v s).trans h
  read := dirRead_keeps fun k p e s _ h => (he k p e s).trans h
  direct := dirWrite_keeps (fun d v s h => (hs d v s).trans h) (fun d v s h => (hi d v s).trans h)
    (fun k p e s _ h => (he k p e s).trans h) (fun b s h => (hf b s).trans h)
  xdata := fun a v s h => (hx a v s).trans h
  goto := fun n s h => (hg n s).trans h
  cost := fun op s h => (hc op s).trans h
  report := fun k x s h => (hr k x s).trans h
  random := fun s h => (hd s).trans h

/-- A write of external data changes external data or the fault log. -/
theorem xdataWrite_eq (a : Addr) (v : Byte) (s : State) :
    xdataWrite a v s = { s with xdata := (xdataWrite a v s).xdata, faults := (xdataWrite a v s).faults } := by
  unfold xdataWrite; split <;> rfl

/-- No instruction touches the parameters, the clock, `halted`, the rendezvous, the run flag or previous_pc. -/
theorem exec_fields {i : Instr} {s t : State} (h : exec i s = .next t) :
    t.cfg = s.cfg ∧ t.ticks = s.ticks ∧ t.halted = s.halted ∧ t.sync = s.sync ∧ t.runFlag = s.runFlag ∧
      t.previousPc = s.previousPc := by
  have hC : Closed fun u => (u.cfg, u.ticks, u.halted, u.sync, u.runFlag, u.previousPc) =
      (s.cfg, s.ticks, s.halted, s.sync, s.runFlag, s.previousPc) :=
    closed_of_field (fun u : State => (u.cfg, u.ticks, u.halted, u.sync, u.runFlag, u.previousPc)) _
      (fun _ _ _ => rfl) (fun _ _ _ => rfl) (fun _ _ _ _ => rfl) (fun _ _ => rfl)
      (fun a v s => by rw [xdataWrite_eq]) (fun _ _ => rfl) (fun _ _ => rfl) (fun _ _ _ => rfl) (fun _ => rfl)
  by_cases hi : i = .reti
  · subst hi
    simpa using exec_reti_closed hC (fun _ _ _ => rfl) (fun u hu _ _ => hu) (fun u hu => hu) rfl h
  · simpa using exec_closed hC hi rfl h

/-- No instruction but RETI touches the interrupt stack. -/
theorem exec_irqStack {i : Instr} (hi : i ≠ .reti) {s t : State} (h : exec i s = .next t) : t.irqStack = s.irqStack :=
  exec_closed (closed_of_field (·.irqStack) s.irqStack (fun _ _ _ => rfl) (fun _ _ _ => rfl) (fun _ _ _ _ => rfl)
    (fun _ _ => rfl) (fun a v s => by rw [xdataWrite_eq]) (fun _ _ => rfl) (fun _ _ => rfl) (fun _ _ _ => rfl)
    (fun _ => rfl)) hi rfl h

/-- Pushing pc leaves everything but IRAM, the SFR file and the fault log. -/
theorem pushPc_frame (s : State) :
    pushPc s = { s with iram := (pushPc s).iram, sfr := (pushPc s).sfr, faults := (pushPc s).faults } := by
  have h1 := (pushed_push (s.pc.extractLsb' 0 8) s).1
  have h2 := (pushed_push (s.pc.extractLsb' 8 8) (push (s.pc.extractLsb' 0 8) s)).1
  have h3 : pushPc s = push (s.pc.extractLsb' 8 8) (push (s.pc.extractLsb' 0 8) s) := rfl
  rw [h3, h2, h1]

/-- What dispatch does to the fields that are no memory. -/
theorem dispatch_fields (x : IrqSource) (p : BitVec 2) (s : State) :
    (dispatch x p s).cfg = s.cfg ∧ (dispatch x p s).tickDelay = s.cfg.irqLatency ∧
      (dispatch x p s).irqStack = snapshot p s.tickDelay (setPc x.vector.toNat (pushPc s)) :: s.irqStack ∧
      (dispatch x p s).irqRecheck = s.irqRecheck ∧ (dispatch x p s).ticks = s.ticks ∧
      (dispatch x p s).halted = s.halted ∧ (dispatch x p s).sync = s.sync ∧
      (dispatch x p s).previousPc = s.previousPc := by
  have h := pushPc_frame s
  have hi : (pushPc s).irqStack = s.irqStack := by rw [h]
  have hr : (pushPc s).irqRecheck = s.irqRecheck := by rw [h]
  have ht : (pushPc s).ticks = s.ticks := by rw [h]
  have hh : (pushPc s).halted = s.halted := by rw [h]
  have hs : (pushPc s).sync = s.sync := by rw [h]
  have hp : (pushPc s).previousPc = s.previousPc := by rw [h]
  unfold dispatch autoClear
  dsimp only
  split <;> simp [hi, hr, ht, hh, hs, hp]

/-- The interrupt check leaves these fields. -/
theorem interruptCheck_fields (s : State) :
    (interruptCheck s).cfg = s.cfg ∧ (interruptCheck s).ticks = s.ticks ∧ (interruptCheck s).halted = s.halted ∧
      (interruptCheck s).sync = s.sync := by
  unfold interruptCheck arbitrate
  split
  · split
    · next b _ =>
      obtain ⟨h1, _, _, _, h2, h3, h4, _⟩ := dispatch_fields b.1 b.2 s
      exact ⟨h1, h2, h3, h4⟩
    · exact ⟨rfl, rfl, rfl, rfl⟩
  · exact ⟨rfl, rfl, rfl, rfl⟩

/-- SyncCheck changes the rendezvous state only. -/
theorem syncCheck_frame {s u : State} (h : syncCheck s = .run u ∨ syncCheck s = .wait u) :
    u = { s with sync := u.sync } := by
  unfold syncCheck at h
  split at h
  · rcases h with h | h <;> cases h; rfl
  · split at h <;> split at h <;> rcases h with h | h <;> cases h <;> rfl

/-- The end of a cycle: one tick more, one cycle of the remainder less. -/
theorem finishCycle_fields (n : Nat) (s : State) :
    (finishCycle n s).cfg = s.cfg ∧ (finishCycle n s).ticks = s.ticks + 1 ∧
      (finishCycle n s).tickDelay = s.tickDelay - 1 ∧ (finishCycle n s).irqStack = s.irqStack ∧
      (finishCycle n s).sync = s.sync ∧ (finishCycle n s).iram = s.iram ∧ (finishCycle n s).pc = s.pc := by
  unfold finishCycle faultPolicy
  dsimp only
  split <;> simp

end Sys2Proof.Machine
end

