-- ==== Sys2Proof/Laws/Interrupts.lean ====
section
/-! SUPPORT. What arbitration reads, and the scan of the interrupt table. -/

namespace Sys2Proof.Machine

/-- A predicate reads its SFRs and the bytes of its peripherals only. -/
theorem evalCond_congr {s t : State} (c : Cond) (h1 : ∀ d ∈ c.sfrs, sfrGet d t = sfrGet d s)
    (h2 : ∀ k ∈ c.devices, (t.peripherals[k]?).map (·.bytes) = (s.peripherals[k]?).map (·.bytes)) :
    evalCond t c = evalCond s c := by
  induction c with
  | const b => rfl
  | sfrBit d b => simp [evalCond, h1 d (by simp [Cond.sfrs])]
  | deviceBit k n b =>
    have := h2 k (by simp [Cond.devices])
    unfold evalCond
    cases ht : t.peripherals[k]? <;> cases hs : s.peripherals[k]? <;> rw [ht, hs] at this <;> simp at this
    · simp [this]
  | not c ih => simp [evalCond, ih h1 h2]
  | both c d ih1 ih2 =>
    simp only [Cond.sfrs, Cond.devices, List.mem_append] at h1 h2
    simp [evalCond, ih1 (fun d hd => h1 d (.inl hd)) (fun d hd => h2 d (.inl hd)),
      ih2 (fun d hd => h1 d (.inr hd)) (fun d hd => h2 d (.inr hd))]
  | either c d ih1 ih2 =>
    simp only [Cond.sfrs, Cond.devices, List.mem_append] at h1 h2
    simp [evalCond, ih1 (fun d hd => h1 d (.inl hd)) (fun d hd => h2 d (.inl hd)),
      ih2 (fun d hd => h1 d (.inr hd)) (fun d hd => h2 d (.inr hd))]

/-- Two states that agree on every source's predicates scan alike. -/
theorem scan_congr {s t : State} (xs : List IrqSource) (b : Option (IrqSource × BitVec 2))
    (h : ∀ x ∈ xs, evalCond t x.enabled = evalCond s x.enabled ∧ evalCond t x.pending = evalCond s x.pending ∧
      sourcePriority t x = sourcePriority s x) : xs.foldl (scanSource t) b = xs.foldl (scanSource s) b := by
  induction xs generalizing b with
  | nil => rfl
  | cons x xs ih =>
    have hx := h x (List.mem_cons_self ..)
    have : scanSource t b x = scanSource s b x := by
      unfold scanSource; rw [hx.1, hx.2.1, hx.2.2]
    simp only [List.foldl_cons, this]
    exact ih _ fun y hy => h y (List.mem_cons_of_mem _ hy)

/-- Arbitration reads the parameters, EA, the interrupt stack, and what the table's predicates read. -/
theorem irqChoice_congr {s t : State} (hc : t.cfg = s.cfg) (hst : t.irqStack = s.irqStack)
    (ha : sfrGet 0xA8 t = sfrGet 0xA8 s)
    (h1 : ∀ x ∈ s.cfg.irqTable, ∀ d ∈ x.sfrs, sfrGet d t = sfrGet d s)
    (h2 : ∀ x ∈ s.cfg.irqTable, ∀ k ∈ x.devices,
      (t.peripherals[k]?).map (·.bytes) = (s.peripherals[k]?).map (·.bytes)) : irqChoice t = irqChoice s := by
  have hb : bestSource t = bestSource s := by
    unfold bestSource
    rw [hc]
    apply scan_congr
    intro x hx
    have e1 := h1 x hx
    have e2 := h2 x hx
    simp only [IrqSource.sfrs, IrqSource.devices, List.mem_append] at e1 e2
    have q1 := evalCond_congr x.enabled (fun d hd => e1 d (.inl hd)) (fun d hd => e2 d (.inl hd))
    have q2 := evalCond_congr x.pending (fun d hd => e1 d (.inr (.inl hd))) (fun d hd => e2 d (.inr (.inl hd)))
    have q3 := evalCond_congr x.priorityHigh (fun d hd => e1 d (.inr (.inr (.inl hd))))
      (fun d hd => e2 d (.inr (.inr (.inl hd))))
    have q4 := evalCond_congr x.priorityLow (fun d hd => e1 d (.inr (.inr (.inr hd))))
      (fun d hd => e2 d (.inr (.inr (.inr hd))))
    exact ⟨q1, q2, by unfold sourcePriority; rw [q3, q4]⟩
  unfold irqChoice irqEnabled mayPreempt
  rw [ha, hb, hst]

/-- SFR bytes that a peripheral's writes do not name read as before. -/
theorem read_applySfrWrites (ws : List (Byte × Byte)) (m : Memory) (d : Byte) (h : ∀ w ∈ ws, w.1 ≠ d) :
    Memory.read unspecByte (applySfrWrites ws m) d.toNat = Memory.read unspecByte m d.toNat := by
  unfold applySfrWrites
  induction ws generalizing m with
  | nil => rfl
  | cons w ws ih =>
    simp only [List.foldl_cons]
    rw [ih _ (fun v hv => h v (List.mem_cons_of_mem _ hv))]
    split
    · rw [Memory.read_write, if_neg]
      exact fun hh => h w (List.mem_cons_self ..) (BitVec.eq_of_toNat_eq hh.symm)
    · rfl

end Sys2Proof.Machine
end

