-- ==== Sys2Proof/Laws/Memories.lean ====
section
/-! SUPPORT. Every operation over the memories of a state keeps their canonical form and their bounds, and the reset state
has them. -/

namespace Sys2Proof.Machine

theorem memoriesOk_iff (s : State) : memoriesOk s = true ↔
    (Memory.wf unspecByte s.iram = true ∧ Memory.within 0x00 0x100 s.iram = true) ∧
    (Memory.wf unspecByte s.sfr = true ∧ Memory.within 0x80 0x100 s.sfr = true) ∧
    (Memory.wf codeErased s.code = true ∧ Memory.within 0 s.cfg.codeSize s.code = true) ∧
    (Memory.wf unspecByte s.xdata = true ∧ Memory.within 0 0x10000 s.xdata = true) := by
  simp only [memoriesOk, Bool.and_eq_true]

/-- `memoriesOk` reads the four memories and the parameters only. -/
theorem memoriesOk_congr {s t : State} (h1 : t.iram = s.iram) (h2 : t.sfr = s.sfr) (h3 : t.code = s.code)
    (h4 : t.xdata = s.xdata) (h5 : t.cfg = s.cfg) : memoriesOk t = memoriesOk s := by
  simp only [memoriesOk, h1, h2, h3, h4, h5]

theorem memoriesOk_setIram {s : State} (h : memoriesOk s = true) (a v : Byte) : memoriesOk (setIram a v s) = true := by
  rw [memoriesOk_iff] at *
  exact ⟨⟨Memory.wf_write h.1.1 _ _, Memory.within_write h.1.2 (Nat.zero_le _) a.isLt _⟩, h.2⟩

theorem memoriesOk_setSfr {s : State} (h : memoriesOk s = true) {d : Byte} (hd : isSfrAddr d = true) (v : Byte) :
    memoriesOk (setSfr d v s) = true := by
  rw [memoriesOk_iff] at *
  have h80 : 0x80 ≤ d.toNat := by simpa [isSfrAddr, BitVec.le_def] using hd
  exact ⟨h.1, ⟨Memory.wf_write h.2.1.1 _ _, Memory.within_write h.2.1.2 h80 d.isLt _⟩, h.2.2⟩

theorem memoriesOk_xdataWrite {s : State} (h : memoriesOk s = true) (a : Addr) (v : Byte) :
    memoriesOk (xdataWrite a v s) = true := by
  unfold xdataWrite
  split
  · rw [memoriesOk_iff] at *
    exact ⟨h.1, h.2.1, h.2.2.1, Memory.wf_write h.2.2.2.1 _ _,
      Memory.within_write h.2.2.2.2 (Nat.zero_le _) a.isLt _⟩
  · rw [memoriesOk_congr (s := s)] <;> first | rfl | exact h

/-- A peripheral's SFR writes keep the SFR file's form. -/
theorem applySfrWrites_ok (ws : List (Byte × Byte)) {m : Memory}
    (h : Memory.wf unspecByte m = true ∧ Memory.within 0x80 0x100 m = true) :
    Memory.wf unspecByte (applySfrWrites ws m) = true ∧ Memory.within 0x80 0x100 (applySfrWrites ws m) = true := by
  unfold applySfrWrites
  induction ws generalizing m with
  | nil => exact h
  | cons w ws ih =>
    refine ih ?_
    dsimp only
    split
    · next hw =>
      have h80 : 0x80 ≤ w.1.toNat := by simpa [isSfrAddr, BitVec.le_def] using hw
      exact ⟨Memory.wf_write h.1 _ _, Memory.within_write h.2 h80 w.1.isLt _⟩
    · exact h

/-- A peripheral's code writes keep code memory's form. -/
theorem applyCodeWrites_ok {n : Nat} (hn : 0 < n) (ws : List (Addr × Byte)) {m : Memory}
    (h : Memory.wf codeErased m = true ∧ Memory.within 0 n m = true) :
    Memory.wf codeErased (applyCodeWrites n ws m) = true ∧ Memory.within 0 n (applyCodeWrites n ws m) = true := by
  unfold applyCodeWrites
  induction ws generalizing m with
  | nil => exact h
  | cons w ws ih =>
    exact ih ⟨Memory.wf_write h.1 _ _, Memory.within_write h.2 (Nat.zero_le _) (Nat.mod_lt _ hn) _⟩

theorem memoriesOk_applyEffect {s : State} (h : memoriesOk s = true) (k : Nat) (p : Peripheral) (e : DeviceEffect) :
    memoriesOk (applyEffect k p e s) = true := by
  rw [memoriesOk_iff] at *
  exact ⟨h.1, applySfrWrites_ok (settle s.ticks p e).sfrWrites h.2.1,
    applyCodeWrites_ok (codeSize_pos _) (settle s.ticks p e).codeWrites h.2.2.1, h.2.2.2⟩

theorem memoriesOk_completeOperations {s : State} (h : memoriesOk s = true) (k : Nat) :
    memoriesOk (completeOperations k s) = true := h

theorem memoriesOk_dirRead {s : State} (h : memoriesOk s = true) (d : Byte) : memoriesOk (dirRead d s).1 = true := by
  rcases dirRead_cases d s with hd | ⟨k, p, _, hd⟩ <;> rw [hd]
  · exact h
  · exact memoriesOk_applyEffect h _ _ _

theorem memoriesOk_dirWrite {s : State} (h : memoriesOk s = true) (d v : Byte) : memoriesOk (dirWrite d v s) = true := by
  unfold dirWrite
  split
  · exact memoriesOk_setIram h _ _
  · next hd =>
    have hs : isSfrAddr d = true := by
      have : ¬ d.toNat ≤ 0x7F := by simpa [BitVec.le_def] using hd
      simp only [isSfrAddr, decide_eq_true_eq, BitVec.le_def]
      show 0x80 ≤ d.toNat
      omega
    have hn : memoriesOk (noteIrqSfr d (onSfrWrite d (setSfr d v s))) = memoriesOk (onSfrWrite d (setSfr d v s)) := by
      rw [noteIrqSfr_eq]
      exact memoriesOk_congr rfl rfl rfl rfl rfl
    rw [hn]
    unfold onSfrWrite
    split
    · exact memoriesOk_setSfr h hs _
    · exact memoriesOk_applyEffect (memoriesOk_setSfr h hs _) _ _ _

/-- The program image loader's stores keep the canonical form. -/
theorem wf_applyRecord {n : Nat} {m m' : Memory} {bs : List Byte} (h : Memory.wf codeErased m = true)
    (hr : applyRecord n m bs = .ok (.more m')) : Memory.wf codeErased m' = true := by
  unfold applyRecord at hr
  split at hr
  · split at hr
    · cases hr
    · split at hr
      · cases hr
      · split at hr
        · split at hr <;> cases hr
          exact Memory.wf_writeBytes _ h _
        · split at hr <;> cases hr
  · cases hr

/-- The reset state's memories have their form. -/
theorem memoriesOk_reset : memoriesOk State.reset = true := by decide

end Sys2Proof.Machine
end

