-- ==== Sys2Proof/Laws/PerInstr.lean ====
section
/-! SUPPORT. Statements about every instruction, one lemma per constructor. `EncodeLength`: the encoding of an instruction
has the length its opcode byte gives (30_encoding.md rules R120, R124). -/

namespace Sys2Proof.Laws.EncodeLength

/-- The encoding of `i` has LEN(op) bytes, op its first byte. -/
def Statement (i : Instr) : Prop := (encode i).length = lenOf (opcodeOf i)

/-- Opcode rows with a register number. -/
theorem register_lengths : ∀ n : BitVec 3,
    (∀ h ∈ [0b00101#5, 0b00111#5, 0b10011#5, 0b00001#5, 0b00011#5, 0b01011#5, 0b01001#5, 0b01101#5, 0b11101#5,
      0b11111#5, 0b11001#5], lenOf (h ++ n) = 1) ∧
    (∀ h ∈ [0b10101#5, 0b01111#5, 0b10001#5, 0b11011#5], lenOf (h ++ n) = 2) ∧
    lenOf (0b10111#5 ++ n) = 3 := by decide +kernel

/-- Opcode rows with a pointer number. -/
theorem pointer_lengths : ∀ i : BitVec 1,
    (∀ h ∈ [0b0010011#7, 0b0011011#7, 0b1001011#7, 0b0000011#7, 0b0001011#7, 0b0101011#7, 0b0100011#7, 0b0110011#7,
      0b1110011#7, 0b1111011#7, 0b1110001#7, 0b1111001#7, 0b1100011#7, 0b1101011#7], lenOf (h ++ i) = 1) ∧
    (∀ h ∈ [0b1000011#7, 0b1010011#7, 0b0111011#7], lenOf (h ++ i) = 2) ∧
    lenOf (0b1011011#7 ++ i) = 3 := by decide +kernel

/-- Opcode rows with an 11-bit address. -/
theorem page_lengths : ∀ p : BitVec 3, lenOf (p ++ 0b10001#5) = 2 ∧ lenOf (p ++ 0b00001#5) = 2 := by decide +kernel

/-- The one-byte rows of one opcode byte. -/
theorem fixed_lengths_1 : ∀ op : Byte, op ∈ [0x04, 0xA3, 0x14, 0xA4, 0x84, 0xD4, 0xE4, 0xF4, 0x23, 0x33, 0x03, 0x13, 0xC4, 0x93, 0x83, 0xE0, 0xF0,
    0xC3, 0xD3, 0xB3, 0x22, 0x32, 0x73, 0x00, 0xA5] → lenOf op = 1 := by
  decide +kernel

/-- The two-byte rows of one opcode byte. -/
theorem fixed_lengths_2 : ∀ op : Byte, op ∈ [0x25, 0x24, 0x35, 0x34, 0x95, 0x94, 0x05, 0x15, 0x55, 0x54, 0x52, 0x45, 0x44, 0x42, 0x65, 0x64, 0x62,
    0xE5, 0x74, 0xF5, 0xC0, 0xD0, 0xC5, 0xC2, 0xD2, 0xB2, 0x82, 0xB0, 0x72, 0xA0, 0xA2, 0x92, 0x40, 0x50,
    0x80, 0x60, 0x70] → lenOf op = 2 := by
  decide +kernel

/-- The three-byte rows of one opcode byte. -/
theorem fixed_lengths_3 : ∀ op : Byte, op ∈ [0x53, 0x43, 0x63, 0x85, 0x75, 0x90, 0x20, 0x30, 0x10, 0x12, 0x02, 0xB5, 0xB4, 0xD5] → lenOf op = 3 := by
  decide +kernel

theorem addARn (n : BitVec 3) : Statement (.addARn n) := ((register_lengths n).1 _ (by decide)).symm
theorem addADir (d : Byte) : Statement (.addADir d) := (fixed_lengths_2 0x25 (by decide)).symm
theorem addAInd (i : BitVec 1) : Statement (.addAInd i) := ((pointer_lengths i).1 _ (by decide)).symm
theorem addAImm (imm : Byte) : Statement (.addAImm imm) := (fixed_lengths_2 0x24 (by decide)).symm
theorem addcARn (n : BitVec 3) : Statement (.addcARn n) := ((register_lengths n).1 _ (by decide)).symm
theorem addcADir (d : Byte) : Statement (.addcADir d) := (fixed_lengths_2 0x35 (by decide)).symm
theorem addcAInd (i : BitVec 1) : Statement (.addcAInd i) := ((pointer_lengths i).1 _ (by decide)).symm
theorem addcAImm (imm : Byte) : Statement (.addcAImm imm) := (fixed_lengths_2 0x34 (by decide)).symm
theorem subbARn (n : BitVec 3) : Statement (.subbARn n) := ((register_lengths n).1 _ (by decide)).symm
theorem subbADir (d : Byte) : Statement (.subbADir d) := (fixed_lengths_2 0x95 (by decide)).symm
theorem subbAInd (i : BitVec 1) : Statement (.subbAInd i) := ((pointer_lengths i).1 _ (by decide)).symm
theorem subbAImm (imm : Byte) : Statement (.subbAImm imm) := (fixed_lengths_2 0x94 (by decide)).symm
theorem incA : Statement .incA := (fixed_lengths_1 0x04 (by decide)).symm
theorem incRn (n : BitVec 3) : Statement (.incRn n) := ((register_lengths n).1 _ (by decide)).symm
theorem incDir (d : Byte) : Statement (.incDir d) := (fixed_lengths_2 0x05 (by decide)).symm
theorem incInd (i : BitVec 1) : Statement (.incInd i) := ((pointer_lengths i).1 _ (by decide)).symm
theorem incDptr : Statement .incDptr := (fixed_lengths_1 0xA3 (by decide)).symm
theorem decA : Statement .decA := (fixed_lengths_1 0x14 (by decide)).symm
theorem decRn (n : BitVec 3) : Statement (.decRn n) := ((register_lengths n).1 _ (by decide)).symm
theorem decDir (d : Byte) : Statement (.decDir d) := (fixed_lengths_2 0x15 (by decide)).symm
theorem decInd (i : BitVec 1) : Statement (.decInd i) := ((pointer_lengths i).1 _ (by decide)).symm
theorem mulAB : Statement .mulAB := (fixed_lengths_1 0xA4 (by decide)).symm
theorem divAB : Statement .divAB := (fixed_lengths_1 0x84 (by decide)).symm
theorem daA : Statement .daA := (fixed_lengths_1 0xD4 (by decide)).symm
theorem anlARn (n : BitVec 3) : Statement (.anlARn n) := ((register_lengths n).1 _ (by decide)).symm
theorem anlADir (d : Byte) : Statement (.anlADir d) := (fixed_lengths_2 0x55 (by decide)).symm
theorem anlAInd (i : BitVec 1) : Statement (.anlAInd i) := ((pointer_lengths i).1 _ (by decide)).symm
theorem anlAImm (imm : Byte) : Statement (.anlAImm imm) := (fixed_lengths_2 0x54 (by decide)).symm
theorem anlDirA (d : Byte) : Statement (.anlDirA d) := (fixed_lengths_2 0x52 (by decide)).symm
theorem anlDirImm (d : Byte) (imm : Byte) : Statement (.anlDirImm d imm) := (fixed_lengths_3 0x53 (by decide)).symm
theorem orlARn (n : BitVec 3) : Statement (.orlARn n) := ((register_lengths n).1 _ (by decide)).symm
theorem orlADir (d : Byte) : Statement (.orlADir d) := (fixed_lengths_2 0x45 (by decide)).symm
theorem orlAInd (i : BitVec 1) : Statement (.orlAInd i) := ((pointer_lengths i).1 _ (by decide)).symm
theorem orlAImm (imm : Byte) : Statement (.orlAImm imm) := (fixed_lengths_2 0x44 (by decide)).symm
theorem orlDirA (d : Byte) : Statement (.orlDirA d) := (fixed_lengths_2 0x42 (by decide)).symm
theorem orlDirImm (d : Byte) (imm : Byte) : Statement (.orlDirImm d imm) := (fixed_lengths_3 0x43 (by decide)).symm
theorem xrlARn (n : BitVec 3) : Statement (.xrlARn n) := ((register_lengths n).1 _ (by decide)).symm
theorem xrlADir (d : Byte) : Statement (.xrlADir d) := (fixed_lengths_2 0x65 (by decide)).symm
theorem xrlAInd (i : BitVec 1) : Statement (.xrlAInd i) := ((pointer_lengths i).1 _ (by decide)).symm
theorem xrlAImm (imm : Byte) : Statement (.xrlAImm imm) := (fixed_lengths_2 0x64 (by decide)).symm
theorem xrlDirA (d : Byte) : Statement (.xrlDirA d) := (fixed_lengths_2 0x62 (by decide)).symm
theorem xrlDirImm (d : Byte) (imm : Byte) : Statement (.xrlDirImm d imm) := (fixed_lengths_3 0x63 (by decide)).symm
theorem clrA : Statement .clrA := (fixed_lengths_1 0xE4 (by decide)).symm
theorem cplA : Statement .cplA := (fixed_lengths_1 0xF4 (by decide)).symm
theorem rlA : Statement .rlA := (fixed_lengths_1 0x23 (by decide)).symm
theorem rlcA : Statement .rlcA := (fixed_lengths_1 0x33 (by decide)).symm
theorem rrA : Statement .rrA := (fixed_lengths_1 0x03 (by decide)).symm
theorem rrcA : Statement .rrcA := (fixed_lengths_1 0x13 (by decide)).symm
theorem swapA : Statement .swapA := (fixed_lengths_1 0xC4 (by decide)).symm
theorem movARn (n : BitVec 3) : Statement (.movARn n) := ((register_lengths n).1 _ (by decide)).symm
theorem movADir (d : Byte) : Statement (.movADir d) := (fixed_lengths_2 0xE5 (by decide)).symm
theorem movAInd (i : BitVec 1) : Statement (.movAInd i) := ((pointer_lengths i).1 _ (by decide)).symm
theorem movAImm (imm : Byte) : Statement (.movAImm imm) := (fixed_lengths_2 0x74 (by decide)).symm
theorem movRnA (n : BitVec 3) : Statement (.movRnA n) := ((register_lengths n).1 _ (by decide)).symm
theorem movRnDir (n : BitVec 3) (d : Byte) : Statement (.movRnDir n d) := ((register_lengths n).2.1 _ (by decide)).symm
theorem movRnImm (n : BitVec 3) (imm : Byte) : Statement (.movRnImm n imm) :=
  ((register_lengths n).2.1 _ (by decide)).symm
theorem movDirA (d : Byte) : Statement (.movDirA d) := (fixed_lengths_2 0xF5 (by decide)).symm
theorem movDirRn (n : BitVec 3) (d : Byte) : Statement (.movDirRn n d) := ((register_lengths n).2.1 _ (by decide)).symm
theorem movDirDir (src : Byte) (dst : Byte) : Statement (.movDirDir src dst) := (fixed_lengths_3 0x85 (by decide)).symm
theorem movDirInd (i : BitVec 1) (d : Byte) : Statement (.movDirInd i d) :=
  ((pointer_lengths i).2.1 _ (by decide)).symm
theorem movDirImm (d : Byte) (imm : Byte) : Statement (.movDirImm d imm) := (fixed_lengths_3 0x75 (by decide)).symm
theorem movIndA (i : BitVec 1) : Statement (.movIndA i) := ((pointer_lengths i).1 _ (by decide)).symm
theorem movIndDir (i : BitVec 1) (d : Byte) : Statement (.movIndDir i d) :=
  ((pointer_lengths i).2.1 _ (by decide)).symm
theorem movIndImm (i : BitVec 1) (imm : Byte) : Statement (.movIndImm i imm) :=
  ((pointer_lengths i).2.1 _ (by decide)).symm
theorem movDptrImm (w : Addr) : Statement (.movDptrImm w) := (fixed_lengths_3 0x90 (by decide)).symm
theorem movcADptr : Statement .movcADptr := (fixed_lengths_1 0x93 (by decide)).symm
theorem movcAPc : Statement .movcAPc := (fixed_lengths_1 0x83 (by decide)).symm
theorem movxAInd (i : BitVec 1) : Statement (.movxAInd i) := ((pointer_lengths i).1 _ (by decide)).symm
theorem movxADptr : Statement .movxADptr := (fixed_lengths_1 0xE0 (by decide)).symm
theorem movxIndA (i : BitVec 1) : Statement (.movxIndA i) := ((pointer_lengths i).1 _ (by decide)).symm
theorem movxDptrA : Statement .movxDptrA := (fixed_lengths_1 0xF0 (by decide)).symm
theorem push (d : Byte) : Statement (.push d) := (fixed_lengths_2 0xC0 (by decide)).symm
theorem pop (d : Byte) : Statement (.pop d) := (fixed_lengths_2 0xD0 (by decide)).symm
theorem xchARn (n : BitVec 3) : Statement (.xchARn n) := ((register_lengths n).1 _ (by decide)).symm
theorem xchADir (d : Byte) : Statement (.xchADir d) := (fixed_lengths_2 0xC5 (by decide)).symm
theorem xchAInd (i : BitVec 1) : Statement (.xchAInd i) := ((pointer_lengths i).1 _ (by decide)).symm
theorem xchdAInd (i : BitVec 1) : Statement (.xchdAInd i) := ((pointer_lengths i).1 _ (by decide)).symm
theorem clrC : Statement .clrC := (fixed_lengths_1 0xC3 (by decide)).symm
theorem clrBit (b : Byte) : Statement (.clrBit b) := (fixed_lengths_2 0xC2 (by decide)).symm
theorem setbC : Statement .setbC := (fixed_lengths_1 0xD3 (by decide)).symm
theorem setbBit (b : Byte) : Statement (.setbBit b) := (fixed_lengths_2 0xD2 (by decide)).symm
theorem cplC : Statement .cplC := (fixed_lengths_1 0xB3 (by decide)).symm
theorem cplBit (b : Byte) : Statement (.cplBit b) := (fixed_lengths_2 0xB2 (by decide)).symm
theorem anlCBit (b : Byte) : Statement (.anlCBit b) := (fixed_lengths_2 0x82 (by decide)).symm
theorem anlCNotBit (b : Byte) : Statement (.anlCNotBit b) := (fixed_lengths_2 0xB0 (by decide)).symm
theorem orlCBit (b : Byte) : Statement (.orlCBit b) := (fixed_lengths_2 0x72 (by decide)).symm
theorem orlCNotBit (b : Byte) : Statement (.orlCNotBit b) := (fixed_lengths_2 0xA0 (by decide)).symm
theorem movCBit (b : Byte) : Statement (.movCBit b) := (fixed_lengths_2 0xA2 (by decide)).symm
theorem movBitC (b : Byte) : Statement (.movBitC b) := (fixed_lengths_2 0x92 (by decide)).symm
theorem jc (rel : Int) : Statement (.jc rel) := (fixed_lengths_2 0x40 (by decide)).symm
theorem jnc (rel : Int) : Statement (.jnc rel) := (fixed_lengths_2 0x50 (by decide)).symm
theorem jb (b : Byte) (rel : Int) : Statement (.jb b rel) := (fixed_lengths_3 0x20 (by decide)).symm
theorem jnb (b : Byte) (rel : Int) : Statement (.jnb b rel) := (fixed_lengths_3 0x30 (by decide)).symm
theorem jbc (b : Byte) (rel : Int) : Statement (.jbc b rel) := (fixed_lengths_3 0x10 (by decide)).symm
theorem acall (a : BitVec 11) : Statement (.acall a) := ((page_lengths (a.extractLsb' 8 3)).1).symm
theorem lcall (a : Addr) : Statement (.lcall a) := (fixed_lengths_3 0x12 (by decide)).symm
theorem ret : Statement .ret := (fixed_lengths_1 0x22 (by decide)).symm
theorem reti : Statement .reti := (fixed_lengths_1 0x32 (by decide)).symm
theorem ajmp (a : BitVec 11) : Statement (.ajmp a) := ((page_lengths (a.extractLsb' 8 3)).2).symm
theorem ljmp (a : Addr) : Statement (.ljmp a) := (fixed_lengths_3 0x02 (by decide)).symm
theorem sjmp (rel : Int) : Statement (.sjmp rel) := (fixed_lengths_2 0x80 (by decide)).symm
theorem jmpADptr : Statement .jmpADptr := (fixed_lengths_1 0x73 (by decide)).symm
theorem jz (rel : Int) : Statement (.jz rel) := (fixed_lengths_2 0x60 (by decide)).symm
theorem jnz (rel : Int) : Statement (.jnz rel) := (fixed_lengths_2 0x70 (by decide)).symm
theorem cjneADir (d : Byte) (rel : Int) : Statement (.cjneADir d rel) := (fixed_lengths_3 0xB5 (by decide)).symm
theorem cjneAImm (imm : Byte) (rel : Int) : Statement (.cjneAImm imm rel) := (fixed_lengths_3 0xB4 (by decide)).symm
theorem cjneRnImm (n : BitVec 3) (imm : Byte) (rel : Int) : Statement (.cjneRnImm n imm rel) :=
  ((register_lengths n).2.2).symm
theorem cjneIndImm (i : BitVec 1) (imm : Byte) (rel : Int) : Statement (.cjneIndImm i imm rel) :=
  ((pointer_lengths i).2.2).symm
theorem djnzRn (n : BitVec 3) (rel : Int) : Statement (.djnzRn n rel) := ((register_lengths n).2.1 _ (by decide)).symm
theorem djnzDir (d : Byte) (rel : Int) : Statement (.djnzDir d rel) := (fixed_lengths_3 0xD5 (by decide)).symm
theorem nop : Statement .nop := (fixed_lengths_1 0x00 (by decide)).symm
theorem reserved : Statement .reserved := (fixed_lengths_1 0xA5 (by decide)).symm

end Sys2Proof.Laws.EncodeLength
end

