-- ==== Sys2Proof/Laws/Rendezvous.lean ====
section
/-! SUPPORT. What the driver's operations do, said once, and when a step of the unit runs Step. -/

namespace Sys2Proof.Machine

/-! ### The driver's updates -/

@[simp] theorem openWindow_sync (s : State) :
    (openWindow s).sync = s.sync.map fun y => { y with inWindow := true } := rfl
@[simp] theorem openWindow_ticks (s : State) : (openWindow s).ticks = s.ticks := rfl
@[simp] theorem openWindow_halted (s : State) : (openWindow s).halted = s.halted := rfl
@[simp] theorem openWindow_runFlag (s : State) : (openWindow s).runFlag = s.runFlag := rfl
@[simp] theorem endEvent_sync (n : Tick) (s : State) :
    (endEvent n s).sync = s.sync.map fun y => { y with deadline := n, waiting := false, inWindow := false } := rfl
@[simp] theorem endEvent_ticks (n : Tick) (s : State) : (endEvent n s).ticks = s.ticks := rfl
@[simp] theorem endEvent_halted (n : Tick) (s : State) : (endEvent n s).halted = s.halted := rfl
@[simp] theorem endEvent_runFlag (n : Tick) (s : State) : (endEvent n s).runFlag = s.runFlag := rfl
@[simp] theorem clearRunFlag_sync (s : State) : (clearRunFlag s).sync = s.sync := rfl
@[simp] theorem clearRunFlag_runFlag (s : State) : (clearRunFlag s).runFlag = false := rfl

/-! ### Waiting for the unit -/

/-- A wait that returns leaves the unit waiting. -/
theorem awaitUnit_waits {k : Nat} {s t : State} (h : awaitUnit k s = .next t) : unitWaits t = true := by
  induction k generalizing s with
  | zero =>
    unfold awaitUnit at h
    split at h
    · next hw => cases h; exact hw
    · cases h
  | succ k ih =>
    unfold awaitUnit at h
    split at h
    · next hw => cases h; exact hw
    · split at h
      · exact ih h
      · cases h
      · cases h

/-- A wait that returns keeps what every step keeps. -/
theorem awaitUnit_keeps {P : State → Prop} (hP : ∀ s t, P s → step s = .next t → P t) {k : Nat} {s t : State} (hs : P s)
    (h : awaitUnit k s = .next t) : P t := by
  induction k generalizing s with
  | zero =>
    unfold awaitUnit at h
    split at h
    · cases h; exact hs
    · cases h
  | succ k ih =>
    unfold awaitUnit at h
    split at h
    · cases h; exact hs
    · split at h
      · next u hu => exact ih (hP _ _ hs hu) h
      · cases h
      · cases h

/-- Everything a begin_event that returns can have done: the deadline published, the unit waited for, the window opened. -/
theorem beginEvent_next {d : Tick} {s t : State} (h : beginEvent d s = .next t) :
    ∃ y u, s.sync = some y ∧ y.inWindow = false ∧ t = openWindow u ∧ unitWaits u = true ∧
      awaitUnit (d.toNat - s.ticks.toNat + 3) { s with sync := some { y with deadline := d } } = .next u := by
  unfold beginEvent at h
  split at h
  · cases h
  · next y hy =>
    split at h
    · cases h
    · next hw =>
      split at h
      · next u hu =>
        cases h
        exact ⟨y, u, hy, by simpa using hw, rfl, awaitUnit_waits hu, hu⟩
      · cases h
      · cases h

/-- Everything a begin_event_at that returns can have done: one begin_event, or two with an end_event between them; the
clock then reads the deadline. -/
theorem beginEventAt_next {d : Tick} {s t : State} (h : beginEventAt d s = .next t) :
    t.ticks = d ∧ (beginEvent d s = .next t ∨ ∃ u, beginEvent d s = .next u ∧ beginEvent d (endEvent d u) = .next t) := by
  unfold beginEventAt at h
  split at h
  · cases h
  · split at h
    · next u hu =>
      split at h
      · next e => cases h; exact ⟨e, .inl hu⟩
      · split at h
        · next v hv =>
          split at h
          · next e => cases h; exact ⟨e, .inr ⟨u, hu, hv⟩⟩
          · cases h
        · cases h
        · cases h
    · cases h
    · cases h

/-! ### The trace -/

/-- The cycle that SyncCheck lets run executes an instruction exactly from the state `stepEntry` names. -/
theorem cycleBody_of_stepEntry {u w : State} (h : stepEntry (interruptCheck u) = some w) :
    cycleBody u = executeInstr u.faults.length w := by
  unfold stepEntry at h
  unfold cycleBody afterInterrupts fetchStage
  split at h
  · next hd =>
    rw [if_pos hd]
    split at h
    · next hb =>
      rw [if_pos hb]
      split at h
      · next hc => cases h; rw [if_pos hc]
      · cases h
    · next hb => cases h; rw [if_neg hb]
  · cases h

/-- A step that runs Step from `w` is the execution of the instruction at `w`. -/
theorem step_of_fetchingState {s w : State} (h : fetchingState s = some w) :
    ∃ u, syncCheck s = .run u ∧ step s = executeInstr u.faults.length w := by
  unfold fetchingState at h
  split at h
  · cases h
  · next he =>
    split at h
    · cases h
    · next u hu =>
      split at h
      · cases h
      · next ht =>
        refine ⟨u, hu, ?_⟩
        rw [step_of_run (by simpa using he) hu (by simpa using ht)]
        exact cycleBody_of_stepEntry h

end Sys2Proof.Machine
end

