-- ==== Sys2Proof/Tests/Slice0.lean ====
section
/-! SUPPORT. The model's own tests: encodings, ill-formed terms, the vectors of 95_test_vectors.md, and for every statement
with hypotheses a state and operands that meet them. Expected values are the spec's. -/

namespace Sys2Proof.Tests

open Sys2Proof.Machine

set_option maxRecDepth 20000
set_option Elab.async false

/-! ### Helpers -/

/-- The instruction that bytes decode to, with nothing left over. -/
def decodesTo (p : List Byte × Instr) : Bool :=
  match decode p.1 with
  | .ok (i, rest) => i == p.2 && rest.isEmpty
  | .error _ => false

/-- The reset state with `bytes` loaded at `a`, about to fetch them. -/
def unitAt (a : Addr) (bytes : List Byte) : State :=
  { State.reset with pc := a, code := Memory.writeBytes codeErased [] a.toNat bytes }

/-- A byte poked into code memory. -/
def pokeCode (a : Nat) (v : Byte) (s : State) : State := { s with code := Memory.write codeErased s.code a v }

/-- A byte poked into external data memory. -/
def pokeX (a : Nat) (v : Byte) (s : State) : State := { s with xdata := Memory.write unspecByte s.xdata a v }

/-- A check of the next state. -/
def after (s : State) (c : State → Bool) : Bool :=
  match step s with
  | .next t => c t
  | _ => false

/-- A check of the state after `n` steps. -/
def afterRun (n : Nat) (s : State) (c : State → Bool) : Bool :=
  match Sys2Proof.core.run n s with
  | .next t => c t
  | _ => false

/-- The outcome is a next state. -/
def isNext (r : Result) : Bool :=
  match r with
  | .next _ => true
  | _ => false

theorem next_of_isNext {r : Result} (h : isNext r = true) : ∃ t, r = .next t := by
  cases r with
  | next t => exact ⟨t, rfl⟩
  | fault r => exact nomatch h
  | refused r => exact nomatch h

/-- The interrupt table T of 95_test_vectors.md section 0. -/
def tableT : List IrqSource := [
  ⟨"IE0", 0x0003, .sfrBit 0xA8 0, .sfrBit 0x88 1, .const false, .sfrBit 0xB8 0, some (0x88, 1)⟩,
  ⟨"TF0", 0x000B, .sfrBit 0xA8 1, .sfrBit 0x88 5, .const false, .sfrBit 0xB8 1, some (0x88, 5)⟩]

/-- The parameters with table T. -/
def configT : Config := { exampleConfig with irqTable := tableT, irqSfrs := [0xA8, 0x88, 0xB8] }

/-- A unit with table T, EA set, both sources enabled, and the bytes `tcon`, `ip` in SFR 0x88 and 0xB8. -/
def unitT (tcon ip : Byte) : State :=
  setSfr 0xA8 0x83 (setSfr 0x88 tcon (setSfr 0xB8 ip { State.resetOf configT [] false [] with irqRecheck := true }))

/-- An active handler's record of priority `p`. -/
def levelOf (p : BitVec 2) : IrqLevel := ⟨p, 0, 0, 7, 0, 0, 0, 0, 0, [0, 0, 0, 0, 0, 0, 0, 0], 1⟩

/-- Two external devices: the first owns 0xC1; the second 0xC1, 0x80, a register of a port, and 0xFF, which has a read side
effect. -/
def deviceUnit : State :=
  { State.reset with peripherals := [⟨.external 0, [0xC1], [], [], [0], [5], [], true, 0x11⟩,
      ⟨.external 1, [0xC1, 0x80, 0xFF], [0xFF], [0x80], [], [], [], false, 0x22⟩] }

/-! ### Well-formed terms -/

/-- Each relative operand is checked: one past either end of -128..127 is refused (R123). -/
theorem test_relative_operands_are_checked :
    ([(.jc 128), (.jnc (-129)), (.jb 0 128), (.jnb 0 (-129)), (.jbc 0 128), (.sjmp (-129)), (.jz 128), (.jnz (-129)),
      (.cjneADir 0 128), (.cjneAImm 0 (-129)), (.cjneRnImm 0 0 128), (.cjneIndImm 0 0 (-129)), (.djnzRn 0 128),
      (.djnzDir 0 (-129))] : List Instr).all (fun i => !i.wellFormed) = true := by decide +kernel

theorem test_relative_ends_are_allowed :
    ([(.jc 127), (.jnc (-128)), (.djnzDir 0xFF 127)] : List Instr).all Instr.wellFormed = true := by decide +kernel

theorem test_example_config : exampleConfig.wellFormed = true := by decide +kernel

theorem test_table_config : configT.wellFormed = true := by decide +kernel

/-- A cost of 7, and a table of 255 costs. -/
theorem test_cycles_checked : ({ exampleConfig with cycles := 7 :: classicCycles.tail }.cyclesOk ||
    { exampleConfig with cycles := classicCycles.tail }.cyclesOk) = false := by decide +kernel

theorem test_latency_checked : { exampleConfig with irqLatency := 0 }.latencyOk = false := by decide +kernel

/-- IRQ_SFRS without 0xA8, with an address that is no SFR, and without an SFR that a predicate reads. -/
theorem test_irq_sfrs_checked : ({ exampleConfig with irqSfrs := [] }.irqSfrsOk ||
    ({ exampleConfig with irqSfrs := [0xA8, 0x20] }.irqSfrsOk || { configT with irqSfrs := [0xA8, 0x88] }.irqSfrsOk)) =
    false := by decide +kernel

/-- A predicate over A, an enable that reads a device, and an auto-clear bit outside the SFRs. -/
theorem test_irq_table_checked :
    ([⟨"", 0, .sfrBit 0xE0 0, .const true, .const false, .const false, none⟩,
      ⟨"", 0, .deviceBit 0 0 0, .const true, .const false, .const false, none⟩,
      ⟨"", 0, .const true, .const true, .const false, .const false, some (0x20, 0)⟩] : List IrqSource).all
        (fun x => !{ exampleConfig with irqTable := [x] }.irqTableOk) = true := by decide +kernel

/-- DPL1 at DPL, and a page register that is no SFR. -/
theorem test_addresses_checked : ({ exampleConfig with dpl1Addr := 0x82 }.addressesOk ||
    { exampleConfig with movxPageSfr := 0x20 }.addressesOk) = false := by decide +kernel

theorem test_sfr_reset_checked : { exampleConfig with sfrReset := [(0x7F, 1)] }.sfrResetOk = false := by decide +kernel

theorem test_tick_rate_checked : { exampleConfig with tickRateHz := 0 }.tickRateOk = false := by decide +kernel

/-! ### Encoding -/

/-- The table of 30_encoding.md rule R124, one row a high nibble. -/
def lengthTable : List (List Nat) := [
  [1, 2, 3, 1, 1, 2, 1, 1, 1, 1, 1, 1, 1, 1, 1, 1],
  [3, 2, 3, 1, 1, 2, 1, 1, 1, 1, 1, 1, 1, 1, 1, 1],
  [3, 2, 1, 1, 2, 2, 1, 1, 1, 1, 1, 1, 1, 1, 1, 1],
  [3, 2, 1, 1, 2, 2, 1, 1, 1, 1, 1, 1, 1, 1, 1, 1],
  [2, 2, 2, 3, 2, 2, 1, 1, 1, 1, 1, 1, 1, 1, 1, 1],
  [2, 2, 2, 3, 2, 2, 1, 1, 1, 1, 1, 1, 1, 1, 1, 1],
  [2, 2, 2, 3, 2, 2, 1, 1, 1, 1, 1, 1, 1, 1, 1, 1],
  [2, 2, 2, 1, 2, 3, 2, 2, 2, 2, 2, 2, 2, 2, 2, 2],
  [2, 2, 2, 1, 1, 3, 2, 2, 2, 2, 2, 2, 2, 2, 2, 2],
  [3, 2, 2, 1, 2, 2, 1, 1, 1, 1, 1, 1, 1, 1, 1, 1],
  [2, 2, 2, 1, 1, 1, 2, 2, 2, 2, 2, 2, 2, 2, 2, 2],
  [2, 2, 2, 1, 3, 3, 3, 3, 3, 3, 3, 3, 3, 3, 3, 3],
  [2, 2, 2, 1, 1, 2, 1, 1, 1, 1, 1, 1, 1, 1, 1, 1],
  [2, 2, 2, 1, 1, 3, 1, 1, 2, 2, 2, 2, 2, 2, 2, 2],
  [1, 2, 1, 1, 1, 2, 1, 1, 1, 1, 1, 1, 1, 1, 1, 1],
  [1, 2, 1, 1, 1, 2, 1, 1, 1, 1, 1, 1, 1, 1, 1, 1]]

theorem test_length_table : (List.range 256).map (fun n => lenOf (BitVec.ofNat 8 n)) = lengthTable.flatten := by
  decide +kernel

/-- Nothing, and an instruction cut off, are rejected by name. -/
theorem test_decode_rejects : (match decode [], decode [0x02, 0x12] with
    | .error .noByte, .error (.truncated op) => op == 0x02
    | _, _ => false) = true := by decide +kernel

/-- Words of 40_arithmetic.md's encodings, written out bit by bit, and what they stand for. -/
def arithmeticWords : List (List Byte × Instr) := [
  ([0b00101101], .addARn 5),
  ([0b00100101, 0b10100111], .addADir 0xA7),
  ([0b00100111], .addAInd 1),
  ([0b00100100, 0b10100111], .addAImm 0xA7),
  ([0b00111101], .addcARn 5),
  ([0b00110101, 0b10100111], .addcADir 0xA7),
  ([0b00110111], .addcAInd 1),
  ([0b00110100, 0b10100111], .addcAImm 0xA7),
  ([0b10011101], .subbARn 5),
  ([0b10010101, 0b10100111], .subbADir 0xA7),
  ([0b10010111], .subbAInd 1),
  ([0b10010100, 0b10100111], .subbAImm 0xA7),
  ([0b00000100], .incA),
  ([0b00001101], .incRn 5),
  ([0b00000101, 0b10100111], .incDir 0xA7),
  ([0b00000111], .incInd 1),
  ([0b10100011], .incDptr),
  ([0b00010100], .decA),
  ([0b00011101], .decRn 5),
  ([0b00010101, 0b10100111], .decDir 0xA7),
  ([0b00010111], .decInd 1),
  ([0b10100100], .mulAB),
  ([0b10000100], .divAB),
  ([0b11010100], .daA)]

theorem test_arithmetic_words : arithmeticWords.all decodesTo = true := by decide +kernel

/-- Words of 41_logical.md's encodings, written out bit by bit, and what they stand for. -/
def logicalWords : List (List Byte × Instr) := [
  ([0b01011101], .anlARn 5),
  ([0b01010101, 0b10100111], .anlADir 0xA7),
  ([0b01010111], .anlAInd 1),
  ([0b01010100, 0b10100111], .anlAImm 0xA7),
  ([0b01010010, 0b10100111], .anlDirA 0xA7),
  ([0b01010011, 0b10100111, 0b10011100], .anlDirImm 0xA7 0x9C),
  ([0b01001101], .orlARn 5),
  ([0b01000101, 0b10100111], .orlADir 0xA7),
  ([0b01000111], .orlAInd 1),
  ([0b01000100, 0b10100111], .orlAImm 0xA7),
  ([0b01000010, 0b10100111], .orlDirA 0xA7),
  ([0b01000011, 0b10100111, 0b10011100], .orlDirImm 0xA7 0x9C),
  ([0b01101101], .xrlARn 5),
  ([0b01100101, 0b10100111], .xrlADir 0xA7),
  ([0b01100111], .xrlAInd 1),
  ([0b01100100, 0b10100111], .xrlAImm 0xA7),
  ([0b01100010, 0b10100111], .xrlDirA 0xA7),
  ([0b01100011, 0b10100111, 0b10011100], .xrlDirImm 0xA7 0x9C),
  ([0b11100100], .clrA),
  ([0b11110100], .cplA),
  ([0b00100011], .rlA),
  ([0b00110011], .rlcA),
  ([0b00000011], .rrA),
  ([0b00010011], .rrcA),
  ([0b11000100], .swapA)]

theorem test_logical_words : logicalWords.all decodesTo = true := by decide +kernel

/-- Words of 42_data_transfer.md's encodings, written out bit by bit, and what they stand for. -/
def transferWords : List (List Byte × Instr) := [
  ([0b11101101], .movARn 5),
  ([0b11100101, 0b10100111], .movADir 0xA7),
  ([0b11100111], .movAInd 1),
  ([0b01110100, 0b10100111], .movAImm 0xA7),
  ([0b11111101], .movRnA 5),
  ([0b10101101, 0b10100111], .movRnDir 5 0xA7),
  ([0b01111101, 0b10100111], .movRnImm 5 0xA7),
  ([0b11110101, 0b10100111], .movDirA 0xA7),
  ([0b10001101, 0b10100111], .movDirRn 5 0xA7),
  ([0b10000101, 0b10100111, 0b10011100], .movDirDir 0xA7 0x9C),
  ([0b10000111, 0b10100111], .movDirInd 1 0xA7),
  ([0b01110101, 0b10100111, 0b10011100], .movDirImm 0xA7 0x9C),
  ([0b11110111], .movIndA 1),
  ([0b10100111, 0b10100111], .movIndDir 1 0xA7),
  ([0b01110111, 0b10100111], .movIndImm 1 0xA7),
  ([0b10010000, 0b10100111, 0b10011100], .movDptrImm 0xA79C),
  ([0b10010011], .movcADptr),
  ([0b10000011], .movcAPc),
  ([0b11100011], .movxAInd 1),
  ([0b11100000], .movxADptr),
  ([0b11110011], .movxIndA 1),
  ([0b11110000], .movxDptrA),
  ([0b11000000, 0b10100111], .push 0xA7),
  ([0b11010000, 0b10100111], .pop 0xA7),
  ([0b11001101], .xchARn 5),
  ([0b11000101, 0b10100111], .xchADir 0xA7),
  ([0b11000111], .xchAInd 1),
  ([0b11010111], .xchdAInd 1)]

theorem test_transfer_words : transferWords.all decodesTo = true := by decide +kernel

/-- Words of 43_boolean.md's encodings, written out bit by bit, and what they stand for. -/
def booleanWords : List (List Byte × Instr) := [
  ([0b11000011], .clrC),
  ([0b11000010, 0b10100111], .clrBit 0xA7),
  ([0b11010011], .setbC),
  ([0b11010010, 0b10100111], .setbBit 0xA7),
  ([0b10110011], .cplC),
  ([0b10110010, 0b10100111], .cplBit 0xA7),
  ([0b10000010, 0b10100111], .anlCBit 0xA7),
  ([0b10110000, 0b10100111], .anlCNotBit 0xA7),
  ([0b01110010, 0b10100111], .orlCBit 0xA7),
  ([0b10100000, 0b10100111], .orlCNotBit 0xA7),
  ([0b10100010, 0b10100111], .movCBit 0xA7),
  ([0b10010010, 0b10100111], .movBitC 0xA7),
  ([0b01000000, 0b10011100], .jc (-100)),
  ([0b01010000, 0b10011100], .jnc (-100)),
  ([0b00100000, 0b10100111, 0b10011100], .jb 0xA7 (-100)),
  ([0b00110000, 0b10100111, 0b10011100], .jnb 0xA7 (-100)),
  ([0b00010000, 0b10100111, 0b10011100], .jbc 0xA7 (-100))]

theorem test_boolean_words : booleanWords.all decodesTo = true := by decide +kernel

/-- Words of 44_branching.md's encodings, written out bit by bit, and what they stand for. -/
def branchWords : List (List Byte × Instr) := [
  ([0b10110001, 0b10100111], .acall 0x5A7),
  ([0b00010010, 0b10100111, 0b10011100], .lcall 0xA79C),
  ([0b00100010], .ret),
  ([0b00110010], .reti),
  ([0b10100001, 0b10100111], .ajmp 0x5A7),
  ([0b00000010, 0b10100111, 0b10011100], .ljmp 0xA79C),
  ([0b10000000, 0b10011100], .sjmp (-100)),
  ([0b01110011], .jmpADptr),
  ([0b01100000, 0b10011100], .jz (-100)),
  ([0b01110000, 0b10011100], .jnz (-100)),
  ([0b10110101, 0b10100111, 0b10011100], .cjneADir 0xA7 (-100)),
  ([0b10110100, 0b10100111, 0b10011100], .cjneAImm 0xA7 (-100)),
  ([0b10111101, 0b10100111, 0b10011100], .cjneRnImm 5 0xA7 (-100)),
  ([0b10110111, 0b10100111, 0b10011100], .cjneIndImm 1 0xA7 (-100)),
  ([0b11011101, 0b10011100], .djnzRn 5 (-100)),
  ([0b11010101, 0b10100111, 0b10011100], .djnzDir 0xA7 (-100)),
  ([0b00000000], .nop),
  ([0b10100101], .reserved)]

theorem test_branch_words : branchWords.all decodesTo = true := by decide +kernel

/-! ### One instruction from the stated start state (95_test_vectors.md section 2) -/

/-- V40.1: ADD A,#data carry out. -/
theorem test_v40_1 : after (setAcc 0xFF (unitAt 0x0000 [0x24, 0x01])) (fun t =>
    (acc t == 0x00) && (psw t == 0xC0) && (t.pc == 0x0002) && (t.tickDelay == 0) && t.faults.isEmpty) = true := by
  decide +kernel

/-- V40.2: ADD signed overflow. -/
theorem test_v40_2 : after (setAcc 0x80 (unitAt 0x0000 [0x24, 0x80])) (fun t =>
    (acc t == 0x00) && (psw t == 0x84) && (t.pc == 0x0002) && (t.tickDelay == 0) && t.faults.isEmpty) = true := by
  decide +kernel

/-- V40.4: ADDC carry in. -/
theorem test_v40_4 : after (setPsw 0x80 (setAcc 0xFF (unitAt 0x0000 [0x34, 0x00]))) (fun t =>
    (acc t == 0x00) && (psw t == 0xC0) && (t.pc == 0x0002) && (t.tickDelay == 0) && t.faults.isEmpty) = true := by
  decide +kernel

/-- V40.5: ADDC @R1. -/
theorem test_v40_5 :
    after (writeReg 1 0x50 (setPsw 0x80 (setAcc 0x00 (setIram 0x50 0x7F (unitAt 0x0000 [0x37]))))) (fun t =>
    (acc t == 0x80) && (psw t == 0x45) && (t.pc == 0x0001) && (t.tickDelay == 0) && t.faults.isEmpty) = true := by
  decide +kernel

/-- V40.6: SUBB borrow. -/
theorem test_v40_6 : after (setAcc 0x00 (unitAt 0x0000 [0x94, 0x01])) (fun t =>
    (acc t == 0xFF) && (psw t == 0xC0) && (t.pc == 0x0002) && (t.tickDelay == 0) && t.faults.isEmpty) = true := by
  decide +kernel

/-- V40.7: SUBB signed overflow. -/
theorem test_v40_7 : after (setAcc 0x80 (unitAt 0x0000 [0x94, 0x01])) (fun t =>
    (acc t == 0x7F) && (psw t == 0x45) && (t.pc == 0x0002) && (t.tickDelay == 0) && t.faults.isEmpty) = true := by
  decide +kernel

/-- V40.8: SUBB with CY, equal operands. -/
theorem test_v40_8 : after (setPsw 0x80 (setIram 0x30 0x10 (setAcc 0x10 (unitAt 0x0000 [0x95, 0x30])))) (fun t =>
    (acc t == 0xFF) && (psw t == 0xC0) && (t.pc == 0x0002) && (t.tickDelay == 0) && t.faults.isEmpty) = true := by
  decide +kernel

/-- V40.9: INC dir SFR (P1). -/
theorem test_v40_9 : after (setSfr 0x90 0xFF (unitAt 0x0000 [0x05, 0x90])) (fun t =>
    (sfrGet 0x90 t == 0x00) && (psw t == 0x00) && (t.pc == 0x0002) && (t.tickDelay == 0) &&
      t.faults.isEmpty) = true := by
  decide +kernel

/-- V40.10: INC @R0 wrap. -/
theorem test_v40_10 : after (writeReg 0 0x7F (setIram 0x7F 0xFF (unitAt 0x0000 [0x06]))) (fun t =>
    (iramGet 0x7F t == 0x00) && (psw t == 0x00) && (t.pc == 0x0001) && (t.tickDelay == 0) &&
      t.faults.isEmpty) = true := by
  decide +kernel

/-- V40.11: INC R7 bank 3. -/
theorem test_v40_11 : after (setIram 0x1F 0x41 (setPsw 0x18 (unitAt 0x0000 [0x0F]))) (fun t =>
    (iramGet 0x1F t == 0x42) && (psw t == 0x18) && (t.pc == 0x0001) && (t.tickDelay == 0) &&
      t.faults.isEmpty) = true := by
  decide +kernel

/-- V40.12: DEC R0 wrap. -/
theorem test_v40_12 : after (writeReg 0 0x00 (unitAt 0x0000 [0x18])) (fun t =>
    (readReg 0 t == 0xFF) && (psw t == 0x00) && (t.pc == 0x0001) && (t.tickDelay == 0) && t.faults.isEmpty) = true := by
  decide +kernel

/-- V40.13: INC DPTR wrap. -/
theorem test_v40_13 : after (setSfr 0x82 0xFF (setSfr 0x83 0xFF (unitAt 0x0000 [0xA3]))) (fun t =>
    (dptr t == 0x0000) && (psw t == 0x00) && (t.pc == 0x0001) && (t.tickDelay == 1) && t.faults.isEmpty) = true := by
  decide +kernel

/-- V40.14: INC DPTR carry into DPH. -/
theorem test_v40_14 : after (setSfr 0x82 0xFF (setSfr 0x83 0x12 (unitAt 0x0000 [0xA3]))) (fun t =>
    (dptr t == 0x1300) && (psw t == 0x00) && (t.pc == 0x0001) && (t.tickDelay == 1) && t.faults.isEmpty) = true := by
  decide +kernel

/-- V40.16: MUL no overflow. -/
theorem test_v40_16 : after (setSfr 240 0x0F (setAcc 0x10 (unitAt 0x0000 [0xA4]))) (fun t =>
    (acc t == 0xF0) && (sfrGet 240 t == 0x00) && (psw t == 0x00) && (t.pc == 0x0001) && (t.tickDelay == 3) &&
      t.faults.isEmpty) = true := by
  decide +kernel

/-- V40.17: MUL clears CY. -/
theorem test_v40_17 : after (setPsw 0x80 (setSfr 240 0x03 (setAcc 0x02 (unitAt 0x0000 [0xA4])))) (fun t =>
    (acc t == 0x06) && (sfrGet 240 t == 0x00) && (psw t == 0x00) && (t.pc == 0x0001) && (t.tickDelay == 3) &&
      t.faults.isEmpty) = true := by
  decide +kernel

/-- V40.18: DIV exact. -/
theorem test_v40_18 : after (setSfr 240 0x01 (setAcc 0xFF (unitAt 0x0000 [0x84]))) (fun t =>
    (acc t == 0xFF) && (sfrGet 240 t == 0x00) && (psw t == 0x00) && (t.pc == 0x0001) && (t.tickDelay == 3) &&
      t.faults.isEmpty) = true := by
  decide +kernel

/-- V40.19: DIV by zero (A,B ANY; shown unchanged). -/
theorem test_v40_19 : after (setPsw 0x80 (setSfr 240 0x00 (setAcc 0x12 (unitAt 0x0000 [0x84])))) (fun t =>
    (t.pc == 0x0001) && (t.tickDelay == 3) && t.faults.isEmpty) = true := by decide +kernel

/-- V40.20: DA no adjust. -/
theorem test_v40_20 : after (setAcc 0x45 (unitAt 0x0000 [0xD4])) (fun t =>
    (acc t == 0x45) && (psw t == 0x01) && (t.pc == 0x0001) && (t.tickDelay == 0) && t.faults.isEmpty) = true := by
  decide +kernel

/-- V40.21: DA low adjust by AC. -/
theorem test_v40_21 : after (setPsw 0x40 (setAcc 0x40 (unitAt 0x0000 [0xD4]))) (fun t =>
    (acc t == 0x46) && (psw t == 0x41) && (t.pc == 0x0001) && (t.tickDelay == 0) && t.faults.isEmpty) = true := by
  decide +kernel

/-- V40.25: parity of result. -/
theorem test_v40_25 : after (unitAt 0x0000 [0x74, 0x07]) (fun t =>
    (acc t == 0x07) && (psw t == 0x01) && (t.pc == 0x0002) && (t.tickDelay == 0) && t.faults.isEmpty) = true := by
  decide +kernel

/-- V41.1: ANL dir,#data on SFR B. -/
theorem test_v41_1 : after (setSfr 240 0xAB (unitAt 0x0000 [0x53, 0xF0, 0x0F])) (fun t =>
    (sfrGet 240 t == 0x0B) && (psw t == 0x00) && (t.pc == 0x0003) && (t.tickDelay == 1) &&
      t.faults.isEmpty) = true := by
  decide +kernel

/-- V41.2: ORL dir,A. -/
theorem test_v41_2 : after (setIram 0x30 0xF0 (setAcc 0x0F (unitAt 0x0000 [0x42, 0x30]))) (fun t =>
    (iramGet 0x30 t == 0xFF) && (psw t == 0x00) && (t.pc == 0x0002) && (t.tickDelay == 0) &&
      t.faults.isEmpty) = true := by
  decide +kernel

/-- V41.3: XRL dir,#data. -/
theorem test_v41_3 : after (setIram 0x30 0x0F (unitAt 0x0000 [0x63, 0x30, 0xFF])) (fun t =>
    (iramGet 0x30 t == 0xF0) && (psw t == 0x00) && (t.pc == 0x0003) && (t.tickDelay == 1) &&
      t.faults.isEmpty) = true := by
  decide +kernel

/-- V41.4: ANL A,@R1. -/
theorem test_v41_4 : after (writeReg 1 0x40 (setIram 0x40 0x3C (setAcc 0xF0 (unitAt 0x0000 [0x57])))) (fun t =>
    (acc t == 0x30) && (psw t == 0x00) && (t.pc == 0x0001) && (t.tickDelay == 0) && t.faults.isEmpty) = true := by
  decide +kernel

/-- V41.5: ORL A,dir. -/
theorem test_v41_5 : after (setIram 0x30 0x80 (setAcc 0x01 (unitAt 0x0000 [0x45, 0x30]))) (fun t =>
    (acc t == 0x81) && (psw t == 0x00) && (t.pc == 0x0002) && (t.tickDelay == 0) && t.faults.isEmpty) = true := by
  decide +kernel

/-- V41.6: CLR A. -/
theorem test_v41_6 : after (setAcc 0x77 (unitAt 0x0000 [0xE4])) (fun t =>
    (acc t == 0x00) && (psw t == 0x00) && (t.pc == 0x0001) && (t.tickDelay == 0) && t.faults.isEmpty) = true := by
  decide +kernel

/-- V41.7: CPL A of 00. -/
theorem test_v41_7 : after (setAcc 0x00 (unitAt 0x0000 [0xF4])) (fun t =>
    (acc t == 0xFF) && (psw t == 0x00) && (t.pc == 0x0001) && (t.tickDelay == 0) && t.faults.isEmpty) = true := by
  decide +kernel

/-- V41.8: RLC through carry. -/
theorem test_v41_8 : after (setAcc 0x80 (unitAt 0x0000 [0x33])) (fun t =>
    (acc t == 0x00) && (psw t == 0x80) && (t.pc == 0x0001) && (t.tickDelay == 0) && t.faults.isEmpty) = true := by
  decide +kernel

/-- V41.9: RRC carry into bit7. -/
theorem test_v41_9 : after (setPsw 0x80 (setAcc 0x00 (unitAt 0x0000 [0x13]))) (fun t =>
    (acc t == 0x80) && (psw t == 0x01) && (t.pc == 0x0001) && (t.tickDelay == 0) && t.faults.isEmpty) = true := by
  decide +kernel

/-- V41.10: RL of 0x80. -/
theorem test_v41_10 : after (setAcc 0x80 (unitAt 0x0000 [0x23])) (fun t =>
    (acc t == 0x01) && (psw t == 0x01) && (t.pc == 0x0001) && (t.tickDelay == 0) && t.faults.isEmpty) = true := by
  decide +kernel

/-- V41.11: RR of 0x01. -/
theorem test_v41_11 : after (setAcc 0x01 (unitAt 0x0000 [0x03])) (fun t =>
    (acc t == 0x80) && (psw t == 0x01) && (t.pc == 0x0001) && (t.tickDelay == 0) && t.faults.isEmpty) = true := by
  decide +kernel

/-- V41.12: SWAP. -/
theorem test_v41_12 : after (setAcc 0x12 (unitAt 0x0000 [0xC4])) (fun t =>
    (acc t == 0x21) && (psw t == 0x00) && (t.pc == 0x0001) && (t.tickDelay == 0) && t.faults.isEmpty) = true := by
  decide +kernel

/-- V41.13: ORL PSW,#18h selects bank 3. -/
theorem test_v41_13 : after (unitAt 0x0000 [0x43, 0xD0, 0x18]) (fun t =>
    (psw t == 0x18) && (t.pc == 0x0003) && (t.tickDelay == 1) && t.faults.isEmpty) = true := by decide +kernel

/-- V42.1: MOV A,Rn. -/
theorem test_v42_1 : after (writeReg 3 0x9C (unitAt 0x0000 [0xEB])) (fun t =>
    (acc t == 0x9C) && (psw t == 0x00) && (t.pc == 0x0001) && (t.tickDelay == 0) && t.faults.isEmpty) = true := by
  decide +kernel

/-- V42.2: MOV Rn,dir. -/
theorem test_v42_2 : after (setIram 0x30 0x5A (unitAt 0x0000 [0xA9, 0x30])) (fun t =>
    (readReg 1 t == 0x5A) && (psw t == 0x00) && (t.pc == 0x0002) && (t.tickDelay == 1) && t.faults.isEmpty) = true := by
  decide +kernel

/-- V42.3: MOV dir,dir (src first). -/
theorem test_v42_3 : after (setIram 0x31 0x22 (setIram 0x30 0x11 (unitAt 0x0000 [0x85, 0x30, 0x31]))) (fun t =>
    (iramGet 0x30 t == 0x11) && (iramGet 0x31 t == 0x11) && (psw t == 0x00) && (t.pc == 0x0003) &&
      (t.tickDelay == 1) && t.faults.isEmpty) = true := by
  decide +kernel

/-- V42.4: MOV @R0,#data. -/
theorem test_v42_4 : after (writeReg 0 0x90 (unitAt 0x0000 [0x76, 0xEE])) (fun t =>
    (iramGet 0x90 t == 0xEE) && (psw t == 0x00) && (t.pc == 0x0002) && (t.tickDelay == 0) &&
      t.faults.isEmpty) = true := by
  decide +kernel

/-- V42.5: MOV @R1,dir (upper IRAM). -/
theorem test_v42_5 : after (writeReg 1 0xC0 (setIram 0x30 0x42 (unitAt 0x0000 [0xA7, 0x30]))) (fun t =>
    (iramGet 0xC0 t == 0x42) && (psw t == 0x00) && (t.pc == 0x0002) && (t.tickDelay == 1) &&
      t.faults.isEmpty) = true := by
  decide +kernel

/-- V42.6: MOV dir,@R0 to SFR B. -/
theorem test_v42_6 : after (writeReg 0 0x40 (setIram 0x40 0x99 (unitAt 0x0000 [0x86, 0xF0]))) (fun t =>
    (sfrGet 240 t == 0x99) && (psw t == 0x00) && (t.pc == 0x0002) && (t.tickDelay == 1) &&
      t.faults.isEmpty) = true := by
  decide +kernel

/-- V42.7: MOV A,@R0 upper IRAM is not SFR. -/
theorem test_v42_7 : after (writeReg 0 0xF0 (setSfr 240 0x77 (setIram 0xF0 0x31 (unitAt 0x0000 [0xE6])))) (fun t =>
    (acc t == 0x31) && (psw t == 0x01) && (t.pc == 0x0001) && (t.tickDelay == 0) && t.faults.isEmpty) = true := by
  decide +kernel

/-- V42.8: MOV DPTR,#data16. -/
theorem test_v42_8 : after (unitAt 0x0000 [0x90, 0x12, 0x34]) (fun t =>
    (dptr t == 0x1234) && (sfrGet 0x82 t == 0x34) && (sfrGet 0x83 t == 0x12) && (psw t == 0x00) &&
      (t.pc == 0x0003) && (t.tickDelay == 1) && t.faults.isEmpty) = true := by
  decide +kernel

/-- V42.9: MOV DPTR with DPS=1. -/
theorem test_v42_9 : after (setSfr 0x92 0x01 (unitAt 0x0000 [0x90, 0xAB, 0xCD])) (fun t =>
    (sfrGet 0x84 t == 0xCD) && (sfrGet 0x85 t == 0xAB) && (sfrGet 0x82 t == 0x00) && (sfrGet 0x83 t == 0x00) &&
      (psw t == 0x00) && (t.pc == 0x0003) && (t.tickDelay == 1) && t.faults.isEmpty) = true := by
  decide +kernel

/-- V42.10: MOVC A,@A+DPTR. -/
theorem test_v42_10 :
    after (pokeCode 0x0205 0x3E (setAcc 0x05 (setSfr 0x82 0x00 (setSfr 0x83 0x02 (unitAt 0x0000 [0x93]))))) (fun t =>
    (acc t == 0x3E) && (psw t == 0x01) && (t.pc == 0x0001) && (t.tickDelay == 1) && t.faults.isEmpty) = true := by
  decide +kernel

/-- V42.11: MOVC A,@A+PC (pc=next). -/
theorem test_v42_11 : after (pokeCode 0x0301 0x5D (setAcc 0x00 (unitAt 0x0300 [0x83]))) (fun t =>
    (acc t == 0x5D) && (psw t == 0x01) && (t.pc == 0x0301) && (t.tickDelay == 1) && t.faults.isEmpty) = true := by
  decide +kernel

/-- V42.12: MOVX A,@DPTR. -/
theorem test_v42_12 : after (pokeX 0x0400 0x21 (setSfr 0x82 0x00 (setSfr 0x83 0x04 (unitAt 0x0000 [0xE0])))) (fun t =>
    (acc t == 0x21) && (psw t == 0x00) && (t.pc == 0x0001) && (t.tickDelay == 1) && t.faults.isEmpty) = true := by
  decide +kernel

/-- V42.13: MOVX @DPTR,A. -/
theorem test_v42_13 : after (setAcc 0x5A (setSfr 0x82 0x01 (setSfr 0x83 0x04 (unitAt 0x0000 [0xF0])))) (fun t =>
    ((xdataRead 0x0401 t).2 == 0x5A) && (psw t == 0x00) && (t.pc == 0x0001) && (t.tickDelay == 1) &&
      t.faults.isEmpty) = true := by
  decide +kernel

/-- V42.14: MOVX @R1,A page from SFR A0. -/
theorem test_v42_14 : after (writeReg 1 0x34 (setAcc 0x66 (setSfr 0xa0 0x02 (unitAt 0x0000 [0xF3])))) (fun t =>
    ((xdataRead 0x0234 t).2 == 0x66) && (psw t == 0x00) && (t.pc == 0x0001) && (t.tickDelay == 1) &&
      t.faults.isEmpty) = true := by
  decide +kernel

/-- V42.16: PUSH dir. -/
theorem test_v42_16 : after (setIram 0x30 0xAA (unitAt 0x0000 [0xC0, 0x30])) (fun t =>
    (sfrGet 129 t == 0x08) && (iramGet 0x08 t == 0xAA) && (psw t == 0x00) && (t.pc == 0x0002) &&
      (t.tickDelay == 1) && t.faults.isEmpty) = true := by
  decide +kernel

/-- V42.17: POP dir. -/
theorem test_v42_17 : after (setIram 0x08 0xBB (setSfr 129 0x08 (unitAt 0x0000 [0xD0, 0x30]))) (fun t =>
    (sfrGet 129 t == 0x07) && (iramGet 0x30 t == 0xBB) && (psw t == 0x00) && (t.pc == 0x0002) &&
      (t.tickDelay == 1) && t.faults.isEmpty) = true := by
  decide +kernel

/-- V42.18: POP underflow. -/
theorem test_v42_18 : after (setIram 0x00 0x12 (setSfr 129 0x00 (unitAt 0x0000 [0xD0, 0x30]))) (fun t =>
    (sfrGet 129 t == 0xFF) && (iramGet 0x30 t == 0x12) && (psw t == 0x00) && (t.pc == 0x0002) &&
      (t.tickDelay == 1) && (t.faults.map (fun f => (f.kind,f.pc)) == [(.stack, 0x0000)])) = true := by
  decide +kernel

/-- V42.19: XCH A,Rn. -/
theorem test_v42_19 : after (writeReg 2 0x02 (setAcc 0x01 (unitAt 0x0000 [0xCA]))) (fun t =>
    (acc t == 0x02) && (readReg 2 t == 0x01) && (psw t == 0x01) && (t.pc == 0x0001) && (t.tickDelay == 0) &&
      t.faults.isEmpty) = true := by
  decide +kernel

/-- V42.20: XCH A,dir. -/
theorem test_v42_20 : after (setIram 0x30 0x02 (setAcc 0x01 (unitAt 0x0000 [0xC5, 0x30]))) (fun t =>
    (acc t == 0x02) && (iramGet 0x30 t == 0x01) && (psw t == 0x01) && (t.pc == 0x0002) && (t.tickDelay == 0) &&
      t.faults.isEmpty) = true := by
  decide +kernel

/-- V42.21: XCH A,@R1. -/
theorem test_v42_21 : after (writeReg 1 0x40 (setIram 0x40 0x02 (setAcc 0x01 (unitAt 0x0000 [0xC7])))) (fun t =>
    (acc t == 0x02) && (iramGet 0x40 t == 0x01) && (psw t == 0x01) && (t.pc == 0x0001) && (t.tickDelay == 0) &&
      t.faults.isEmpty) = true := by
  decide +kernel

/-- V42.22: XCHD A,@R1. -/
theorem test_v42_22 : after (writeReg 1 0x40 (setIram 0x40 0xCD (setAcc 0xAB (unitAt 0x0000 [0xD7])))) (fun t =>
    (acc t == 0xAD) && (iramGet 0x40 t == 0xCB) && (psw t == 0x01) && (t.pc == 0x0001) && (t.tickDelay == 0) &&
      t.faults.isEmpty) = true := by
  decide +kernel

/-- V42.23: MOV dir,A to ACC (legal). -/
theorem test_v42_23 : after (setAcc 0x44 (unitAt 0x0000 [0xF5, 0xE0])) (fun t =>
    (acc t == 0x44) && (psw t == 0x00) && (t.pc == 0x0002) && (t.tickDelay == 0) && t.faults.isEmpty) = true := by
  decide +kernel

/-- V42.24: MOV A,ACC fault. -/
theorem test_v42_24 : after (setAcc 0x44 (unitAt 0x0010 [0xE5, 0xE0])) (fun t =>
    (acc t == 0x44) && (psw t == 0x00) && (t.pc == 0x0012) && (t.tickDelay == 0) &&
      (t.faults.map (fun f => (f.kind,f.pc)) == [(.accToA, 0x0010)])) = true := by
  decide +kernel

/-- V42.25: MOV PSW,#data then epilogue. -/
theorem test_v42_25 : after (setAcc 0x00 (unitAt 0x0000 [0x75, 0xD0, 0x01])) (fun t =>
    (acc t == 0x00) && (psw t == 0x00) && (t.pc == 0x0003) && (t.tickDelay == 1) && t.faults.isEmpty) = true := by
  decide +kernel

/-- V43.1: SETB C. -/
theorem test_v43_1 : after (unitAt 0x0000 [0xD3]) (fun t =>
    (psw t == 0x80) && (t.pc == 0x0001) && (t.tickDelay == 0) && t.faults.isEmpty) = true := by decide +kernel

/-- V43.2: CLR bit in SFR (ACC.0). -/
theorem test_v43_2 : after (setAcc 0x01 (unitAt 0x0000 [0xC2, 0xE0])) (fun t =>
    (acc t == 0x00) && (psw t == 0x00) && (t.pc == 0x0002) && (t.tickDelay == 0) && t.faults.isEmpty) = true := by
  decide +kernel

/-- V43.3: SETB ACC.7 (P follows A). -/
theorem test_v43_3 : after (setAcc 0x00 (unitAt 0x0000 [0xD2, 0xE7])) (fun t =>
    (acc t == 0x80) && (psw t == 0x01) && (t.pc == 0x0002) && (t.tickDelay == 0) && t.faults.isEmpty) = true := by
  decide +kernel

/-- V43.4: CPL bit PSW.1 (F1). -/
theorem test_v43_4 : after (unitAt 0x0000 [0xB2, 0xD1]) (fun t =>
    (psw t == 0x02) && (t.pc == 0x0002) && (t.tickDelay == 0) && t.faults.isEmpty) = true := by decide +kernel

/-- V43.5: ANL C,bit. -/
theorem test_v43_5 : after (setIram 0x20 0x01 (setPsw 0x80 (unitAt 0x0000 [0x82, 0x00]))) (fun t =>
    (psw t == 0x80) && (t.pc == 0x0002) && (t.tickDelay == 1) && t.faults.isEmpty) = true := by decide +kernel

/-- V43.6: ORL C,/bit. -/
theorem test_v43_6 : after (setIram 0x20 0x00 (unitAt 0x0000 [0xA0, 0x00])) (fun t =>
    (psw t == 0x80) && (t.pc == 0x0002) && (t.tickDelay == 1) && t.faults.isEmpty) = true := by decide +kernel

/-- V43.7: MOV C,bit. -/
theorem test_v43_7 : after (setIram 0x2F 0x80 (unitAt 0x0000 [0xA2, 0x7F])) (fun t =>
    (psw t == 0x80) && (t.pc == 0x0002) && (t.tickDelay == 0) && t.faults.isEmpty) = true := by decide +kernel

/-- V43.8: MOV bit,C clear. -/
theorem test_v43_8 : after (setIram 0x20 0xFF (unitAt 0x0000 [0x92, 0x07])) (fun t =>
    (iramGet 0x20 t == 0x7F) && (psw t == 0x00) && (t.pc == 0x0002) && (t.tickDelay == 1) &&
      t.faults.isEmpty) = true := by
  decide +kernel

/-- V43.9: JC not taken. -/
theorem test_v43_9 : after (unitAt 0x0050 [0x40, 0x10]) (fun t =>
    (psw t == 0x00) && (t.pc == 0x0052) && (t.tickDelay == 1) && t.faults.isEmpty) = true := by decide +kernel

/-- V43.10: JNC taken backward. -/
theorem test_v43_10 : after (unitAt 0x0050 [0x50, 0xF0]) (fun t =>
    (psw t == 0x00) && (t.pc == 0x0042) && (t.tickDelay == 1) && t.faults.isEmpty) = true := by decide +kernel

/-- V43.11: JB taken. -/
theorem test_v43_11 : after (setIram 0x20 0x01 (unitAt 0x0060 [0x20, 0x00, 0x05])) (fun t =>
    (psw t == 0x00) && (t.pc == 0x0068) && (t.tickDelay == 1) && t.faults.isEmpty) = true := by decide +kernel

/-- V43.12: JNB not taken. -/
theorem test_v43_12 : after (setIram 0x20 0x01 (unitAt 0x0060 [0x30, 0x00, 0x05])) (fun t =>
    (psw t == 0x00) && (t.pc == 0x0063) && (t.tickDelay == 1) && t.faults.isEmpty) = true := by decide +kernel

/-- V43.13: JBC not taken, no write. -/
theorem test_v43_13 : after (setIram 0x20 0x01 (unitAt 0x0060 [0x10, 0x01, 0x05])) (fun t =>
    (iramGet 0x20 t == 0x01) && (psw t == 0x00) && (t.pc == 0x0063) && (t.tickDelay == 1) &&
      t.faults.isEmpty) = true := by
  decide +kernel

/-- V43.14: JBC on SFR bit (TCON.5). -/
theorem test_v43_14 : after (setSfr 0x88 0x20 (unitAt 0x0060 [0x10, 0x8D, 0x05])) (fun t =>
    (sfrGet 0x88 t == 0x00) && (psw t == 0x00) && (t.pc == 0x0068) && (t.tickDelay == 1) &&
      t.faults.isEmpty) = true := by
  decide +kernel

/-- V44.1: ACALL page-relative. -/
theorem test_v44_1 : after (unitAt 0x07FE [0xF1, 0x00]) (fun t =>
    (sfrGet 129 t == 0x09) && (iramGet 0x08 t == 0x00) && (iramGet 0x09 t == 0x08) && (psw t == 0x00) &&
      (t.pc == 0x0F00) && (t.tickDelay == 1) && t.faults.isEmpty) = true := by
  decide +kernel

/-- V44.2: LCALL. -/
theorem test_v44_2 : after (unitAt 0x0123 [0x12, 0x08, 0x00]) (fun t =>
    (sfrGet 129 t == 0x09) && (iramGet 0x08 t == 0x26) && (iramGet 0x09 t == 0x01) && (psw t == 0x00) &&
      (t.pc == 0x0800) && (t.tickDelay == 1) && t.faults.isEmpty) = true := by
  decide +kernel

/-- V44.3: LCALL pushes at SP=0xFE. -/
theorem test_v44_3 : after (setSfr 129 0xFE (unitAt 0x0000 [0x12, 0x00, 0x40])) (fun t =>
    (sfrGet 129 t == 0x00) && (iramGet 0xFF t == 0x03) && (iramGet 0x00 t == 0x00) && (psw t == 0x00) &&
      (t.pc == 0x0040) && (t.tickDelay == 1) && (t.faults.map (fun f => (f.kind,f.pc)) == [(.stack, 0x0000)])) = true := by
  decide +kernel

/-- V44.4: RET. -/
theorem test_v44_4 : after (setIram 0x09 0x01 (setIram 0x08 0x26 (setSfr 129 0x09 (unitAt 0x0000 [0x22])))) (fun t =>
    (sfrGet 129 t == 0x07) && (psw t == 0x00) && (t.pc == 0x0126) && (t.tickDelay == 1) &&
      t.faults.isEmpty) = true := by
  decide +kernel

/-- V44.5: RETI with no handler acts as RET. -/
theorem test_v44_5 : after (setIram 0x09 0x02 (setIram 0x08 0x00 (setSfr 129 0x09 (unitAt 0x0000 [0x32])))) (fun t =>
    (sfrGet 129 t == 0x07) && t.irqRecheck && (psw t == 0x00) && (t.pc == 0x0200) && (t.tickDelay == 1) &&
      t.faults.isEmpty) = true := by
  decide +kernel

/-- V44.6: LJMP. -/
theorem test_v44_6 : after (unitAt 0x0000 [0x02, 0x3F, 0xFF]) (fun t =>
    (psw t == 0x00) && (t.pc == 0x3FFF) && (t.tickDelay == 1) && t.faults.isEmpty) = true := by decide +kernel

/-- V44.7: AJMP page 7. -/
theorem test_v44_7 : after (unitAt 0x0100 [0xE1, 0xFF]) (fun t =>
    (psw t == 0x00) && (t.pc == 0x07FF) && (t.tickDelay == 1) && t.faults.isEmpty) = true := by decide +kernel

/-- V44.8: SJMP forward. -/
theorem test_v44_8 : after (unitAt 0x0100 [0x80, 0x7F]) (fun t =>
    (psw t == 0x00) && (t.pc == 0x0181) && (t.tickDelay == 1) && t.faults.isEmpty) = true := by decide +kernel

/-- V44.9: SJMP wrap forward. -/
theorem test_v44_9 : after (unitAt 0x3FFE [0x80, 0x02]) (fun t =>
    (psw t == 0x00) && (t.pc == 0x0002) && (t.tickDelay == 1) && t.faults.isEmpty) = true := by decide +kernel

/-- V44.10: JMP @A+DPTR wraps. -/
theorem test_v44_10 : after (setSfr 0x82 0xF8 (setSfr 0x83 0xFF (setAcc 0x10 (unitAt 0x0000 [0x73])))) (fun t =>
    (psw t == 0x01) && (t.pc == 0x0008) && (t.tickDelay == 1) && t.faults.isEmpty) = true := by decide +kernel

/-- V44.11: JZ taken. -/
theorem test_v44_11 : after (setAcc 0x00 (unitAt 0x0020 [0x60, 0x04])) (fun t =>
    (psw t == 0x00) && (t.pc == 0x0026) && (t.tickDelay == 1) && t.faults.isEmpty) = true := by decide +kernel

/-- V44.12: JZ not taken. -/
theorem test_v44_12 : after (setAcc 0x01 (unitAt 0x0020 [0x60, 0x04])) (fun t =>
    (psw t == 0x01) && (t.pc == 0x0022) && (t.tickDelay == 1) && t.faults.isEmpty) = true := by decide +kernel

/-- V44.13: CJNE A,dir equal. -/
theorem test_v44_13 : after (setPsw 0x80 (setIram 0x30 0x42 (setAcc 0x42 (unitAt 0x0020 [0xB5, 0x30, 0x10])))) (fun t =>
    (psw t == 0x00) && (t.pc == 0x0023) && (t.tickDelay == 1) && t.faults.isEmpty) = true := by decide +kernel

/-- V44.14: CJNE R0,#data less. -/
theorem test_v44_14 : after (writeReg 0 0x7F (unitAt 0x0020 [0xB8, 0x80, 0x10])) (fun t =>
    (psw t == 0x80) && (t.pc == 0x0033) && (t.tickDelay == 1) && t.faults.isEmpty) = true := by decide +kernel

/-- V44.15: DJNZ Rn to zero falls through. -/
theorem test_v44_15 : after (writeReg 1 0x01 (unitAt 0x0020 [0xD9, 0xFE])) (fun t =>
    (readReg 1 t == 0x00) && (psw t == 0x00) && (t.pc == 0x0022) && (t.tickDelay == 1) && t.faults.isEmpty) = true := by
  decide +kernel

/-- V44.16: DJNZ dir from 0 wraps and branches. -/
theorem test_v44_16 : after (setIram 0x30 0x00 (unitAt 0x0020 [0xD5, 0x30, 0xFD])) (fun t =>
    (iramGet 0x30 t == 0xFF) && (psw t == 0x00) && (t.pc == 0x0020) && (t.tickDelay == 1) &&
      t.faults.isEmpty) = true := by
  decide +kernel

/-- V44.17: NOP. -/
theorem test_v44_17 : after (unitAt 0x0020 [0x00]) (fun t =>
    (psw t == 0x00) && (t.pc == 0x0021) && (t.tickDelay == 0) && t.faults.isEmpty) = true := by decide +kernel

/-- V44.18: 0xA5 illegal. -/
theorem test_v44_18 : after (unitAt 0x0020 [0xA5]) (fun t =>
    (psw t == 0x00) && (t.pc == 0x0021) && (t.tickDelay == 0) &&
      (t.faults.map (fun f => (f.kind,f.pc)) == [(.illegalOpcode, 0x0020)])) = true := by
  decide +kernel

/-! ### More vectors of 95_test_vectors.md -/

/-- V42.15 with addresses above 0x7FFF absent: the fault, and the cost. -/
theorem test_v42_15 : after (setSfr 0x83 0x80 { unitAt 0 [0xE0] with
    cfg := { exampleConfig with xdataValid := [(0, 0x7FFF)], parityTracking := false } }) (fun t =>
    t.pc == 1 && t.tickDelay == 1 && t.faults == [⟨.xdataRange, 0, .address 0x8000⟩]) = true := by decide +kernel

/-- V5.1 to V5.7: which source arbitration dispatches. -/
theorem test_v5_arbitration :
    (irqChoice (setSfr 0xA8 0x03 (unitT 0x22 3)) = none) ∧
    ((irqChoice (setSfr 0xA8 0x82 (unitT 0x22 1))).map (·.1.name) = some "TF0") ∧
    ((irqChoice (unitT 0x22 2)).map (·.1.name) = some "TF0") ∧
    ((irqChoice (unitT 0x22 3)).map (·.1.name) = some "IE0") := by decide +kernel

theorem test_v5_preemption :
    (irqChoice { unitT 0x02 1 with irqStack := [levelOf 1] } = none) ∧
    (irqChoice { unitT 0x02 1 with irqStack := [levelOf 0, levelOf 0, levelOf 0, levelOf 0] } = none) ∧
    (irqChoice { unitT 0x20 1 with irqStack := [levelOf 0] } = none) ∧
    (irqChoice { unitT 0x22 1 with irqStack := [levelOf 0] }).isSome = true := by decide +kernel

/-- The state of V5.10 before its dispatch. -/
def unitV510 : State :=
  { setSfr 0x83 1 (setSfr 0x82 2 (setPsw 0x08 (setAcc 0x5A (setSp 0x30 (unitT 0x20 0))))) with
    pc := 0x1234, tickDelay := 1, iram := Memory.writeBytes unspecByte [] 8 [0, 1, 2, 3, 4, 5, 6, 7] }

/-- V5.10: the snapshot and the stack of a dispatch. -/
theorem test_v5_10 : after unitV510 (fun t =>
    t.irqStack == [⟨0, 0x5A, 0x08, 0x32, 2, 1, 0, 0, 0, [0, 1, 2, 3, 4, 5, 6, 7], 1⟩] && t.pc == 0x000B &&
      iramGet 0x31 t == 0x34 && iramGet 0x32 t == 0x12 && sfrGet 0x88 t == 0) = true := by decide +kernel

/-- V5.11: a return with nothing changed, and one with register 3 of the bank changed. -/
theorem test_v5_11 : (match exec .reti (arbitrate unitV510), exec .reti (setIram 0x0B 0xFF (arbitrate unitV510)) with
    | .next t, .next u => t.faults.isEmpty && t.pc == 0x1234 && sp t == 0x30 && t.tickDelay == 3 &&
        u.faults.map (fun f => (f.kind, f.detail)) == [(.iretBankMismatch, .register 3)]
    | _, _ => false) = true := by decide +kernel

/-- V6.2 to V6.5. -/
theorem test_v6_deadlines :
    deadlineSet (deadlineSet (deadlineSet Tick.inf 150) 200) 120 = 120 ∧
    deadlineRemaining 100 120 = 20 ∧ deadlinePassed 119 120 = false ∧ deadlinePassed 120 120 = true := by decide +kernel

/-- V6.7. -/
theorem test_v6_7 : (match hzToTicks exampleConfig 3, usToTicks exampleConfig 3, msToTicks exampleConfig 2 with
    | .next a, .next b, .next c => a == 5333333 && b == 48 && c == 32000
    | _, _, _ => false) = true := by decide +kernel

/-- V6.8 with deadline 4, V6.9 with deadline 9, V6.10. -/
theorem test_v6_rendezvous : (match beginEventAt 4 { State.reset with sync := some ⟨0, false, false, false⟩ } with
    | .next t => t.ticks == 4 && windowOpen t &&
        (match awaitUnit 20 (endEvent 9 t) with
          | .next u => u.ticks == 9 && !isNext (beginEventAt 5 u)
          | _ => false)
    | _ => false) = true := by decide +kernel

/-- A unit of program P3's timers: TF0 is requested in the cycle with ticks 2 and dispatched in the next. -/
theorem test_timer_request : afterRun 4 { unitT 0 0 with
    irqRecheck := false, peripherals := [⟨.requestTimer 5, [], [], [], [], [2], [], false, 0⟩] } (fun t =>
    t.ticks == 4 && t.pc == 0x000B && t.irqStack.length == 1 && sfrGet 0x88 t == 0) = true := by decide +kernel

/-- V7.1, V7.8: the bytes stored. -/
theorem test_v7_1 : (match loadHex 0x4000 ":030000007580FF09\n:0200030080FE7D\n:00000001FF".toList [] with
    | .ok m => m == [(0, 0x75), (1, 0x80), (3, 0x80), (4, 0xFE)]
    | .error _ => false) = true := by decide +kernel

/-- V7.2 to V7.6: the texts that do not load. -/
theorem test_v7_errors :
    [":030000007580FF08\n:00000001FF", ":00000002FE\n:00000001FF", ":0140000000BF\n:00000001FF",
      ":023FFF000102BD\n:00000001FF", ":030000007580FF09"].map (fun x =>
        match loadHex 0x4000 x.toList [] with
        | .ok _ => none
        | .error e => some e) =
      [some .badChecksum, some .badType, some .addressRange, some .addressRange, some .noEndRecord] := by decide +kernel

/-- V7.7. -/
theorem test_v7_7 : (match loadHex 0x4000 ":00000001FF\r\ngarbage".toList [] with
    | .ok m => m.isEmpty
    | .error _ => false) = true := by decide +kernel

/-- A word placed where the step fetches runs as the first instruction after reset: MOV A,#0x5A. -/
theorem test_withFetchWord :
    after (State.reset.withFetchWord 16 0x5A74) (fun t => acc t == 0x5A && t.pc == 2) = true := by
  decide +kernel

/-! ### The hypotheses of the statements can be met -/

/-- For DecodeInvertsEncode: both ends of the offset's range. -/
theorem witness_decodeInvertsEncode :
    (Instr.jb 0x20 127).wellFormed = true ∧ (Instr.djnzRn 7 (-128)).wellFormed = true := by decide +kernel

/-- For EveryOpcodeByteHasOneRow: the first and last opcode byte of the row ADD A,Rn. -/
theorem witness_opcodeRow : ∀ op ∈ [0x28#8, 0x2F#8], ∃ r ∈ opTable, op &&& r.mask = r.value := by
  intro op hop
  refine ⟨_, List.mem_of_getElem? (l := opTable) (i := 0) rfl, ?_⟩
  fin_cases hop <;> rfl

theorem witness_directAccess_iram : (0x00#8 ≤ 0x7F#8) ∧ (0x7F#8 ≤ 0x7F#8) := by decide

theorem witness_directAccess_core : (0x80#8 ≤ 0xA8#8) ∧ 0xA8#8 ∈ deviceUnit.cfg.coreSfrs := by decide +kernel

theorem witness_directAccess_unowned : (0x80#8 ≤ 0xFE#8) ∧ ∀ p ∈ deviceUnit.peripherals, 0xFE#8 ∉ p.owns := by
  decide +kernel

theorem witness_directAccess_owned : ∃ p, deviceUnit.peripherals[1]? = some p ∧ (0x80#8 ≤ 0x80#8) ∧
    0x80#8 ∉ deviceUnit.cfg.coreSfrs ∧ 0x80#8 ∈ p.owns ∧ ∀ q ∈ deviceUnit.peripherals.take 1, 0x80#8 ∉ q.owns :=
  ⟨⟨.external 1, [0xC1, 0x80, 0xFF], [0xFF], [0x80], [], [], [], false, 0x22⟩, by decide +kernel⟩

theorem witness_directAccess_irq : (0x80#8 ≤ 0xA8#8) ∧ 0xA8#8 ∈ State.reset.cfg.irqSfrs := by decide +kernel

theorem witness_multiplyAndDivide : regB (setB 1 State.reset) ≠ 0 := by decide +kernel

theorem witness_divideByZero : regB State.reset = 0 := by decide +kernel

/-- For DirectReadModifyWrite, LogicalToAccumulator: an IRAM byte at the end of its range, an SFR at the start of its. -/
theorem witness_directRead : dirRead 0x7F (setIram 0x7F 0x31 State.reset) = (setIram 0x7F 0x31 State.reset, 0x31) ∧
    dirRead 0x80 State.reset = (State.reset, 0xFF) := by decide +kernel

theorem witness_dataPointer : State.reset.cfg.wellFormed = true := by decide +kernel

theorem witness_accumulatorLoads : (0xE1#8 ≠ 0xE0#8) ∧ (0xDF#8 ≠ 0xE0#8) := by decide

/-- A unit whose external memory is 0x0100..0x01FF, with page, pointer register and DPTR at `a`. -/
def movxUnit (a : Addr) : State :=
  setSfr 0xA0 (a.extractLsb' 8 8) (setSfr 0x83 (a.extractLsb' 8 8) (setSfr 0x82 (a.extractLsb' 0 8)
    (writeReg 1 (a.extractLsb' 0 8) { State.reset with cfg := { exampleConfig with xdataValid := [(0x0100, 0x01FF)] } })))

theorem witness_movx_existing : ((movxUnit 0x0100).cfg.xdataOk (dptr (movxUnit 0x0100)) = true ∧
    (movxUnit 0x01FF).cfg.xdataOk (sfrGet (movxUnit 0x01FF).cfg.movxPageSfr (movxUnit 0x01FF) ++
      pointer 1 (movxUnit 0x01FF)) = true) := by decide +kernel

theorem witness_movx_missing : ((movxUnit 0x0200).cfg.xdataOk (dptr (movxUnit 0x0200)) = false ∧
    (movxUnit 0x00FF).cfg.xdataOk (sfrGet (movxUnit 0x00FF).cfg.movxPageSfr (movxUnit 0x00FF) ++
      pointer 1 (movxUnit 0x00FF)) = false) := by decide +kernel

/-- For CarryOperations: the last bit of IRAM and the first of the SFRs. -/
theorem witness_bitRead : bitRead 0x7F (setIram 0x2F 0x80 State.reset) = (setIram 0x2F 0x80 State.reset, true) ∧
    bitRead 0x80 State.reset = (State.reset, true) := by decide +kernel

theorem witness_bitBranches :
    (dirRead (bitLoc 0x00).1 (setIram 0x20 1 State.reset) = (setIram 0x20 1 State.reset, 1) ∧ bitOf 1 (bitLoc 0x00).2 = true) ∧
    (dirRead (bitLoc 0xFF).1 State.reset = (State.reset, 0) ∧ bitOf 0 (bitLoc 0xFF).2 = false) := by decide +kernel

theorem witness_returnFromInterrupt : State.reset.irqStack = [] ∧
    ∃ l, (arbitrate unitV510).irqStack = l :: [] ∧ l.r.length = 8 :=
  ⟨rfl, ⟨0, 0x5A, 0x08, 0x32, 2, 1, 0, 0, 0, [0, 1, 2, 3, 4, 5, 6, 7], 1⟩, by decide +kernel⟩

theorem witness_dispatchSaves : tableT.map (·.autoClear) = [some (0x88, 1), some (0x88, 5)] := by decide +kernel

/-- A unit in which an interrupt is dispatched. -/
theorem witness_interruptTaken : mayCycle unitV510 ∧ unitV510.irqRecheck = true ∧
    (∃ b, irqChoice unitV510 = some b) ∧ 0 < unitV510.cfg.irqLatency := by
  refine ⟨by unfold mayCycle; decide +kernel, by decide +kernel, ?_, by decide +kernel⟩
  exact Option.isSome_iff_exists.mp (by decide +kernel)

theorem witness_gatedArbitration : recheckOk unitV510 = true ∧ recheckOk State.reset = true ∧
    recheckOk { unitV510 with irqRecheck := false } = false := by decide +kernel

/-- For every statement about a step that answers a next state: a state that meets every invariant at once, with an
interrupt inside a handler and bytes in every memory. -/
def soundUnit : State :=
  { unitT 0x22 1 with
    pc := 0x3FFF, irqStack := [levelOf 0], iram := [(8, 1)], xdata := [(0xFFFF, 1)], code := [(0, 0x55), (0x3FFF, 0x74)] }

theorem witness_soundUnit : stateOk soundUnit = true ∧ ∃ t, step soundUnit = .next t :=
  ⟨by decide +kernel, next_of_isNext (by decide +kernel)⟩

/-- For CodeMemoryIsReadOnly: an instruction that stores to external data memory, with no peripheral. -/
theorem witness_noPeripheral : (unitAt 0x3FFF [0xF0]).peripherals = [] ∧ stateOk (unitAt 0x3FFF [0xF0]) = true ∧
    ∃ t, step (unitAt 0x3FFF [0xF0]) = .next t := ⟨rfl, by decide +kernel, next_of_isNext (by decide +kernel)⟩

/-- For ClockAdvancesByOne: the last cycle before the clock's end. -/
theorem witness_clock : ∃ t, step { State.reset with ticks := Tick.inf - 2 } = .next t :=
  next_of_isNext (by decide +kernel)

theorem witness_dispatchThenReti : (setSp 0xFD unitV510).cfg.wellFormed = true ∧ pcOk (setSp 0xFD unitV510) = true ∧
    (sp (setSp 0xFD unitV510)).toNat ≤ 0xFD ∧
    ∀ x ∈ tableT, ∀ d b, x.autoClear = some (d, b) → d ∉ (setSp 0xFD unitV510).cfg.implicitSfrs := by
  refine ⟨by decide +kernel, by decide +kernel, by decide +kernel, ?_⟩
  have h : ∀ x ∈ tableT, ∀ p ∈ x.autoClear, p.1 ∉ (setSp 0xFD unitV510).cfg.implicitSfrs := by decide +kernel
  exact fun x hx d b e => h x hx (d, b) e

/-- An instruction across the end of code memory: MOV A,#0x55 at 0x3FFF. -/
theorem witness_stepRuns : mayCycle (unitAt 0x3FFF [0x74]) ∧
    ((unitAt 0x3FFF [0x74]).irqRecheck = true → irqChoice (unitAt 0x3FFF [0x74]) = none) ∧
    (unitAt 0x3FFF [0x74]).tickDelay ≤ 0 ∧ (unitAt 0x3FFF [0x74]).cfg.breakpoints.contains 0x3FFF = false ∧
    ∃ i rest, decode [codeRead 0x3FFF (unitAt 0x3FFF [0x74]), codeRead 0x4000 (unitAt 0x3FFF [0x74]),
      codeRead 0x4001 (unitAt 0x3FFF [0x74])] = .ok (i, rest) ∧
      ∃ t, exec i { unitAt 0x3FFF [0x74] with previousPc := 0x3FFF, pc := 0x0001 } = .next t := by
  refine ⟨by unfold mayCycle; decide +kernel, by decide +kernel, by decide, rfl, .movAImm 0xFF, [0xFF], ?_, ?_⟩
  · have h : (match decode [codeRead 0x3FFF (unitAt 0x3FFF [0x74]), codeRead 0x4000 (unitAt 0x3FFF [0x74]),
        codeRead 0x4001 (unitAt 0x3FFF [0x74])] with
        | .ok p => decide (p = (Instr.movAImm 0xFF, [0xFF]))
        | .error _ => false) = true := by decide +kernel
    split at h
    · next e => rw [e, of_decide_eq_true h]
    · cases h
  · exact next_of_isNext (by decide +kernel)

theorem witness_instructionCost : State.reset.cfg.wellFormed = true := by decide +kernel

theorem witness_parity : State.reset.cfg.parityTracking = true ∧
    { exampleConfig with parityTracking := false }.parityTracking = false := by decide +kernel

theorem witness_haltedOrStopped : ({ State.reset with halted := true } : State).halted = true ∧
    ((clearRunFlag State.reset).halted = false ∧ (clearRunFlag State.reset).runFlag = false ∧
      ∀ y ∈ (clearRunFlag State.reset).sync, y.blocked = false) ∧
    (({ State.reset with ticks := Tick.inf - 1 } : State).halted = false ∧ State.reset.runFlag = true ∧
      Tick.inf - 1 ≤ ({ State.reset with ticks := Tick.inf - 1 } : State).ticks ∧
      syncCheck { State.reset with ticks := Tick.inf - 1 } = .run { State.reset with ticks := Tick.inf - 1 }) := by
  decide +kernel

/-- A unit inside the wait of SyncCheck, in an open window, at clock value 10, with table T. -/
def waitingUnit : State := { unitT 0 0 with ticks := 10, sync := some ⟨10, true, true, true⟩ }

/-- R571, R582: the run flag cleared in the wait leaves the unit stuck, and after the release the cycle it began goes on;
the next cycle does not begin. -/
theorem test_flag_cleared_in_wait :
    after (clearRunFlag waitingUnit) (fun t => t == clearRunFlag waitingUnit) = true ∧
    (match step (endEvent 100 (clearRunFlag waitingUnit)) with
      | .next t => t.ticks == 11 && (match step t with
        | .fault .runFlagClear => true
        | _ => false)
      | _ => false) = true := by decide +kernel

/-- R571, R548: a unit at the last clock value waits; it takes no cycle there. -/
theorem test_wait_at_clock_end :
    isNext (step { State.reset with ticks := Tick.inf - 1, sync := some ⟨0, false, false, false⟩ }) = true := by
  decide +kernel

/-- R574, R583: a unit that waits with no begin_event called has no open window; in one, request bits alone are written. -/
theorem test_window_moves :
    isNext (windowRequest 0x88 1 true { waitingUnit with sync := some ⟨10, true, true, false⟩ }) = false ∧
    isNext (windowRequest 0xE0 0 true waitingUnit) = false ∧
    (match windowRequest 0x88 1 true waitingUnit with
      | .next t => sfrGet 0x88 t == 0x02 && t.irqRecheck
      | _ => false) = true := by decide +kernel

/-- R580: the record of MOV A,#0x5A at 0x0100, and none in the cycle that counts it down. -/
theorem test_trace : traceOf { unitAt 0x0100 [0x74, 0x5A] with ticks := 7 } = some ⟨7, 0x0100, [0x74, 0x5A], 0x5A, 0, 7, 0⟩ ∧
    traceOf { unitAt 0x0100 [0x74, 0x5A] with tickDelay := 1 } = none ∧ traceOf waitingUnit = none := by decide +kernel

/-- A peripheral without behaviour of its own, at clock value 1000, for V6.6. -/
def idleDevice : Peripheral := ⟨.requestTimer 0, [], [], [], [], [], [], false, 0⟩

/-- A unit at clock value `now` whose only peripheral has these operations. -/
def operationUnit (now : Tick) (ops : List Operation) : State :=
  { State.reset with ticks := now, peripherals := [{ idleDevice with operations := ops }] }

/-- V6.6: an operation of 50 ticks started at 1000 completes in the tick at 1050; a command at 1049 is discarded. -/
theorem test_v6_6 :
    (applyEffect 0 idleDevice [.command ⟨3, 50, []⟩ {}] (operationUnit 1000 [])).peripherals = [{ idleDevice with operations := [⟨3, 1050⟩] }] ∧
    (let p := { idleDevice with operations := [⟨3, 1050⟩] }
     let t := applyEffect 0 p [.command ⟨3, 7, [9]⟩ { own := some ⟨[1], [], true, 1⟩ }] (operationUnit 1049 [⟨3, 1050⟩])
     t.peripherals = [p] ∧ t.faults = [⟨.peripheralBusy, 0, .device [9]⟩]) ∧
    (hardwareTick (operationUnit 1049 [⟨3, 1050⟩])).peripherals = [{ idleDevice with operations := [⟨3, 1050⟩] }] ∧
    (hardwareTick { operationUnit 1050 [⟨3, 1050⟩] with
      cfg := { exampleConfig with busIdle := some 0 } }).peripherals = [idleDevice] := by decide +kernel

/-- R515, R566: a busy command between two faults and a completion's write: three records in order, and the write stays. -/
theorem test_busy_suppresses_nothing :
    (let t := applyEffect 0 { idleDevice with operations := [⟨3, 1050⟩] }
      [.report .spiXrun [1], .change { sfrWrites := [(0x98, 5)] }, .command ⟨3, 7, [9]⟩ { sfrWrites := [(0x98, 6)] },
        .report .i2cError [2], .command ⟨4, 7, []⟩ {}] (operationUnit 1049 [⟨3, 1050⟩])
     sfrGet 0x98 t = 5 ∧ t.peripherals.map (·.operations) = [[⟨3, 1050⟩, ⟨4, 1056⟩]] ∧
       t.faults = [⟨.spiXrun, 0, .device [1]⟩, ⟨.peripheralBusy, 0, .device [9]⟩, ⟨.i2cError, 0, .device [2]⟩]) := by
  decide +kernel

/-- A unit at a breakpoint. -/
def breakUnit (stop : List FaultKind) : State :=
  { unitAt 0x0002 [0xA5] with
    irqRecheck := true, cfg := { exampleConfig with breakpoints := [0x0002], stopOn := stop } }

theorem witness_breakpoint : ∀ x ∈ [[], [FaultKind.breakpoint]], mayCycle (breakUnit x) ∧
    ((breakUnit x).irqRecheck = true → irqChoice (breakUnit x) = none) ∧ (breakUnit x).tickDelay ≤ 0 ∧ (breakUnit x).pc ∈ (breakUnit x).cfg.breakpoints ∧
    (breakUnit x).cfg.continues .breakpoint = x.isEmpty := by unfold mayCycle; decide +kernel

/-- A unit three cycles before a Deadline and its rendezvous, an instruction with four cycles left. -/
def countingUnit : State :=
  { State.reset with
    tickDelay := 4, ticks := 10, peripherals := [⟨.external 0, [], [], [], [], [13], [], false, 0⟩], sync := some ⟨13, false, false, false⟩ }

theorem witness_countingDeadline : ∀ p ∈ countingUnit.peripherals, ∀ w ∈ p.wakeTimes, w = 13 := by
  intro p hp w hw
  cases List.mem_singleton.mp hp
  exact List.mem_singleton.mp hw

theorem witness_fastForward : (countingUnit.halted = false ∧ countingUnit.runFlag = true ∧
    countingUnit.irqRecheck = false ∧ countingUnit.needHwTick = false) ∧
    ((3 : Nat) : Int) < countingUnit.tickDelay ∧ countingUnit.ticks.toNat + 3 < Tick.inf.toNat ∧
    (∀ p ∈ countingUnit.peripherals, ∀ w ∈ p.wakeTimes, countingUnit.ticks.toNat + 3 ≤ w.toNat) ∧
    (∀ y ∈ countingUnit.sync, y.blocked = false ∧ countingUnit.ticks.toNat + 3 ≤ y.deadline.toNat) := by
  refine ⟨by decide +kernel, by decide +kernel, by decide +kernel, ?_, by decide +kernel⟩
  intro p hp w hw
  rw [witness_countingDeadline p hp w hw]
  decide +kernel

theorem witness_beginEventAtReturns : countingUnit.sync = some ⟨13, false, false, false⟩ ∧
    countingUnit.ticks.toNat + 3 < Tick.inf.toNat ∧ isNext (beginEventAt 13 countingUnit) = true := by decide +kernel

/-- R549 on the counting unit: three cycles change the clock and the remainder only. -/
theorem test_fast_forward : afterRun 3 countingUnit (fun t =>
    t == { countingUnit with ticks := 13, tickDelay := 1 }) = true := by decide +kernel

/-- One clock value before the Deadline nothing is due; at it the tick runs. -/
theorem witness_hardwareTick : countingUnit.needHwTick = false ∧
    (∀ p ∈ countingUnit.peripherals, ∀ w ∈ p.wakeTimes, ({ countingUnit with ticks := 12 } : State).ticks < w) ∧
    countingUnit.peripherals.any (due { countingUnit with ticks := 13 }) = true := by
  refine ⟨rfl, ?_, by decide +kernel⟩
  intro p hp w hw
  rw [witness_countingDeadline p hp w hw]
  decide +kernel

/-- Of two devices the one at position 0 drives the bus. -/
theorem witness_bus_one : ∃ p, deviceUnit.peripherals[0]? = some p ∧ p.outEnable = true ∧
    ∀ (j : Nat) (q : Peripheral), deviceUnit.peripherals[j]? = some q → q.outEnable = true → j = 0 := by
  refine ⟨⟨.external 0, [0xC1], [], [], [0], [5], [], true, 0x11⟩, by decide +kernel, rfl, ?_⟩
  intro j q hj hq
  match j with
  | 0 => rfl
  | 1 => cases hj; exact absurd hq (by decide)
  | j + 2 => cases hj

/-- Attention asked for, and a Deadline that has just passed. -/
theorem witness_hardwareTick_works : ({ countingUnit with needHwTick := true } : State).needHwTick = true ∧
    ({ countingUnit with ticks := 13 } : State).peripherals.any (due { countingUnit with ticks := 13 }) = true ∧
    ({ countingUnit with ticks := 13 } : State).peripherals[0]?.isSome = true := by decide +kernel

/-- An owned register of a port without read side effect, and one with a read side effect that is none of a port. -/
theorem witness_deviceRegisters :
    (ownerOf 0x80 deviceUnit).any (fun x => x.1 == 1 && x.2.ports.contains 0x80 && !x.2.readEffects.contains 0x80) = true ∧
    (ownerOf 0xFF deviceUnit).any (fun x => x.2.readEffects.contains 0xFF && !x.2.ports.contains 0xFF) = true := by
  decide +kernel

theorem witness_bus_unspec : (∀ p ∈ countingUnit.peripherals, p.outEnable = false) ∧
    countingUnit.cfg.busIdle = none := by decide +kernel

theorem witness_bus_none : (∀ p ∈ countingUnit.peripherals, p.outEnable = false) ∧
    ({ exampleConfig with busIdle := some 0x5A } : Config).busIdle = some 0x5A := by decide +kernel

theorem witness_bus_two : ∃ s : State, ∃ p q, s.peripherals[0]? = some p ∧ s.peripherals[1]? = some q ∧
    p.outEnable = true ∧ q.outEnable = true :=
  ⟨{ State.reset with peripherals := [⟨.external 0, [], [], [], [], [], [], true, 0⟩, ⟨.external 1, [], [], [], [], [], [], true, 0⟩] },
    _, _, rfl, rfl, rfl, rfl⟩

theorem witness_deadlines : (119#64 ≤ 120#64) ∧ deadlinePassed 120 120 = true ∧ (Tick.inf - 1 < Tick.inf) := by
  decide +kernel

/-- For DeadlineOperations: a command to a busy resource and one to a free resource, after no action and after a command
that made the resource busy; an operation that has just passed. -/
theorem witness_operations :
    (operationUnit 1050 [⟨3, 1050⟩]).peripherals[0]? = some { idleDevice with operations := [⟨3, 1050⟩] } ∧
    (∃ o ∈ ({ idleDevice with operations := [⟨3, 1050⟩] } : Peripheral).operations, o.resource = 3) ∧
    (∀ o ∈ ({ idleDevice with operations := [⟨3, 1050⟩] } : Peripheral).operations, o.resource ≠ 4) ∧
    ((applyEffect 0 idleDevice [.command ⟨5, 50, []⟩ {}] (operationUnit 1000 [])).peripherals[0]?.map
      fun q => q.operations.any fun o => o.resource == 5) = some true ∧
    due (operationUnit 1050 [⟨3, 1050⟩]) { idleDevice with operations := [⟨3, 1050⟩] } = true := by decide +kernel

/-- For StepKeepsParametersAndAttachments: a sound rendezvous state from which a begin_event returns. -/
theorem witness_rendezvous : syncOk countingUnit = true ∧ (∃ t, beginEvent 13 countingUnit = .next t) ∧
    (∃ t, beginEventAt 13 countingUnit = .next t) ∧ ∃ t, step countingUnit = .next t :=
  ⟨by decide +kernel, next_of_isNext (by decide +kernel), next_of_isNext (by decide +kernel),
    next_of_isNext (by decide +kernel)⟩

/-- For SyncCheckBlocksTheUnit: a window, a request bit at the end of its range, a bit that is none. -/
theorem witness_window : waitingUnit.sync = some ⟨10, true, true, true⟩ ∧ waitingUnit.halted = false ∧
    waitingUnit.ticks < Tick.inf - 1 ∧ (0x80#8 ≤ 0x88#8) ∧
    (∃ x ∈ waitingUnit.cfg.irqTable, (0x88#8, 5#3) ∈ condBits x.pending) ∧
    (∀ x ∈ waitingUnit.cfg.irqTable, (0x88#8, 4#3) ∉ condBits x.pending) ∧
    ({ deviceUnit with sync := some ⟨0, true, true, true⟩ } : State).peripherals[1]?.isSome = true := by decide +kernel

/-- A unit that reached its deadline, one inside the wait, and one before its deadline. -/
theorem witness_syncCheck :
    ((3#64 ≤ ({ countingUnit with ticks := 3 } : State).ticks) ∧ countingUnit.halted = false ∧
      countingUnit.runFlag = true ∧ countingUnit.ticks < Tick.inf - 1) ∧
    isNext (step { countingUnit with sync := some ⟨10, false, false, false⟩ }) = true ∧
    isNext (step { countingUnit with sync := some ⟨10, true, true, true⟩ }) = true ∧ countingUnit.ticks < 13 := by
  decide +kernel

theorem witness_beginEventAtIsExact : syncOk countingUnit = true ∧
    (9#64 < countingUnit.ticks) ∧ ∃ t, beginEventAt 13 countingUnit = .next t ∧ ∃ u, step t = .next u := by
  refine ⟨by decide +kernel, by decide +kernel, ?_⟩
  have h : (match beginEventAt 13 countingUnit with
      | .next t => isNext (step t)
      | _ => false) = true := by decide +kernel
  split at h
  · next t e => exact ⟨t, e, next_of_isNext h⟩
  · cases h

/-- A data record that ends at the last code byte; one with a wrong checksum; one of a wrong length; one past the end. -/
theorem witness_loaderRecords : (∃ m, applyRecord 0x4000 [] [1, 0x3F, 0xFF, 0, 0x12, 0xAF] = .ok (.more m)) ∧
    ([0x12#8, 0xAE#8].length = (1#8).toNat + 1 ∧ (1 + 0x3F + 0xFF + 0 + ([0x12#8, 0xAE#8].map BitVec.toNat).sum) % 256 ≠ 0) ∧
    [0x12#8].length ≠ (1#8).toNat + 1 ∧ (0 < (1#8).toNat ∧ 0x4000 ≤ (0x40#8 ++ 0x00#8).toNat + 0) := by
  refine ⟨⟨[(0x3FFF, 0x12)], by rfl⟩, by decide +kernel, by decide, by decide⟩

/-- A record of type 1, one of type 2, and a data record with no byte at the end of the address range. -/
theorem witness_loaderTypes : applyRecord 0x4000 [] [0, 0, 0, 1, 0xFF] = .ok .done ∧
    applyRecord 0x4000 [] [0, 0, 0, 2, 0xFE] = .error .badType ∧
    applyRecord 0x4000 [] [0, 0xFF, 0xFF, 0, 0x02] = .ok (.more []) := ⟨by rfl, by rfl, by rfl⟩

/-- A text that loads, in which two records cover address 0 and none covers 2, and one without a type-1 record. -/
theorem witness_loaderTexts :
    (match loadHex 0x4000 ":020000000102FB\n:0100000007F8\n:00000001FF".toList [] with
      | .ok m => m == [(0, 7), (1, 2)]
      | .error _ => false) = true ∧
    dataRecords (textLines ":020000000102FB\n:0100000007F8\n:00000001FF".toList []) = [(0, [1, 2]), (0, [7])] ∧
    (covers 0 (0, [7]) ∧ covers 1 (0, [1, 2]) ∧ ¬ covers 1 (0, [7]) ∧ ¬ covers 2 (0, [1, 2])) ∧
    (textLines ":0100000007F8".toList []).map lineBytes = [some [1, 0, 0, 0, 7, 0xF8]] := by
  refine ⟨by decide +kernel, by decide +kernel, ?_, by decide +kernel⟩
  unfold covers
  decide

theorem witness_resetLeavesListedValues : soundUnit.cfg.wellFormed = true := by decide +kernel

end Sys2Proof.Tests
end

section
/-! PROOFS. The opcode table of 30_encoding.md R129: the row that decoding looks up is the only row that hits the byte. -/

namespace Sys2Proof

@[simp] theorem OpRow.hits_iff (op : Byte) (r : OpRow) : r.hits op = true ↔ op &&& r.mask = r.value := beq_iff_eq

/-- A lookup by a test that only one element passes finds every element that passes it. -/
theorem find?_eq_some_of_filter_length_one {α : Type} {p : α → Bool} {l : List α} {a : α}
    (hone : (l.filter p).length = 1) (ha : a ∈ l) (hp : p a = true) : l.find? p = some a := by
  obtain ⟨b, hb⟩ := List.length_eq_one_iff.mp hone
  have hab : a = b := by simpa [hb] using List.mem_filter.mpr ⟨ha, hp⟩
  rw [← List.head?_filter, hb, hab, List.head?_singleton]

/-- The masks and values of the rows partition the opcode bytes: a finite check of the table, byte by byte. -/
theorem opTable_one_row_hits : ∀ op : Byte, (opTable.filter (OpRow.hits op)).length = 1 := by decide +kernel

/-- `row(op)` does not depend on the order of the table, and its default is never taken. -/
theorem rowOf_eq {op : Byte} {r : OpRow} (hr : r ∈ opTable) (hop : op &&& r.mask = r.value) : rowOf op = r := by
  have hfind : opTable.find? (OpRow.hits op) = some r :=
    find?_eq_some_of_filter_length_one (opTable_one_row_hits op) hr ((OpRow.hits_iff op r).mpr hop)
  simp [rowOf, hfind]

/-- Settles O2: the table is checked byte by byte, and the decoder reads the one row that hits. -/
theorem everyOpcodeByteHasOneRow : Obligations.EveryOpcodeByteHasOneRow := by
  unfold Obligations.EveryOpcodeByteHasOneRow
  refine ⟨rfl, opTable_one_row_hits, fun op b1 b2 r hr hop => ?_⟩
  have hrow : rowOf op = r := rowOf_eq hr hop
  exact ⟨by rw [decodeOp, hrow], by rw [lenOf, hrow]⟩

end Sys2Proof
end

section
/-! PROOFS. Interrupt arbitration (60_exceptions.md R520, R521, R528): the scan of IRQ_TABLE finds the earliest of the
best requesting sources, and arbitration dispatches it exactly when it may preempt. -/

namespace Sys2Proof.Machine

/-! ### One turn of the scan -/

/-- The source is enabled and pending, so the scan looks at its priority (R520). -/
def requests (s : State) (x : IrqSource) : Prop := evalCond s x.enabled = true ∧ evalCond s x.pending = true

theorem scanSource_of_not_requests {s : State} {x : IrqSource} (h : ¬ requests s x)
    (best : Option (IrqSource × BitVec 2)) : scanSource s best x = best :=
  if_neg (by simpa [requests] using h)

theorem scanSource_none_of_requests {s : State} {x : IrqSource} (h : requests s x) :
    scanSource s none x = some (x, sourcePriority s x) :=
  if_pos (by simpa [requests] using h)

theorem scanSource_some_of_requests {s : State} {x : IrqSource} (h : requests s x) (b : IrqSource × BitVec 2) :
    scanSource s (some b) x = if b.2 < sourcePriority s x then some (x, sourcePriority s x) else some b :=
  if_pos (by simpa [requests] using h)

/-! ### The scan of a table -/

/-- Of the requesting sources of `xs`, `x` has the highest priority and is the earliest that has it: the order of R520 with
the tie-break D20, by what stands before `x` in the table and what stands after it. -/
def IsBest (s : State) (xs : List IrqSource) (x : IrqSource) : Prop :=
  requests s x ∧ ∃ before after, xs = before ++ x :: after ∧
    (∀ y ∈ before, requests s y → sourcePriority s y < sourcePriority s x) ∧
    ∀ y ∈ after, requests s y → sourcePriority s y ≤ sourcePriority s x

/-- What the scan of `xs` may answer: nothing when no source requests, else the best one with its priority. -/
def ScanFound (s : State) (xs : List IrqSource) : Option (IrqSource × BitVec 2) → Prop
  | none => ∀ y ∈ xs, ¬ requests s y
  | some b => b.2 = sourcePriority s b.1 ∧ IsBest s xs b.1

/-- No requesting source is better than the best. -/
theorem IsBest.le {s : State} {xs : List IrqSource} {x y : IrqSource} (h : IsBest s xs x) (hy : y ∈ xs)
    (hr : requests s y) : sourcePriority s y ≤ sourcePriority s x := by
  obtain ⟨_, before, after, rfl, hbefore, hafter⟩ := h
  rcases List.mem_append.1 hy with hy | hy
  · exact BitVec.le_of_lt (hbefore y hy hr)
  · rcases List.mem_cons.1 hy with rfl | hy
    · exact BitVec.le_refl _
    · exact hafter y hy hr

/-- A further source that is not better leaves the best one the best. -/
theorem IsBest.concat {s : State} {xs : List IrqSource} {x y : IrqSource} (h : IsBest s xs x)
    (hy : requests s y → sourcePriority s y ≤ sourcePriority s x) : IsBest s (xs ++ [y]) x := by
  obtain ⟨hx, before, after, rfl, hbefore, hafter⟩ := h
  refine ⟨hx, before, after ++ [y], by simp, hbefore, fun z hz => ?_⟩
  rcases List.mem_append.1 hz with hz | hz
  · exact hafter z hz
  · exact List.mem_singleton.1 hz ▸ hy

/-- A further source that is better than every source before it is the best. -/
theorem isBest_last {s : State} {xs : List IrqSource} {x : IrqSource} (hx : requests s x)
    (h : ∀ y ∈ xs, requests s y → sourcePriority s y < sourcePriority s x) : IsBest s (xs ++ [x]) x :=
  ⟨hx, xs, [], rfl, h, by simp⟩

/-- One more turn of the scan, over one more source. -/
theorem ScanFound.concat {s : State} {xs : List IrqSource} {best : Option (IrqSource × BitVec 2)}
    (h : ScanFound s xs best) (x : IrqSource) : ScanFound s (xs ++ [x]) (scanSource s best x) := by
  by_cases hx : requests s x
  · cases best with
    | none =>
      rw [scanSource_none_of_requests hx]
      exact ⟨rfl, isBest_last hx fun y hy hr => absurd hr (h y hy)⟩
    | some b =>
      obtain ⟨hp, hb⟩ := h
      rw [scanSource_some_of_requests hx]
      split
      · next hlt =>
        refine ⟨rfl, isBest_last hx fun y hy hr => ?_⟩
        have hle := hb.le hy hr
        bv_omega
      · next hge => exact ⟨hp, hb.concat fun _ => hp ▸ BitVec.not_lt.1 hge⟩
  · rw [scanSource_of_not_requests hx]
    cases best with
    | none =>
      intro y hy
      rcases List.mem_append.1 hy with hy | hy
      · exact h y hy
      · exact List.mem_singleton.1 hy ▸ hx
    | some b =>
      obtain ⟨hp, hb⟩ := h
      exact ⟨hp, hb.concat fun hr => absurd hr hx⟩

/-- The scan of any table, from nothing. -/
theorem scanFound_foldl (s : State) (xs : List IrqSource) : ScanFound s xs (xs.foldl (scanSource s) none) := by
  induction xs using List.reverseRecOn with
  | nil => exact fun y hy => absurd hy List.not_mem_nil
  | append_singleton xs x ih =>
    rw [List.foldl_concat]
    exact ih.concat x

theorem scanFound_bestSource (s : State) : ScanFound s s.cfg.irqTable (bestSource s) :=
  scanFound_foldl s s.cfg.irqTable

/-- The best source by its number in the table. -/
theorem IsBest.index {s : State} {xs : List IrqSource} {x : IrqSource} (h : IsBest s xs x) :
    ∃ k, xs[k]? = some x ∧ ∀ (j : Nat) (y : IrqSource), xs[j]? = some y → requests s y →
      sourcePriority s y ≤ sourcePriority s x ∧ (j < k → sourcePriority s y < sourcePriority s x) := by
  have hle : ∀ y ∈ xs, requests s y → sourcePriority s y ≤ sourcePriority s x := fun _ => h.le
  obtain ⟨_, before, after, rfl, hbefore, _⟩ := h
  refine ⟨before.length, by simp, fun j y hj hr => ⟨hle y (List.mem_of_getElem? hj) hr, fun hlt => ?_⟩⟩
  rw [List.getElem?_append_left hlt] at hj
  exact hbefore y (List.mem_of_getElem? hj) hr

/-! ### The choice -/

theorem mayPreempt_iff (p : BitVec 2) (s : State) :
    mayPreempt p s = true ↔ ∀ l ∈ s.irqStack.head?, l.priority < p := by
  unfold mayPreempt
  cases s.irqStack <;> simp

/-- A priority may not preempt exactly when the innermost handler has at least that priority (R528). -/
theorem mayPreempt_eq_false_iff (p : BitVec 2) (s : State) :
    mayPreempt p s = false ↔ ∃ l ∈ s.irqStack.head?, p ≤ l.priority := by
  rw [← Bool.not_eq_true, mayPreempt_iff]
  simp

/-- Arbitration chooses the best source when EA is set, its priority may preempt and a level is free. -/
theorem irqChoice_eq_some_iff (s : State) (b : IrqSource × BitVec 2) :
    irqChoice s = some b ↔
      irqEnabled s = true ∧ bestSource s = some b ∧ mayPreempt b.2 s = true ∧ s.irqStack.length < 4 := by
  unfold irqChoice
  cases irqEnabled s with
  | false => simp
  | true =>
    cases bestSource s with
    | none => simp
    | some c =>
      by_cases hcb : c = b
      · subst hcb; simp
      · simp [hcb]

/-- Arbitration that chooses nothing: EA is clear, or four handlers are active, or no requesting source may preempt. -/
theorem irqChoice_none {s : State} (h : irqChoice s = none) :
    irqEnabled s = false ∨ 4 ≤ s.irqStack.length ∨
      ∀ y ∈ s.cfg.irqTable, requests s y → ∃ l ∈ s.irqStack.head?, sourcePriority s y ≤ l.priority := by
  by_cases he : irqEnabled s = true
  · by_cases hl : s.irqStack.length < 4
    · refine .inr (.inr fun y hy hr => ?_)
      have hscan := scanFound_bestSource s
      cases hb : bestSource s with
      | none =>
        rw [hb] at hscan
        exact absurd hr (hscan y hy)
      | some b =>
        rw [hb] at hscan
        obtain ⟨hp, hbest⟩ := hscan
        have hno : mayPreempt b.2 s = false := by
          by_contra hyes
          have := (irqChoice_eq_some_iff s b).2 ⟨he, hb, by simpa using hyes, hl⟩
          rw [h] at this
          cases this
        obtain ⟨l, hmem, hle⟩ := (mayPreempt_eq_false_iff b.2 s).1 hno
        exact ⟨l, hmem, BitVec.le_trans (hbest.le hy hr) (hp ▸ hle)⟩
    · exact .inr (.inl (by omega))
  · exact .inl (by simpa using he)

theorem arbitrate_of_some {s : State} {b : IrqSource × BitVec 2} (h : irqChoice s = some b) :
    arbitrate s = dispatch b.1 b.2 s := by
  unfold arbitrate
  rw [h]

theorem arbitrate_of_none {s : State} (h : irqChoice s = none) : arbitrate s = { s with irqRecheck := false } := by
  unfold arbitrate
  rw [h]

/-- Settles O34: by the choice arbitration makes, which is the best source of the scan or none. -/
theorem arbitrationDispatchesTheBestSource : Obligations.ArbitrationDispatchesTheBestSource := by
  unfold Obligations.ArbitrationDispatchesTheBestSource
  intro s
  cases hc : irqChoice s with
  | some b =>
    obtain ⟨x, p⟩ := b
    obtain ⟨hea, hbest, hpre, hlen⟩ := (irqChoice_eq_some_iff s (x, p)).1 hc
    have hscan := scanFound_bestSource s
    rw [hbest] at hscan
    obtain ⟨rfl, hx⟩ : p = sourcePriority s x ∧ IsBest s s.cfg.irqTable x := hscan
    obtain ⟨k, hk, horder⟩ := hx.index
    obtain ⟨hen, hpend⟩ := hx.1
    exact .inl ⟨k, x, hk, hea, hen, hpend, fun j y hj he hp => horder j y hj ⟨he, hp⟩,
      (mayPreempt_iff _ s).1 hpre, hlen, arbitrate_of_some hc⟩
  | none =>
    refine .inr ⟨?_, arbitrate_of_none hc⟩
    rcases irqChoice_none hc with h | h | h
    · exact .inl h
    · exact .inr (.inl h)
    · exact .inr (.inr fun y hy he hp => h y hy ⟨he, hp⟩)

end Sys2Proof.Machine
end

section
/-! PROOFS. Interrupt dispatch (60_exceptions.md R522, R523): the synthetic CALL, then the auto-clear of the source. -/

namespace Sys2Proof.Machine

/-! ### The auto-clear -/

/-- The auto-clear changes the SFR file only. -/
theorem autoClear_frame (c : Option (Byte × BitVec 3)) (s : State) :
    autoClear c s = { s with sfr := (autoClear c s).sfr } := by
  cases c <;> rfl

/-- The auto-clear changes no SFR but its own. -/
theorem sfrsKept_autoClear (d : Byte) (b : BitVec 3) (s : State) : sfrsKept [d] s (autoClear (some (d, b)) s) :=
  fun e he => by
    show sfrGet e (setSfr d _ s) = sfrGet e s
    rw [sfrGet_setSfr, if_neg (by simpa using he)]

/-- The auto-clear clears its bit and leaves the other bits of the byte. -/
theorem bitOf_autoClear (d : Byte) (b j : BitVec 3) (s : State) :
    bitOf (sfrGet d (autoClear (some (d, b)) s)) j = if j = b then false else bitOf (sfrGet d s) j := by
  show bitOf (sfrGet d (setSfr d _ s)) j = _
  rw [sfrGet_setSfr, if_pos rfl, bitOf_withBit]

/-! ### The synthetic CALL -/

/-- The state of a dispatch before the auto-clear: pc is pushed and holds the vector, the latency is charged, and the
snapshot of the state after the pushes lies on the interrupt stack with the preempted remainder (R522). -/
def dispatchCall (x : IrqSource) (p : BitVec 2) (s : State) : State :=
  { pushPc s with
    pc := BitVec.ofNat 16 (x.vector.toNat % s.cfg.codeSize), tickDelay := s.cfg.irqLatency,
    irqStack := snapshot p s.tickDelay (pushPc s) :: s.irqStack }

theorem pushPc_irqStack (s : State) : (pushPc s).irqStack = s.irqStack := by rw [pushPc_frame]

/-- A snapshot does not look at pc. -/
theorem snapshot_setPc (p : BitVec 2) (d : Int) (a : Nat) (s : State) : snapshot p d (setPc a s) = snapshot p d s := rfl

/-- Dispatch is the synthetic CALL and then the auto-clear. -/
theorem dispatch_eq_autoClear (x : IrqSource) (p : BitVec 2) (s : State) :
    dispatch x p s = autoClear x.autoClear (dispatchCall x p s) := by
  simp only [dispatch, dispatchCall, snapshot_setPc, setPc_irqStack, setPc_cfg, pushPc_irqStack]
  simp only [setPc, pushPc_cfg]

/-- The snapshot taken after the pushes, its addresses those of the parameters. -/
theorem snapshot_pushPc (p : BitVec 2) (d : Int) (s : State) :
    snapshot p d (pushPc s) = ⟨p, acc (pushPc s), psw (pushPc s), sp (pushPc s), sfrGet 0x82 (pushPc s),
      sfrGet 0x83 (pushPc s), sfrGet s.cfg.dpl1Addr (pushPc s), sfrGet s.cfg.dph1Addr (pushPc s),
      sfrGet s.cfg.dpsAddr (pushPc s), bankBytes (pushPc s), d⟩ := by
  simp only [snapshot, dps, pushPc_cfg]

/-- Settles O35: the two pushes of pc, the record made from the state they leave, and the auto-clear after it. -/
theorem dispatchSavesAndVectors : Obligations.DispatchSavesAndVectors := by
  unfold Obligations.DispatchSavesAndVectors
  intro x p s
  refine ⟨push (s.pc.extractLsb' 0 8) s, pushPc s, dispatchCall x p s, pushed_push _ s, pushed_push _ _, ?_, ?_, ?_, ?_⟩
  · rw [← snapshot_pushPc]
    rfl
  · rw [dispatch_eq_autoClear]
    exact autoClear_frame _ _
  · intro hnone
    rw [dispatch_eq_autoClear, hnone]
    rfl
  · intro d b hclear
    rw [dispatch_eq_autoClear, hclear]
    exact ⟨sfrsKept_autoClear d b _, fun j => bitOf_autoClear d b j _⟩

end Sys2Proof.Machine
end

section
/-! PROOFS. The cost of an instruction (60_exceptions.md R507, R403). -/

namespace Sys2Proof.Machine

/-- Every cost of a legal CYCLES table lies in 1..6 (R8). -/
theorem cyclesOf_bounds {c : Config} (h : c.cyclesOk = true) (op : Byte) : 1 ≤ c.cyclesOf op ∧ c.cyclesOf op ≤ 6 := by
  simp only [Config.cyclesOk, Bool.and_eq_true, beq_iff_eq, List.all_eq_true, decide_eq_true_eq] at h
  obtain ⟨hlen, hall⟩ := h
  have hop : op.toNat < c.cycles.length := hlen ▸ op.isLt
  rw [Config.cyclesOf, List.getD_eq_getElem _ _ hop]
  exact hall _ (List.getElem_mem hop)

theorem cyclesOk_of_wellFormed {c : Config} (h : c.wellFormed = true) : c.cyclesOk = true := by
  simp only [Config.wellFormed, Bool.and_eq_true] at h
  obtain ⟨⟨⟨⟨⟨⟨hcycles, _⟩, _⟩, _⟩, _⟩, _⟩, _⟩ := h
  exact hcycles

/-- Every meaning but that of RETI ends by charging the cost of its own opcode byte. -/
theorem exec_charges {i : Instr} (hi : i ≠ .reti) {s t : State} (h : exec i s = .next t) :
    ∃ u, t = charge (opcodeOf i) u := by
  cases i
  case reti => exact absurd rfl hi
  case movADir d =>
    simp only [exec, execMovADir] at h
    split at h <;> cases h <;> exact ⟨_, rfl⟩
  all_goals cases h; exact ⟨_, rfl⟩

/-- RETI inside a handler charges its cost and the remainder that the handler preempted. -/
theorem exec_reti_tickDelay_cons {l : IrqLevel} {rest : List IrqLevel} {s t : State} (hst : s.irqStack = l :: rest)
    (h : exec .reti s = .next t) : t.tickDelay = t.cfg.cyclesOf (opcodeOf .reti) + l.savedDelay := by
  simp only [exec, execReti, hst] at h
  cases h
  rfl

/-- RETI with no active handler charges its cost (D23). -/
theorem exec_reti_tickDelay_nil {s t : State} (hst : s.irqStack = []) (h : exec .reti s = .next t) :
    t.tickDelay = t.cfg.cyclesOf (opcodeOf .reti) := by
  simp only [exec, execReti, hst] at h
  cases h
  rfl

/-- Settles O41: every instruction but RETI ends with its charge, and RETI is split by whether a handler is active. -/
theorem instructionCost : Obligations.InstructionCost := by
  unfold Obligations.InstructionCost
  intro i s
  obtain ⟨t, ht⟩ := exec_next i s
  have hcfg : t.cfg = s.cfg := (exec_fields ht).1
  refine ⟨t, ht, ?_, fun hwf => cyclesOf_bounds (cyclesOk_of_wellFormed hwf) _⟩
  by_cases hi : i = .reti
  · subst hi
    cases hst : s.irqStack with
    | nil => simpa [hcfg] using exec_reti_tickDelay_nil hst ht
    | cons l rest => simpa [hcfg] using exec_reti_tickDelay_cons hst ht
  · obtain ⟨u, rfl⟩ := exec_charges hi ht
    have hu : u.cfg = s.cfg := hcfg
    split
    · exact absurd rfl hi
    · simp [hu]

end Sys2Proof.Machine
end

section
/-! PROOFS. Decoding and encoding are inverse (30_encoding.md R121 to R124, R128, R129): both directions are read off the
rows of the opcode table, by the shape of a row. -/

namespace Sys2Proof

/-! ### The operand fields of an opcode byte -/

theorem and_0xFF (v : Byte) : v &&& 0xFF = v := BitVec.and_allOnes

/-- A register number is the low three bits of the opcode byte, under the mask of its row. -/
theorem register_mask : ∀ (p : BitVec 5) (n : BitVec 3), (p ++ n) &&& 0xF8 = p ++ 0#3 := by decide

/-- A pointer number is the low bit of the opcode byte, under the mask of its row. -/
theorem pointer_mask : ∀ (p : BitVec 7) (i : BitVec 1), (p ++ i) &&& 0xFE = p ++ 0#1 := by decide

/-- The page of an 11-bit address is the high three bits of the opcode byte, under the mask of its row. -/
theorem page_mask : ∀ (a : BitVec 3) (p : BitVec 5), (a ++ p) &&& 0x1F = 0#3 ++ p := by decide

/-- The row reads the register number back. -/
theorem register_number (p : BitVec 5) (n : BitVec 3) : BitVec.extractLsb' 0 3 (p ++ n : Byte) = n :=
  BitVec.extractLsb'_append_eq_right

/-- The row reads the pointer number back. -/
theorem pointer_number (p : BitVec 7) (i : BitVec 1) : BitVec.extractLsb' 0 1 (p ++ i : Byte) = i :=
  BitVec.extractLsb'_append_eq_right

/-- The row reads the page back. -/
theorem page_number (a : BitVec 3) (p : BitVec 5) : BitVec.extractLsb' 5 3 (a ++ p : Byte) = a :=
  BitVec.extractLsb'_append_eq_left

/-- An opcode byte that a register row hits is the row's five bits with a register number. -/
theorem eq_register_of_mask {op : Byte} {p : BitVec 5} (h : op &&& 0xF8 = p ++ 0#3) : ∃ n : BitVec 3, op = p ++ n := by
  revert op p; decide +kernel

/-- An opcode byte that a pointer row hits is the row's seven bits with a pointer number. -/
theorem eq_pointer_of_mask {op : Byte} {p : BitVec 7} (h : op &&& 0xFE = p ++ 0#1) : ∃ i : BitVec 1, op = p ++ i := by
  revert op p; decide +kernel

/-- An opcode byte that a page row hits is a page with the row's five bits. -/
theorem eq_page_of_mask {op : Byte} {p : BitVec 5} (h : op &&& 0x1F = 0#3 ++ p) : ∃ a : BitVec 3, op = a ++ p := by
  revert op p; decide +kernel

/-- A 16-bit operand is its high byte and its low byte. -/
theorem append_bytes (w : Addr) : w.extractLsb' 8 8 ++ w.extractLsb' 0 8 = w :=
  (BitVec.extractLsb'_append_extractLsb'_eq_extractLsb' rfl).trans BitVec.extractLsb'_eq_self

theorem high_byte (a b : Byte) : BitVec.extractLsb' 8 8 (a ++ b : Addr) = a := BitVec.extractLsb'_append_eq_left

theorem low_byte (a b : Byte) : BitVec.extractLsb' 0 8 (a ++ b : Addr) = b := BitVec.extractLsb'_append_eq_right

theorem page_high (a : BitVec 3) (b : Byte) : BitVec.extractLsb' 8 3 (a ++ b : BitVec 11) = a :=
  BitVec.extractLsb'_append_eq_left

theorem page_low (a : BitVec 3) (b : Byte) : BitVec.extractLsb' 0 8 (a ++ b : BitVec 11) = b :=
  BitVec.extractLsb'_append_eq_right

/-- An 11-bit operand is its page and its low byte. -/
theorem append_page (a : BitVec 11) : a.extractLsb' 8 3 ++ a.extractLsb' 0 8 = a :=
  (BitVec.extractLsb'_append_extractLsb'_eq_extractLsb' rfl).trans BitVec.extractLsb'_eq_self

/-- A relative offset that fits is the signed value of its byte. -/
theorem toInt_ofInt_of_relFits {rel : Int} (h : relFits rel = true) : (BitVec.ofInt 8 rel).toInt = rel := by
  simp only [relFits, decide_eq_true_eq] at h
  rw [BitVec.toInt_ofInt, Int.bmod_eq_of_le] <;> omega

/-- The signed value of a byte fits. -/
theorem relFits_toInt (b : Byte) : relFits b.toInt = true := by
  simp only [relFits, decide_eq_true_eq]
  have := b.toInt_lt
  have := b.le_toInt
  omega

/-! ### Decoding what an instruction encodes to -/

/-- The constructors of `Instr` stand in the order of the opcode table. An instruction whose encoding begins with an opcode
byte of its row, and whose operands the row's `build` reads back, is decoded from its encoding. -/
theorem decode_encode_of_row {i : Instr} {r : OpRow} {op : Byte} {operands : List Byte}
    (hrow : opTable[i.ctorIdx]? = some r) (henc : encode i = op :: operands) (hop : op &&& r.mask = r.value)
    (hlen : operands.length + 1 = r.len)
    (hbuild : ∀ more, r.build op ((operands ++ more).getD 0 0) ((operands ++ more).getD 1 0) = i) (rest : List Byte) :
    decode (encode i ++ rest) = .ok (i, rest) := by
  have hr : rowOf op = r := rowOf_eq (List.mem_of_getElem? hrow) hop
  have hl : lenOf op = operands.length + 1 := by rw [lenOf, hr, hlen]
  rw [henc, List.cons_append, decode, hl, if_neg (by simp), decodeOp, hr, hbuild]
  simp

/-- Settles O3: the row of an instruction is the one at its constructor's number, and reads each operand back. -/
theorem decodeInvertsEncode : Obligations.DecodeInvertsEncode := by
  unfold Obligations.DecodeInvertsEncode
  intro i rest hwf
  cases i
  case incA | incDptr | decA | mulAB | divAB | daA | clrA | cplA | rlA | rlcA | rrA | rrcA | swapA | movcADptr | movcAPc |
    movxADptr | movxDptrA | clrC | setbC | cplC | ret | reti | jmpADptr | nop | reserved | addADir | addAImm | addcADir |
    addcAImm | subbADir | subbAImm | incDir | decDir | anlADir | anlAImm | anlDirA | anlDirImm | orlADir | orlAImm |
    orlDirA | orlDirImm | xrlADir | xrlAImm | xrlDirA | xrlDirImm | movADir | movAImm | movDirA | movDirDir | movDirImm |
    push | pop | xchADir | clrBit | setbBit | cplBit | anlCBit | anlCNotBit | orlCBit | orlCNotBit | movCBit | movBitC =>
    exact decode_encode_of_row rfl rfl (and_0xFF _) rfl (fun _ => rfl) rest
  case addARn n | addcARn n | subbARn n | incRn n | decRn n | anlARn n | orlARn n | xrlARn n | movARn n | movRnA n |
    xchARn n | movDirRn n d | movRnDir n d | movRnImm n d =>
    refine decode_encode_of_row rfl rfl (register_mask _ n) rfl (fun _ => ?_) rest
    simp [register_number]
  case addAInd i | addcAInd i | subbAInd i | incInd i | decInd i | anlAInd i | orlAInd i | xrlAInd i | movAInd i |
    movIndA i | movxAInd i | movxIndA i | xchAInd i | xchdAInd i | movDirInd i d | movIndDir i d | movIndImm i d =>
    refine decode_encode_of_row rfl rfl (pointer_mask _ i) rfl (fun _ => ?_) rest
    simp [pointer_number]
  case acall a | ajmp a =>
    refine decode_encode_of_row rfl rfl (page_mask _ _) rfl (fun _ => ?_) rest
    simp [page_number, append_page]
  case movDptrImm w | lcall w | ljmp w =>
    refine decode_encode_of_row rfl rfl (and_0xFF _) rfl (fun _ => ?_) rest
    simp [append_bytes]
  case jc rel | jnc rel | jb b rel | jnb b rel | jbc b rel | sjmp rel | jz rel | jnz rel | cjneADir d rel | cjneAImm d rel |
    djnzDir d rel =>
    refine decode_encode_of_row rfl rfl (and_0xFF _) rfl (fun _ => ?_) rest
    simp [toInt_ofInt_of_relFits hwf]
  case cjneRnImm n imm rel | djnzRn n rel =>
    refine decode_encode_of_row rfl rfl (register_mask _ n) rfl (fun _ => ?_) rest
    simp [register_number, toInt_ofInt_of_relFits hwf]
  case cjneIndImm i imm rel =>
    refine decode_encode_of_row rfl rfl (pointer_mask _ i) rfl (fun _ => ?_) rest
    simp [pointer_number, toInt_ofInt_of_relFits hwf]

/-- Settles O1: each word is the encoding of its instruction, with the bytes that follow. -/
theorem decodeSampleWords : Obligations.DecodeSampleWords := by
  unfold Obligations.DecodeSampleWords
  have h := decodeInvertsEncode
  unfold Obligations.DecodeInvertsEncode at h
  exact ⟨h (.addARn 3) [] rfl, h (.addADir 0x30) [0xAA] rfl, h (.anlADir 0x30) [] rfl, h (.movDirDir 0x30 0x31) [] rfl,
    h (.movDptrImm 0x1234) [] rfl, h (.jbc 0x00 2) [] rfl, h (.acall 0x234) [] rfl, rfl,
    rfl, h .reserved [] rfl, rfl, rfl⟩

/-! ### Encoding what bytes decode to -/

/-- An instruction that is well formed and encodes to the bytes `bs`. -/
def EncodesTo (bs : List Byte) (i : Instr) : Prop := i.wellFormed = true ∧ encode i = bs

/-- Of the opcode bytes it hits, the row builds instructions that encode to the bytes they were built from. -/
def OpRow.Sound (r : OpRow) : Prop :=
  ∀ op b1 b2 : Byte, op &&& r.mask = r.value → EncodesTo ([op, b1, b2].take r.len) (r.build op b1 b2)

namespace OpRow.Sound

variable {len : Nat} {build : Byte → Byte → Byte → Instr}

/-- A row of one opcode byte. -/
theorem fixed {v : Byte}
    (h : ∀ b1 b2, EncodesTo ([v, b1, b2].take len) (build v b1 b2) := by exact fun _ _ => ⟨rfl, rfl⟩) :
    Sound ⟨v, 0xFF, len, build⟩ := by
  intro op b1 b2 hop
  obtain rfl : op = v := (and_0xFF op).symm.trans hop
  exact h b1 b2

/-- A row with a register number, which the instruction carries. -/
theorem register (p : BitVec 5) (make : BitVec 3 → Byte → Byte → Instr) {v : Byte} (hv : v = p ++ 0#3 := by rfl)
    (h : ∀ n b1 b2, EncodesTo ([p ++ n, b1, b2].take len) (make n b1 b2) := by exact fun _ _ _ => ⟨rfl, rfl⟩) :
    Sound ⟨v, 0xF8, len, fun op => make (op.extractLsb' 0 3)⟩ := by
  intro op b1 b2 hop
  obtain ⟨n, rfl⟩ := eq_register_of_mask (hop.trans hv)
  simpa only [register_number] using h n b1 b2

/-- A row with a pointer number, which the instruction carries. -/
theorem pointer (p : BitVec 7) (make : BitVec 1 → Byte → Byte → Instr) {v : Byte} (hv : v = p ++ 0#1 := by rfl)
    (h : ∀ i b1 b2, EncodesTo ([p ++ i, b1, b2].take len) (make i b1 b2) := by exact fun _ _ _ => ⟨rfl, rfl⟩) :
    Sound ⟨v, 0xFE, len, fun op => make (op.extractLsb' 0 1)⟩ := by
  intro op b1 b2 hop
  obtain ⟨n, rfl⟩ := eq_pointer_of_mask (hop.trans hv)
  simpa only [pointer_number] using h n b1 b2

/-- A row with a page, which the instruction carries. -/
theorem page (p : BitVec 5) (make : BitVec 3 → Byte → Byte → Instr) {v : Byte} (hv : v = 0#3 ++ p := by rfl)
    (h : ∀ a b1 b2, EncodesTo ([a ++ p, b1, b2].take len) (make a b1 b2)) :
    Sound ⟨v, 0x1F, len, fun op => make (op.extractLsb' 5 3)⟩ := by
  intro op b1 b2 hop
  obtain ⟨a, rfl⟩ := eq_page_of_mask (hop.trans hv)
  simpa only [page_number] using h a b1 b2

end OpRow.Sound

open OpRow.Sound

/-- Arithmetic (40_arithmetic.md). -/
theorem arithmeticRows_sound : ∀ r ∈ arithmeticRows, r.Sound := by
  simp only [arithmeticRows, List.forall_mem_cons]
  exact ⟨register 0b00101 (fun n _ _ => .addARn n), fixed, pointer 0b0010011 (fun i _ _ => .addAInd i), fixed,
    register 0b00111 (fun n _ _ => .addcARn n), fixed, pointer 0b0011011 (fun i _ _ => .addcAInd i), fixed,
    register 0b10011 (fun n _ _ => .subbARn n), fixed, pointer 0b1001011 (fun i _ _ => .subbAInd i), fixed, fixed,
    register 0b00001 (fun n _ _ => .incRn n), fixed, pointer 0b0000011 (fun i _ _ => .incInd i), fixed, fixed,
    register 0b00011 (fun n _ _ => .decRn n), fixed, pointer 0b0001011 (fun i _ _ => .decInd i), fixed, fixed,
    fixed, List.forall_mem_nil _⟩

/-- Logical (41_logical.md). -/
theorem logicalRows_sound : ∀ r ∈ logicalRows, r.Sound := by
  simp only [logicalRows, List.forall_mem_cons]
  exact ⟨register 0b01011 (fun n _ _ => .anlARn n), fixed, pointer 0b0101011 (fun i _ _ => .anlAInd i), fixed,
    fixed, fixed, register 0b01001 (fun n _ _ => .orlARn n), fixed, pointer 0b0100011 (fun i _ _ => .orlAInd i),
    fixed, fixed, fixed, register 0b01101 (fun n _ _ => .xrlARn n), fixed,
    pointer 0b0110011 (fun i _ _ => .xrlAInd i), fixed, fixed, fixed, fixed, fixed, fixed, fixed, fixed, fixed,
    fixed, List.forall_mem_nil _⟩

/-- Data transfer (42_data_transfer.md). -/
theorem transferRows_sound : ∀ r ∈ transferRows, r.Sound := by
  simp only [transferRows, List.forall_mem_cons]
  exact ⟨register 0b11101 (fun n _ _ => .movARn n), fixed, pointer 0b1110011 (fun i _ _ => .movAInd i), fixed,
    register 0b11111 (fun n _ _ => .movRnA n), register 0b10101 (fun n b1 _ => .movRnDir n b1),
    register 0b01111 (fun n b1 _ => .movRnImm n b1), fixed, register 0b10001 (fun n b1 _ => .movDirRn n b1), fixed,
    pointer 0b1000011 (fun i b1 _ => .movDirInd i b1), fixed, pointer 0b1111011 (fun i _ _ => .movIndA i),
    pointer 0b1010011 (fun i b1 _ => .movIndDir i b1), pointer 0b0111011 (fun i b1 _ => .movIndImm i b1),
    fixed fun _ _ => ⟨rfl, by simp [encode, high_byte, low_byte]⟩, fixed, fixed,
    pointer 0b1110001 (fun i _ _ => .movxAInd i), fixed, pointer 0b1111001 (fun i _ _ => .movxIndA i), fixed,
    fixed, fixed, register 0b11001 (fun n _ _ => .xchARn n), fixed, pointer 0b1100011 (fun i _ _ => .xchAInd i),
    pointer 0b1101011 (fun i _ _ => .xchdAInd i), List.forall_mem_nil _⟩

/-- Boolean (43_boolean.md). -/
theorem booleanRows_sound : ∀ r ∈ booleanRows, r.Sound := by
  simp only [booleanRows, List.forall_mem_cons]
  exact ⟨fixed, fixed, fixed, fixed, fixed, fixed, fixed, fixed, fixed, fixed, fixed, fixed,
    fixed fun _ _ => ⟨relFits_toInt _, by simp [encode]⟩, fixed fun _ _ => ⟨relFits_toInt _, by simp [encode]⟩,
    fixed fun _ _ => ⟨relFits_toInt _, by simp [encode]⟩, fixed fun _ _ => ⟨relFits_toInt _, by simp [encode]⟩,
    fixed fun _ _ => ⟨relFits_toInt _, by simp [encode]⟩, List.forall_mem_nil _⟩

/-- Program branching (44_branching.md). -/
theorem branchRows_sound : ∀ r ∈ branchRows, r.Sound := by
  simp only [branchRows, List.forall_mem_cons]
  exact ⟨
    page 0b10001 (fun a b1 _ => .acall (a ++ b1)) rfl fun _ _ _ => ⟨rfl, by simp [encode, page_high, page_low]⟩,
    fixed fun _ _ => ⟨rfl, by simp [encode, high_byte, low_byte]⟩, fixed, fixed,
    page 0b00001 (fun a b1 _ => .ajmp (a ++ b1)) rfl fun _ _ _ => ⟨rfl, by simp [encode, page_high, page_low]⟩,
    fixed fun _ _ => ⟨rfl, by simp [encode, high_byte, low_byte]⟩,
    fixed fun _ _ => ⟨relFits_toInt _, by simp [encode]⟩, fixed,
    fixed fun _ _ => ⟨relFits_toInt _, by simp [encode]⟩, fixed fun _ _ => ⟨relFits_toInt _, by simp [encode]⟩,
    fixed fun _ _ => ⟨relFits_toInt _, by simp [encode]⟩, fixed fun _ _ => ⟨relFits_toInt _, by simp [encode]⟩,
    register 0b10111 (fun n b1 b2 => .cjneRnImm n b1 b2.toInt) rfl fun _ _ _ => ⟨relFits_toInt _, by simp [encode]⟩,
    pointer 0b1011011 (fun i b1 b2 => .cjneIndImm i b1 b2.toInt) rfl fun _ _ _ => ⟨relFits_toInt _, by simp [encode]⟩,
    register 0b11011 (fun n b1 _ => .djnzRn n b1.toInt) rfl fun _ _ _ => ⟨relFits_toInt _, by simp [encode]⟩,
    fixed fun _ _ => ⟨relFits_toInt _, by simp [encode]⟩, fixed, fixed, List.forall_mem_nil _⟩

/-- Every row of the table is sound. -/
theorem opTable_sound : ∀ r ∈ opTable, r.Sound := by
  simp only [opTable, List.forall_mem_append]
  exact ⟨arithmeticRows_sound, logicalRows_sound, transferRows_sound, booleanRows_sound, branchRows_sound⟩

/-- Every opcode byte is hit by the row that decoding takes. -/
theorem rowOf_hits (op : Byte) : rowOf op ∈ opTable ∧ op &&& (rowOf op).mask = (rowOf op).value := by
  obtain ⟨r, hr⟩ := List.length_eq_one_iff.1 (opTable_one_row_hits op)
  obtain ⟨hmem, hhit⟩ := List.mem_filter.1 (hr ▸ List.mem_singleton_self r)
  have hop := (OpRow.hits_iff op r).1 hhit
  rw [rowOf_eq hmem hop]
  exact ⟨hmem, hop⟩

/-- An instruction has one, two or three bytes (R120). -/
theorem lenOf_bounds : ∀ op : Byte, 1 ≤ lenOf op ∧ lenOf op ≤ 3 := by decide +kernel

/-- Settles O4: the row that hits the opcode byte is sound. -/
theorem encodeInvertsDecode : Obligations.EncodeInvertsDecode := by
  unfold Obligations.EncodeInvertsDecode
  intro op b1 b2
  obtain ⟨hmem, hop⟩ := rowOf_hits op
  obtain ⟨hwf, henc⟩ := opTable_sound _ hmem op b1 b2 hop
  exact ⟨hwf, henc, lenOf_bounds op⟩

end Sys2Proof
end

section
/-! PROOFS. The invariants that every step keeps: the memories (20_memory.md R80), pc and previous_pc (10_state.md R35, R36),
and the reset state (10_state.md R70). -/

namespace Sys2Proof.Machine

/-! ### Legal parameters -/

/-- What legal parameters say, part by part (R8, R531). -/
theorem wellFormed_parts {c : Config} (h : c.wellFormed = true) :
    c.latencyOk = true ∧ c.irqSfrsOk = true ∧ c.irqTableOk = true ∧ c.addressesOk = true := by
  simp only [Config.wellFormed, Bool.and_eq_true] at h
  obtain ⟨⟨⟨⟨⟨⟨_, hlatency⟩, hsfrs⟩, htable⟩, haddresses⟩, _⟩, _⟩ := h
  exact ⟨hlatency, hsfrs, htable, haddresses⟩

theorem irqLatency_pos {c : Config} (h : c.wellFormed = true) : 1 ≤ c.irqLatency := by
  simpa [Config.latencyOk] using (wellFormed_parts h).1

/-- The implicitly written registers are SFRs. -/
theorem isSfrAddr_implicit {c : Config} (h : c.wellFormed = true) {d : Byte} (hd : d ∈ c.implicitSfrs) :
    isSfrAddr d = true := by
  obtain ⟨_, _, _, haddr⟩ := wellFormed_parts h
  simp only [Config.addressesOk, Bool.and_eq_true] at haddr
  obtain ⟨⟨⟨⟨_, hdpl1⟩, hdph1⟩, hdps⟩, _⟩ := haddr
  simp only [Config.implicitSfrs, List.mem_cons, List.not_mem_nil, or_false] at hd
  rcases hd with rfl | rfl | rfl | rfl | rfl | rfl | rfl | rfl | rfl
  exacts [rfl, rfl, rfl, rfl, rfl, rfl, hdpl1, hdph1, hdps]

/-- The addresses of the implicit registers, 0xA8 and the ports are distinct (log 24). -/
theorem listedSfrs_nodup {c : Config} (h : c.wellFormed = true) :
    (0xA8 :: 0x80 :: 0x90 :: 0xA0 :: 0xB0 :: c.implicitSfrs : List Byte).Nodup := by
  obtain ⟨_, _, _, haddr⟩ := wellFormed_parts h
  simp only [Config.addressesOk, Bool.and_eq_true, decide_eq_true_eq] at haddr
  exact haddr.2

/-- What legal parameters say of a source of IRQ_TABLE (R531). -/
theorem irqSource_ok {c : Config} (h : c.wellFormed = true) {x : IrqSource} (hx : x ∈ c.irqTable) :
    (∀ d ∈ x.sfrs, d ∉ c.implicitSfrs ∧ d ∈ c.irqSfrs) ∧ ∀ d b, x.autoClear = some (d, b) → isSfrAddr d = true := by
  obtain ⟨_, hsfrs, htable, _⟩ := wellFormed_parts h
  simp only [Config.irqSfrsOk, Bool.and_eq_true, List.all_eq_true, List.contains_iff_mem] at hsfrs
  simp only [Config.irqTableOk, Bool.and_eq_true, List.all_eq_true] at htable
  obtain ⟨⟨_, himplicit⟩, hclear⟩ := htable x hx
  refine ⟨fun d hd => ⟨by simpa using himplicit d hd, hsfrs.2 x hx d hd⟩, fun d b hdb => ?_⟩
  simpa [hdb] using hclear

/-! ### The memories -/

/-- The parameters `c`, and the memories in their form. -/
def MemoriesSound (c : Config) (s : State) : Prop := s.cfg = c ∧ memoriesOk s = true

theorem memoriesSound_closed {c : Config} (hc : c.wellFormed = true) : CycleClosed (MemoriesSound c) where
  implicit := fun d v s hd ⟨hs, hm⟩ => ⟨hs, memoriesOk_setSfr hm (isSfrAddr_implicit hc (hs ▸ hd)) v⟩
  iram := fun a v s ⟨hs, hm⟩ => ⟨hs, memoriesOk_setIram hm a v⟩
  read := fun d s ⟨hs, hm⟩ => ⟨by rw [dirRead_cfg, hs], memoriesOk_dirRead hm d⟩
  direct := fun d v s ⟨hs, hm⟩ => ⟨by rw [dirWrite_cfg, hs], memoriesOk_dirWrite hm d v⟩
  xdata := fun a v s ⟨hs, hm⟩ => ⟨by rw [xdataWrite_eq, hs], memoriesOk_xdataWrite hm a v⟩
  goto := fun _ _ h => h
  cost := fun _ _ h => h
  report := fun _ _ _ h => h
  random := fun _ h => h
  effect := fun k p e s _ ⟨hs, hm⟩ => ⟨hs, memoriesOk_applyEffect hm k p e⟩
  complete := fun _ _ h => h
  attention := fun _ _ h => h
  bus := fun _ _ h => h
  fetch := fun _ h => h
  clear := fun d b x s hx hd ⟨hs, hm⟩ => ⟨hs, memoriesOk_setSfr hm ((irqSource_ok hc (hs ▸ hx)).2 d b hd) _⟩
  level := fun _ _ _ h => h
  flag := fun _ _ h => h
  stop := fun _ h => h
  clock := fun _ h => h
  breakpoint := fun _ h => h
  rendezvous := fun _ _ _ _ h => h

/-- Settles O53: the shared operations and a peripheral's effect keep the form of each memory, so a step does. -/
theorem stepKeepsMemoriesCanonical : Obligations.StepKeepsMemoriesCanonical := by
  unfold Obligations.StepKeepsMemoriesCanonical
  intro s t hwf hm hstep
  exact ((memoriesSound_closed hwf).step ⟨rfl, hm⟩ hstep).2

/-! ### pc and previous_pc -/

theorem pcOk_iff (s : State) :
    pcOk s = true ↔ s.pc.toNat < s.cfg.codeSize ∧ s.previousPc.toNat < s.cfg.codeSize := by
  simp [pcOk]

/-- Every write to pc stores an address of code memory. -/
theorem pcOk_setPc {s : State} (h : pcOk s = true) (a : Nat) : pcOk (setPc a s) = true := by
  rw [pcOk_iff] at *
  exact ⟨setPc_toNat a s ▸ Nat.mod_lt _ (codeSize_pos _), h.2⟩

theorem pcOk_closed : CycleClosed fun s => pcOk s = true where
  implicit := fun _ _ _ _ h => h
  iram := fun _ _ _ h => h
  read := dirRead_keeps fun _ _ _ _ _ h => h
  direct := dirWrite_keeps (fun _ _ _ h => h) (fun _ _ _ h => h) (fun _ _ _ _ _ h => h) (fun _ _ h => h)
  xdata := fun a v s h => by rw [xdataWrite_eq]; exact h
  goto := fun a _ h => pcOk_setPc h a
  cost := fun _ _ h => h
  report := fun _ _ _ h => h
  random := fun _ h => h
  effect := fun _ _ _ _ _ h => h
  complete := fun _ _ h => h
  attention := fun _ _ h => h
  bus := fun _ _ h => h
  fetch := fun s h => by
    rw [pcOk_iff] at *
    exact ⟨h.1, h.1⟩
  clear := fun _ _ _ _ _ _ h => h
  level := fun _ _ _ h => h
  flag := fun _ _ h => h
  stop := fun _ h => h
  clock := fun _ h => h
  breakpoint := fun _ h => h
  rendezvous := fun _ _ _ _ h => h

/-- Settles O54: the two addresses change by `setPc` and by the fetch, which copies pc. -/
theorem stepKeepsPcInCode : Obligations.StepKeepsPcInCode := by
  unfold Obligations.StepKeepsPcInCode
  intro s t hpc hstep
  exact pcOk_closed.step hpc hstep

/-- Settles O52: by evaluating the invariants on the reset state. -/
theorem resetMeetsTheInvariants : Obligations.ResetMeetsTheInvariants := by
  unfold Obligations.ResetMeetsTheInvariants
  decide +kernel

end Sys2Proof.Machine
end

section
/-! PROOFS. Every step keeps the interrupt stack sound (10_state.md R46, R48, 60_exceptions.md R527). -/

namespace Sys2Proof.Machine

/-- A list of interrupt levels as `irqStackOk` and `delaysOk` want it. -/
def LevelsSound (ls : List IrqLevel) : Prop :=
  ls.length ≤ 4 ∧ ((ls.map (·.priority)).Pairwise fun inner outer => outer < inner) ∧
    (∀ l ∈ ls, l.r.length = 8) ∧ ∀ l ∈ ls, 0 ≤ l.savedDelay

theorem irqStackOk_delaysOk_iff (s : State) :
    irqStackOk s = true ∧ delaysOk s = true ↔ LevelsSound s.irqStack ∧ 0 ≤ s.tickDelay := by
  simp only [irqStackOk, delaysOk, LevelsSound, Bool.and_eq_true, decide_eq_true_eq, List.all_eq_true, beq_iff_eq]
  tauto

/-- Popping a level keeps the rest sound. -/
theorem LevelsSound.tail {ls : List IrqLevel} (h : LevelsSound ls) : LevelsSound ls.tail := by
  obtain ⟨hlen, hprio, hbank, hdelay⟩ := h
  exact ⟨by rw [List.length_tail]; omega, List.map_tail ▸ hprio.tail, fun l hl => hbank l (List.mem_of_mem_tail hl),
    fun l hl => hdelay l (List.mem_of_mem_tail hl)⟩

/-- A level that may preempt is sound on top of the others. -/
theorem LevelsSound.cons {l : IrqLevel} {ls : List IrqLevel} (h : LevelsSound ls) (hlen : ls.length < 4)
    (hprio : ∀ m ∈ ls.head?, m.priority < l.priority) (hbank : l.r.length = 8) (hdelay : 0 ≤ l.savedDelay) :
    LevelsSound (l :: ls) := by
  obtain ⟨_, hrising, hbanks, hdelays⟩ := h
  refine ⟨by rw [List.length_cons]; omega, ?_, List.forall_mem_cons.2 ⟨hbank, hbanks⟩,
    List.forall_mem_cons.2 ⟨hdelay, hdelays⟩⟩
  rw [List.map_cons, List.pairwise_cons]
  refine ⟨?_, hrising⟩
  cases ls with
  | nil => simp
  | cons m ls =>
    have hm : m.priority < l.priority := hprio m rfl
    rw [List.map_cons, List.pairwise_cons] at hrising
    rw [List.map_cons, List.forall_mem_cons]
    exact ⟨hm, fun q hq => BitVec.lt_trans (hrising.1 q hq) hm⟩

/-- A dispatched source meets the conditions of R521 and R527. -/
theorem levelsSound_dispatch {s : State} {b : IrqSource × BitVec 2} (hb : irqChoice s = some b)
    (h : LevelsSound s.irqStack) (hdelay : 0 ≤ s.tickDelay) : LevelsSound (dispatch b.1 b.2 s).irqStack := by
  obtain ⟨_, _, hpre, hlen⟩ := (irqChoice_eq_some_iff s b).1 hb
  rw [(dispatch_fields b.1 b.2 s).2.2.1]
  exact h.cons hlen ((mayPreempt_iff b.2 s).1 hpre) rfl hdelay

/-- The interrupt check keeps the stack sound and the remainder not negative. -/
theorem levelsSound_interruptCheck {s : State} (h : LevelsSound s.irqStack) (hdelay : 0 ≤ s.tickDelay) :
    LevelsSound (interruptCheck s).irqStack ∧ 0 ≤ (interruptCheck s).tickDelay := by
  unfold interruptCheck
  split
  · cases hc : irqChoice s with
    | none => rw [arbitrate_of_none hc]; exact ⟨h, hdelay⟩
    | some b =>
      rw [arbitrate_of_some hc]
      refine ⟨levelsSound_dispatch hc h hdelay, ?_⟩
      rw [(dispatch_fields b.1 b.2 s).2.1]
      omega
  · exact ⟨h, hdelay⟩

/-- RETI pops the innermost level, if there is one (R403). -/
theorem exec_reti_irqStack {s t : State} (h : exec .reti s = .next t) : t.irqStack = s.irqStack.tail := by
  have hclosed : ∀ ls : List IrqLevel, Closed fun u => u.irqStack = ls := fun ls =>
    closed_of_field (·.irqStack) ls (fun _ _ _ => rfl) (fun _ _ _ => rfl) (fun _ _ _ _ => rfl) (fun _ _ => rfl)
      (fun a v s => by rw [xdataWrite_eq]) (fun _ _ => rfl) (fun _ _ => rfl) (fun _ _ _ => rfl) (fun _ => rfl)
  simp only [exec, execReti] at h
  split at h <;> cases h
  · next l rest hst =>
    rw [hst, List.tail_cons]
    refine (hclosed rest).popPc _ ?_
    split
    · exact (hclosed rest).checkSnapshot _ _ rfl
    · rfl
  · next hst =>
    rw [hst]
    exact (hclosed []).popPc s hst

/-- An instruction keeps the levels, or pops one, and leaves a positive remainder. -/
theorem levelsSound_exec {i : Instr} {s t : State} (hwf : s.cfg.wellFormed = true) (h : LevelsSound s.irqStack)
    (hx : exec i s = .next t) : LevelsSound t.irqStack ∧ 1 ≤ t.tickDelay := by
  constructor
  · by_cases hi : i = .reti
    · subst hi
      exact exec_reti_irqStack hx ▸ h.tail
    · exact exec_irqStack hi hx ▸ h
  · have hcost := instructionCost
    unfold Obligations.InstructionCost at hcost
    obtain ⟨t', hx', htick, hbounds⟩ := hcost i s
    obtain rfl : t = t' := Host.Outcome.next.inj (hx.symm.trans hx')
    have hpos := (hbounds hwf).1
    split at htick
    · next l rest hst =>
      have hsaved := h.2.2.2 l (hst ▸ List.mem_cons_self)
      omega
    · omega

/-- Settles O55: a dispatch adds a level that may preempt, RETI pops one, and what is left in tick_delay before the
count-down is a positive remainder. -/
theorem stepKeepsInterruptStack : Obligations.StepKeepsInterruptStack := by
  unfold Obligations.StepKeepsInterruptStack
  intro s t hwf hstack hdelay hstep
  obtain ⟨hlevels, htick⟩ := (irqStackOk_delaysOk_iff s).1 ⟨hstack, hdelay⟩
  rw [irqStackOk_delaysOk_iff]
  rcases (step_next_cases hstep).2 with hwait | ⟨u, v, hrun, _, rfl, hcycle⟩
  · rw [syncCheck_frame (.inr hwait)]
    exact ⟨hlevels, htick⟩
  · have hu := syncCheck_frame (.inl hrun)
    have hv : LevelsSound (interruptCheck u).irqStack ∧ 0 ≤ (interruptCheck u).tickDelay :=
      levelsSound_interruptCheck (by rw [hu]; exact hlevels) (by rw [hu]; exact htick)
    rcases hcycle with ⟨hpos, rfl⟩ | ⟨_, _, _, rfl⟩ | ⟨_, w, x, hw, hx, rfl⟩
    · obtain ⟨_, _, hd, hs, _⟩ := finishCycle_fields u.faults.length (interruptCheck u)
      rw [hd, hs]
      exact ⟨hv.1, by omega⟩
    · exact hv
    · have hwv : w.irqStack = (interruptCheck u).irqStack ∧ w.cfg = s.cfg := by
        have hcfg : (interruptCheck u).cfg = s.cfg := by rw [(interruptCheck_fields u).1, hu]
        rcases hw with ⟨rfl, _⟩ | ⟨rfl, _⟩ <;> exact ⟨rfl, hcfg⟩
      obtain ⟨hls, hone⟩ := levelsSound_exec (s := advancePc w) (hwv.2 ▸ hwf) (hwv.1 ▸ hv.1) hx
      obtain ⟨_, _, hd, hs, _⟩ := finishCycle_fields u.faults.length (epilogue x)
      rw [hd, hs, epilogue_eq]
      exact ⟨hls, by show 0 ≤ x.tickDelay - 1; omega⟩

end Sys2Proof.Machine
end

section
/-! PROOFS. irq_recheck is set whenever arbitration would dispatch (60_exceptions.md R524, R525): every operation leaves what
arbitration reads, or sets the flag. -/

namespace Sys2Proof.Machine

/-! ### What arbitration reads -/

/-- The SFRs that arbitration reads: that of EA, and those of the table's predicates. -/
def arbitrationReads (c : Config) (d : Byte) : Prop := d = 0xA8 ∨ ∃ x ∈ c.irqTable, d ∈ x.sfrs

/-- Arbitration does not read an implicitly written SFR (R531). -/
theorem not_arbitrationReads_implicit {c : Config} (h : c.wellFormed = true) {d : Byte} (hd : d ∈ c.implicitSfrs) :
    ¬ arbitrationReads c d := by
  rintro (rfl | ⟨x, hx, hdx⟩)
  · have hnodup := (List.nodup_cons.1 (listedSfrs_nodup h)).1
    simp only [List.mem_cons, not_or] at hnodup
    exact hnodup.2.2.2.2 hd
  · exact ((irqSource_ok h hx).1 d hdx).1 hd

/-- Every SFR that arbitration reads is in IRQ_SFRS (R8, R531). -/
theorem mem_irqSfrs_of_arbitrationReads {c : Config} (h : c.wellFormed = true) {d : Byte}
    (hd : arbitrationReads c d) : d ∈ c.irqSfrs := by
  rcases hd with rfl | ⟨x, hx, hdx⟩
  · have hsfrs := (wellFormed_parts h).2.1
    simp only [Config.irqSfrsOk, Bool.and_eq_true, List.contains_iff_mem] at hsfrs
    exact hsfrs.1.1
  · exact ((irqSource_ok h hx).1 d hdx).2

/-- Arbitration chooses alike in two states that agree on what it reads. -/
theorem irqChoice_of_agree {s t : State} (hc : t.cfg = s.cfg) (hst : t.irqStack = s.irqStack)
    (hsfr : ∀ d, arbitrationReads s.cfg d → sfrGet d t = sfrGet d s)
    (hper : ∀ x ∈ s.cfg.irqTable, ∀ k ∈ x.devices,
      (t.peripherals[k]?).map (·.bytes) = (s.peripherals[k]?).map (·.bytes)) : irqChoice t = irqChoice s :=
  irqChoice_congr hc hst (hsfr _ (.inl rfl)) (fun x hx d hd => hsfr d (.inr ⟨x, hx, hd⟩)) hper

/-! ### The invariant -/

/-- The parameters `c`, and irq_recheck set whenever arbitration would dispatch. -/
def RecheckSound (c : Config) (s : State) : Prop := s.cfg = c ∧ (s.irqRecheck = true ∨ irqChoice s = none)

theorem recheckOk_iff (s : State) : recheckOk s = true ↔ s.irqRecheck = true ∨ irqChoice s = none := by
  simp [recheckOk]

/-- Two states that agree on what arbitration reads and on the flag. -/
theorem RecheckSound.of_agree {c : Config} {s t : State} (h : RecheckSound c s) (hc : t.cfg = s.cfg)
    (hflag : t.irqRecheck = s.irqRecheck) (hst : t.irqStack = s.irqStack)
    (hsfr : ∀ d, arbitrationReads c d → sfrGet d t = sfrGet d s)
    (hper : ∀ k : Nat, (t.peripherals[k]?).map (·.bytes) = (s.peripherals[k]?).map (·.bytes)) : RecheckSound c t := by
  obtain ⟨rfl, h⟩ := h
  refine ⟨hc, ?_⟩
  rw [hflag, irqChoice_of_agree hc hst hsfr fun _ _ k _ => hper k]
  exact h

/-- Two states that agree on all that arbitration could read. -/
theorem RecheckSound.congr {c : Config} {s t : State} (h : RecheckSound c s) (hc : t.cfg = s.cfg)
    (hflag : t.irqRecheck = s.irqRecheck) (hst : t.irqStack = s.irqStack) (hsfr : t.sfr = s.sfr)
    (hper : t.peripherals = s.peripherals) : RecheckSound c t :=
  h.of_agree hc hflag hst (fun d _ => by rw [sfrGet, hsfr]; rfl) fun k => by rw [hper]

/-- A store to an SFR that arbitration does not read. -/
theorem RecheckSound.setSfr {c : Config} {s : State} (h : RecheckSound c s) {d : Byte} (hd : ¬ arbitrationReads c d)
    (v : Byte) : RecheckSound c (setSfr d v s) := by
  refine h.of_agree rfl rfl rfl (fun e he => ?_) fun _ => rfl
  have hne : e ≠ d := fun hed => hd (hed ▸ he)
  rw [sfrGet_setSfr, if_neg hne]

/-- An effect that does not touch what arbitration reads names no SFR it reads, and leaves the bytes of its peripheral where
arbitration reads them. -/
theorem untouched_of_touchesIrq {k : Nat} {p : Peripheral} {f : Settled} {c : Config}
    (h : touchesIrq k p f c = false) :
    (∀ w ∈ f.sfrWrites, ¬ arbitrationReads c w.1) ∧
      ∀ x ∈ c.irqTable, k ∈ x.devices → f.peripheral.bytes = p.bytes := by
  simp only [touchesIrq, Bool.or_eq_false_iff, List.any_eq_false, Bool.or_eq_true, beq_iff_eq, List.any_eq_true,
    List.contains_iff_mem, Bool.and_eq_false_imp, bne_iff_ne] at h
  obtain ⟨hwrites, hbytes⟩ := h
  refine ⟨fun w hw hread => hwrites w hw hread, fun x hx hk => ?_⟩
  by_contra hne
  exact hbytes hne x hx hk

/-- A peripheral's effect: the duty of R564. -/
theorem RecheckSound.applyEffect {c : Config} {s : State} (h : RecheckSound c s) {k : Nat} {p : Peripheral}
    (hp : s.peripherals[k]? = some p) (e : DeviceEffect) : RecheckSound c (applyEffect k p e s) := by
  obtain ⟨rfl, h⟩ := h
  refine ⟨rfl, ?_⟩
  cases htouch : touchesIrq k p (settle s.ticks p e) s.cfg with
  | true =>
    left
    show (s.irqRecheck || (_ || touchesIrq k p (settle s.ticks p e) s.cfg)) = true
    rw [htouch, Bool.or_true, Bool.or_true]
  | false =>
    obtain ⟨hwrites, hbytes⟩ := untouched_of_touchesIrq htouch
    rcases h with h | h
    · left
      show (s.irqRecheck || _) = true
      rw [h, Bool.true_or]
    · right
      rw [← h]
      refine irqChoice_of_agree rfl rfl (fun d hd => ?_) fun x hx j hj => ?_
      · exact read_applySfrWrites _ _ _ fun w hw hwd => hwrites w hw (hwd ▸ hd)
      · by_cases hjk : j = k
        · subst hjk
          rw [applyEffect_get hp, hp, Option.map_some, Option.map_some, hbytes x hx hj]
        · rw [applyEffect_other hjk]

/-- Completing operations leaves the bytes of every peripheral. -/
theorem RecheckSound.completeOperations {c : Config} {s : State} (h : RecheckSound c s) (k : Nat) :
    RecheckSound c (completeOperations k s) := by
  refine h.of_agree rfl rfl rfl (fun _ _ => rfl) fun j => ?_
  rw [completeOperations_peripherals, List.getElem?_modify]
  cases s.peripherals[j]? with
  | none => rfl
  | some p => by_cases hj : k = j <;> simp [hj, completed]

/-- A direct write sets the flag where it stores an SFR that arbitration reads (R524). -/
theorem RecheckSound.dirWrite {c : Config} (hwf : c.wellFormed = true) {s : State} (h : RecheckSound c s) (d v : Byte) :
    RecheckSound c (dirWrite d v s) := by
  by_cases hd : d ∈ c.irqSfrs
  · refine ⟨by rw [dirWrite_cfg, h.1], ?_⟩
    unfold Machine.dirWrite
    split
    · exact (h.congr (t := setIram d v s) rfl rfl rfl rfl rfl).2
    · left
      have hcfg : (onSfrWrite d (Machine.setSfr d v s)).cfg = c := by
        unfold onSfrWrite
        split <;> exact h.1
      rw [noteIrqSfr_eq, hcfg]
      simp [hd]
  · have hstore := h.setSfr (fun hr => hd (mem_irqSfrs_of_arbitrationReads hwf hr)) v
    unfold Machine.dirWrite
    split
    · exact h.congr rfl rfl rfl rfl rfl
    · have hwrite : RecheckSound c (onSfrWrite d (Machine.setSfr d v s)) := by
        unfold onSfrWrite
        split
        · exact hstore
        · next k p ho => exact hstore.applyEffect (ownerOf_some ho).1 _
      unfold noteIrqSfr
      rw [if_neg (by rw [hwrite.1]; simpa using hd)]
      exact hwrite

/-- Every shared operation keeps the flag sound. -/
theorem recheckSound_closed {c : Config} (hwf : c.wellFormed = true) : Closed (RecheckSound c) where
  implicit := fun d v s hd h => h.setSfr (not_arbitrationReads_implicit hwf (h.1 ▸ hd)) v
  iram := fun _ _ _ h => h.congr rfl rfl rfl rfl rfl
  read := dirRead_keeps fun _ _ e _ hp h => h.applyEffect hp e
  direct := fun d v _ h => h.dirWrite hwf d v
  xdata := fun _ _ _ h => by rw [xdataWrite_eq]; exact h.congr rfl rfl rfl rfl rfl
  goto := fun _ _ h => h.congr rfl rfl rfl rfl rfl
  cost := fun _ _ h => h.congr rfl rfl rfl rfl rfl
  report := fun _ _ _ h => h.congr rfl rfl rfl rfl rfl
  random := fun _ h => h.congr rfl rfl rfl rfl rfl

theorem recheckSound_tickClosed (c : Config) : TickClosed (RecheckSound c) where
  effect := fun _ _ e _ hp h => h.applyEffect hp e
  complete := fun k _ h => h.completeOperations k
  attention := fun _ _ h => h.congr rfl rfl rfl rfl rfl
  bus := fun _ _ h => h.congr rfl rfl rfl rfl rfl
  report := fun _ _ _ h => h.congr rfl rfl rfl rfl rfl
  random := fun _ h => h.congr rfl rfl rfl rfl rfl

/-! ### The parts of a cycle -/

/-- The end of a cycle: the hardware tick is the one part that arbitration could see. -/
theorem RecheckSound.finishCycle {c : Config} {s : State} (h : RecheckSound c s) (n : Nat) :
    RecheckSound c (finishCycle n s) := by
  have hcount : RecheckSound c { s with tickDelay := s.tickDelay - 1 } := h.congr rfl rfl rfl rfl rfl
  have htick := (recheckSound_tickClosed c).hardwareTick _ hcount
  unfold Machine.finishCycle faultPolicy
  dsimp only
  split <;> exact htick.congr rfl rfl rfl rfl rfl

/-- A dispatch leaves irq_recheck set, and the check that dispatches nothing clears it where arbitration chooses nothing. -/
theorem RecheckSound.interruptCheck {c : Config} {s : State} (h : RecheckSound c s) :
    RecheckSound c (interruptCheck s) := by
  refine ⟨by rw [(interruptCheck_fields s).1, h.1], ?_⟩
  unfold Machine.interruptCheck
  split
  · next hflag =>
    cases hchoice : irqChoice s with
    | some b =>
      rw [arbitrate_of_some hchoice, (dispatch_fields b.1 b.2 s).2.2.2.1]
      exact .inl hflag
    | none =>
      rw [arbitrate_of_none hchoice]
      exact .inr (hchoice ▸ irqChoice_of_agree rfl rfl (fun _ _ => rfl) fun _ _ _ _ => rfl)
  · exact h.2

/-- RETI sets irq_recheck (R524); every other instruction is made of shared operations. -/
theorem RecheckSound.exec {c : Config} (hwf : c.wellFormed = true) {i : Instr} {s t : State} (h : RecheckSound c s)
    (hx : exec i s = .next t) : RecheckSound c t := by
  by_cases hi : i = .reti
  · subst hi
    refine ⟨(exec_fields hx).1.trans h.1, .inl ?_⟩
    simp only [Machine.exec, execReti] at hx
    split at hx <;> cases hx <;> rfl
  · exact exec_closed (recheckSound_closed hwf) hi h hx

/-- Settles O38: every part of a cycle keeps the flag sound. -/
theorem stepKeepsRecheckSound : Obligations.StepKeepsRecheckSound := by
  unfold Obligations.StepKeepsRecheckSound
  intro s t hwf hs hstep
  suffices h : RecheckSound s.cfg t from (recheckOk_iff t).2 h.2
  have hs : RecheckSound s.cfg s := ⟨rfl, (recheckOk_iff s).1 hs⟩
  rcases (step_next_cases hstep).2 with hwait | ⟨u, v, hrun, _, rfl, hcycle⟩
  · rw [syncCheck_frame (.inr hwait)]
    exact hs.congr rfl rfl rfl rfl rfl
  · have hu : RecheckSound s.cfg u := by
      rw [syncCheck_frame (.inl hrun)]
      exact hs.congr rfl rfl rfl rfl rfl
    have hv := hu.interruptCheck
    rcases hcycle with ⟨_, rfl⟩ | ⟨_, _, _, rfl⟩ | ⟨_, w, x, hw, hx, rfl⟩
    · exact hv.finishCycle _
    · exact hv.congr rfl rfl rfl rfl rfl
    · have hfetch : RecheckSound s.cfg (advancePc w) := by
        rcases hw with ⟨rfl, _⟩ | ⟨rfl, _⟩ <;> exact hv.congr rfl rfl rfl rfl rfl
      exact ((recheckSound_closed hwf).epilogue _ (hfetch.exec hwf hx)).finishCycle _

/-- Settles O37: where the gate is closed, arbitration would choose nothing. -/
theorem gatedArbitrationIsExact : Obligations.GatedArbitrationIsExact := by
  unfold Obligations.GatedArbitrationIsExact
  intro s hs
  unfold interruptCheck
  split
  · rfl
  · next hgate =>
    have hnone : irqChoice s = none := ((recheckOk_iff s).1 hs).resolve_left hgate
    rw [arbitrate_of_none hnone]

end Sys2Proof.Machine
end

section
/-! PROOFS. Interrupts through a whole cycle and through RETI (60_exceptions.md R501, R522, R526, R529, R533; 44_branching.md
R403). -/

namespace Sys2Proof.Machine

/-! ### A cycle that dispatches -/

/-- Settles O36: the latency is positive, so the cycle of the dispatch counts down. -/
theorem interruptTakenBetweenInstructions : Obligations.InterruptTakenBetweenInstructions := by
  unfold Obligations.InterruptTakenBetweenInstructions
  intro x p s hmay hflag hchoice hlatency
  have hcheck : interruptCheck s = dispatch x p s := by
    rw [interruptCheck, if_pos hflag, arbitrate_of_some hchoice]
  have hcount : ¬ (dispatch x p s).tickDelay ≤ 0 := by
    rw [(dispatch_fields x p s).2.1]
    omega
  constructor
  · rw [step_of_mayCycle hmay, cycleBody, hcheck, afterInterrupts, if_neg hcount]
  · obtain ⟨hhalted, hrun, hclock, hsync⟩ := hmay
    have hclock : ¬ s.ticks ≥ clockEnd := BitVec.not_le.2 hclock
    simp only [traceOf, fetchingState, runEnded, hhalted, hrun, hsync, if_neg hclock, hcheck, stepEntry, if_neg hcount,
      Bool.not_true, Bool.false_and, Bool.or_self, Bool.false_eq_true, if_false]

/-! ### RETI -/

/-- The state in which RETI pops pc: the level is off the stack, and a strict return has reported its mismatches. -/
def retiChecked (l : IrqLevel) (rest : List IrqLevel) (s : State) : State :=
  { s with irqStack := rest, faults := s.faults ++ if s.cfg.strictIret then iretFaults l s else [] }

/-- RETI inside a handler (R403, R526). -/
theorem exec_reti_of_cons {l : IrqLevel} {rest : List IrqLevel} {s : State} (hst : s.irqStack = l :: rest)
    (hbank : l.r.length = 8) :
    exec .reti s = .next { popPc (retiChecked l rest s) with
      tickDelay := s.cfg.cyclesOf 0x32 + l.savedDelay, irqRecheck := true } := by
  have hcheck : (if s.cfg.strictIret then checkSnapshot l { s with irqStack := rest } else { s with irqStack := rest }) =
      retiChecked l rest s := by
    unfold retiChecked
    split
    · exact checkSnapshot_eq l { s with irqStack := rest } hbank
    · rw [List.append_nil]
  obtain ⟨u, w, hu, hw, hpop⟩ := popPc_eq (retiChecked l rest s)
  have hcfg : (popPc (retiChecked l rest s)).cfg = s.cfg := by
    rw [hpop]
    exact (popped_cfg hw).trans ((popped_cfg hu).trans rfl)
  simp only [exec, execReti, hst, irqReturn, hcheck, hcfg]

/-- RETI with no active handler (D23). -/
theorem exec_reti_of_nil {s : State} (hst : s.irqStack = []) :
    exec .reti s = .next { charge 0x32 (popPc s) with irqRecheck := true } := by
  simp only [exec, execReti, hst]

/-- Settles O33: the stack is checked or not, and pc is popped. -/
theorem returnFromInterrupt : Obligations.ReturnFromInterrupt := by
  unfold Obligations.ReturnFromInterrupt
  intro l rest s
  constructor
  · intro hst hbank
    obtain ⟨u, w, hu, hw, hpop⟩ := popPc_eq (retiChecked l rest s)
    exact ⟨_, u, w, exec_reti_of_cons hst hbank, hu, hw, by rw [hpop]; rfl⟩
  · intro hst
    obtain ⟨u, w, hu, hw, hpop⟩ := popPc_eq s
    refine ⟨_, u, w, exec_reti_of_nil hst, hu, hw, ?_⟩
    rw [hpop, charge, popped_cfg hw, popped_cfg hu]

/-! ### A dispatch and the return from it -/

/-- The auto-clear is of no register that RETI looks at. -/
def ClearsNoImplicit (x : IrqSource) (c : Config) : Prop := ∀ d b, x.autoClear = some (d, b) → d ∉ c.implicitSfrs

/-- Such a dispatch leaves the implicit registers as the pushes of pc left them. -/
theorem sfrGet_dispatch {x : IrqSource} {p : BitVec 2} {s : State} (hx : ClearsNoImplicit x s.cfg) {d : Byte}
    (hd : d ∈ s.cfg.implicitSfrs) : sfrGet d (dispatch x p s) = sfrGet d (pushPc s) := by
  rw [dispatch_eq_autoClear]
  cases hclear : x.autoClear with
  | none => rfl
  | some db =>
    have hne : d ≠ db.1 := fun h => hx db.1 db.2 hclear (h ▸ hd)
    rw [sfrsKept_autoClear db.1 db.2 _ d (by simpa using hne)]
    rfl

theorem iramGet_dispatch (a : Byte) (x : IrqSource) (p : BitVec 2) (s : State) :
    iramGet a (dispatch x p s) = iramGet a (pushPc s) := by
  rw [dispatch_eq_autoClear, autoClear_frame]
  rfl

/-- The two bytes that a dispatch or a call leaves on the stack, and SP above them. -/
theorem pushPc_stack (s : State) : sp (pushPc s) = sp s + 2 ∧ iramGet (sp s + 1) (pushPc s) = s.pc.extractLsb' 0 8 ∧
    iramGet (sp s + 2) (pushPc s) = s.pc.extractLsb' 8 8 := by
  obtain ⟨_, hsp1, _, hlow, _⟩ := pushed_push (s.pc.extractLsb' 0 8) s
  obtain ⟨_, hsp2, _, hhigh, hkept⟩ := pushed_push (s.pc.extractLsb' 8 8) (push (s.pc.extractLsb' 0 8) s)
  rw [hsp1] at hsp2 hhigh hkept
  have htwo : sp s + 1 + 1 = sp s + 2 := by bv_omega
  refine ⟨hsp2.trans htwo, ?_, htwo ▸ hhigh⟩
  rw [← hlow]
  refine hkept _ ?_
  rw [List.mem_singleton]
  bv_omega

/-- A 16-bit value from its two bytes. -/
theorem toNat_of_bytes (a : Addr) : (a.extractLsb' 8 8).toNat * 256 + (a.extractLsb' 0 8).toNat = a.toNat := by
  simp only [BitVec.extractLsb'_toNat, Nat.shiftRight_eq_div_pow]
  omega

/-- Two pushes that do not wrap SP report nothing. -/
theorem pushPc_faults {s : State} (h : (sp s).toNat ≤ 0xFD) : (pushPc s).faults = s.faults := by
  obtain ⟨h1, hsp, _⟩ := pushed_push (s.pc.extractLsb' 0 8) s
  have h2 := (pushed_push (s.pc.extractLsb' 8 8) (push (s.pc.extractLsb' 0 8) s)).1
  have hfirst : (sp s == 0xFF) = false := by rw [beq_eq_false_iff_ne]; bv_omega
  have hsecond : (sp s + 1 == 0xFF) = false := by rw [beq_eq_false_iff_ne]; bv_omega
  rw [pushPc, h2, hsp, hsecond, h1, hfirst]
  simp [stackFault]

/-- Two pops that do not wrap SP report nothing. -/
theorem popPc_faults {s : State} (h : 2 ≤ (sp s).toNat) : (popPc s).faults = s.faults := by
  obtain ⟨u, w, ⟨hu, hsp, _⟩, ⟨hw, _⟩, hpop⟩ := popPc_eq s
  have hfirst : (sp s == 0x00) = false := by rw [beq_eq_false_iff_ne]; bv_omega
  have hsecond : (sp s - 1 == 0x00) = false := by rw [beq_eq_false_iff_ne]; bv_omega
  rw [hpop, hw, hsp, hsecond, hu, hfirst]
  simp [stackFault]

/-- The snapshot of a dispatch agrees with the state it leaves. -/
theorem iretFaults_dispatch {x : IrqSource} {s : State} (hx : ClearsNoImplicit x s.cfg) (p : BitVec 2) (d : Int) :
    iretFaults (snapshot p d (pushPc s)) (dispatch x p s) = [] := by
  have hget : ∀ e ∈ s.cfg.implicitSfrs, sfrGet e (dispatch x p s) = sfrGet e (pushPc s) := fun e => sfrGet_dispatch hx
  have hacc : acc (dispatch x p s) = acc (pushPc s) := hget 0xE0 (by simp [Config.implicitSfrs])
  have hsp : sp (dispatch x p s) = sp (pushPc s) := hget 0x81 (by simp [Config.implicitSfrs])
  have hpsw : psw (dispatch x p s) = psw (pushPc s) := hget 0xD0 (by simp [Config.implicitSfrs])
  have hpointers : pointerBytes (dispatch x p s) = pointerBytes (pushPc s) := by
    simp only [Config.implicitSfrs, List.forall_mem_cons] at hget
    obtain ⟨_, _, _, _, hdpl, hdph, hdpl1, hdph1, hdps, _⟩ := hget
    rw [pointerBytes, pointerBytes, dps, dps, (dispatch_fields x p s).1, pushPc_cfg, hdpl, hdph, hdpl1, hdph1, hdps]
  have hbank : bankBytes (dispatch x p s) = bankBytes (pushPc s) := by
    simp only [bankBytes, readReg, regAddr, bank, hpsw, iramGet_dispatch]
  rw [iretFaults, hacc, hsp, hpsw, hpointers, hbank]
  simp [snapshot, IrqLevel.pointers, pointerBytes]

/-- Settles O39: the pops find the two bytes of pc that the dispatch pushed, and nothing that RETI compares has changed. -/
theorem dispatchThenRetiReturns : Obligations.DispatchThenRetiReturns := by
  unfold Obligations.DispatchThenRetiReturns
  intro x p s _ hpc hclear
  obtain ⟨hcfg, _, hst, _⟩ := dispatch_fields x p s
  obtain ⟨hsp2, hlow, hhigh⟩ := pushPc_stack s
  have hsp : sp (dispatch x p s) = sp s + 2 :=
    (sfrGet_dispatch hclear (by simp [Config.implicitSfrs])).trans hsp2
  have hchecked : retiChecked (snapshot p s.tickDelay (pushPc s)) s.irqStack (dispatch x p s) =
      { dispatch x p s with irqStack := s.irqStack } := by
    rw [retiChecked, iretFaults_dispatch hclear]
    simp
  have hexec := exec_reti_of_cons hst rfl
  rw [snapshot_setPc, hchecked, hcfg] at hexec
  obtain ⟨u, w, ⟨hu, hspu, _⟩, ⟨hw, hspw, _⟩, hpop⟩ := popPc_eq { dispatch x p s with irqStack := s.irqStack }
  refine ⟨_, hexec, ?_, ?_, ?_, rfl, rfl, fun hlow => ?_⟩
  · have hbytes : (iramGet (sp (dispatch x p s)) (dispatch x p s)).toNat * 256 +
        (iramGet (sp (dispatch x p s) - 1) (dispatch x p s)).toNat = s.pc.toNat := by
      have hone : sp s + 2 - 1 = sp s + 1 := by bv_omega
      rw [hsp, hone, iramGet_dispatch, iramGet_dispatch, hhigh, hlow, toNat_of_bytes]
    show (popPc _).pc = s.pc
    rw [hpop]
    show BitVec.ofNat 16 (((iramGet (sp (dispatch x p s)) (dispatch x p s)).toNat * 256 +
      (iramGet (sp (dispatch x p s) - 1) (dispatch x p s)).toNat) % (dispatch x p s).cfg.codeSize) = s.pc
    rw [hbytes, hcfg, Nat.mod_eq_of_lt ((pcOk_iff s).1 hpc).1, BitVec.ofNat_toNat, BitVec.setWidth_eq]
  · rw [hpop]
    show sp w = sp s
    rw [hspw, hspu]
    show sp (dispatch x p s) - 1 - 1 = sp s
    rw [hsp]
    bv_omega
  · rw [hpop, hw, hu]
  · show (popPc _).faults = s.faults
    rw [popPc_faults]
    · show (dispatch x p s).faults = s.faults
      rw [dispatch_eq_autoClear, autoClear_frame]
      exact pushPc_faults hlow
    · show 2 ≤ (sp (dispatch x p s)).toNat
      rw [hsp]
      bv_omega

end Sys2Proof.Machine
end

section
/-! PROOFS. Direct operands, the peripheral hooks, and register and bit addressing (10_state.md R32 to R34, 20_memory.md R82 to
R85, 60_exceptions.md R560 to R567). -/

namespace Sys2Proof.Machine

/-! ### Who owns an SFR -/

/-- A direct address is an IRAM address or an SFR address, not both. -/
theorem not_le_0x7F {d : Byte} (h : 0x80#8 ≤ d) : ¬ d ≤ 0x7F#8 := by bv_omega

theorem ownerOf_of_core {d : Byte} {s : State} (h : d ∈ s.cfg.coreSfrs) : ownerOf d s = none := by
  rw [ownerOf, if_pos (by simpa using h)]

theorem ownerOf_of_unowned {d : Byte} {s : State} (h : ∀ p ∈ s.peripherals, d ∉ p.owns) : ownerOf d s = none := by
  have hnone : (s.peripherals.findIdx? fun p => p.owns.contains d) = none :=
    List.findIdx?_eq_none_iff.2 fun p hp => by simpa using h p hp
  rw [ownerOf, hnone]
  split <;> rfl

/-- The first peripheral that lists an address which is no core SFR owns it (log 16). -/
theorem ownerOf_of_first {d : Byte} {s : State} {k : Nat} {p : Peripheral} (hcore : d ∉ s.cfg.coreSfrs)
    (hp : s.peripherals[k]? = some p) (hown : d ∈ p.owns) (hfirst : ∀ q ∈ s.peripherals.take k, d ∉ q.owns) :
    ownerOf d s = some (k, p) := by
  obtain ⟨hk, rfl⟩ := List.getElem?_eq_some_iff.1 hp
  have hfind : (s.peripherals.findIdx? fun p => p.owns.contains d) = some k := by
    refine List.findIdx?_eq_some_iff_getElem.2 ⟨hk, by simpa using hown, fun j hj => ?_⟩
    simpa using hfirst _ (List.mem_take_iff_getElem.2 ⟨j, by omega, rfl⟩)
  rw [ownerOf, if_neg (by simpa using hcore), hfind]
  simp [hp]

/-! ### The cases of a direct access -/

theorem dirRead_iram {d : Byte} (h : d ≤ 0x7F#8) (s : State) : dirRead d s = (s, iramGet d s) := if_pos h

theorem dirRead_of_none {d : Byte} {s : State} (hd : 0x80#8 ≤ d) (h : ownerOf d s = none) :
    dirRead d s = (s, sfrGet d s) := by
  rw [dirRead, if_neg (not_le_0x7F hd), onSfrRead, h]

theorem dirRead_of_some {d : Byte} {s : State} {k : Nat} {p : Peripheral} (hd : 0x80#8 ≤ d)
    (h : ownerOf d s = some (k, p)) :
    dirRead d s = (applyEffect k p (readHandler p d s).1 s, (readHandler p d s).2) := by
  rw [dirRead, if_neg (not_le_0x7F hd), onSfrRead, h]

theorem dirWrite_of_some {d : Byte} {s : State} {k : Nat} {p : Peripheral} (hd : 0x80#8 ≤ d)
    (h : ownerOf d s = some (k, p)) (v : Byte) :
    dirWrite d v s = noteIrqSfr d (applyEffect k p (writeHandler p d (setSfr d v s)) (setSfr d v s)) := by
  rw [dirWrite, if_neg (not_le_0x7F hd), onSfrWrite, ownerOf_setSfr, h]

/-- Settles O5: each kind of address by its own case, and the recheck flag last. -/
theorem directAccessFollowsTheHooks : Obligations.DirectAccessFollowsTheHooks := by
  unfold Obligations.DirectAccessFollowsTheHooks
  intro d v s
  refine ⟨fun hd => dirRead_iram hd s, fun hd hfree => ?_, fun k p hd hcore hp hown hfirst => ?_,
    storedDirect_dirWrite d v s, fun hd hirq => ?_⟩
  · have hnone : ownerOf d s = none := hfree.elim ownerOf_of_core ownerOf_of_unowned
    exact ⟨dirRead_of_none hd hnone, hnone⟩
  · have hsome := ownerOf_of_first hcore hp hown hfirst
    exact ⟨hsome, dirRead_of_some hd hsome⟩
  · have hcfg : (onSfrWrite d (setSfr d v s)).cfg = s.cfg := by
      unfold onSfrWrite
      split <;> rfl
    rw [dirWrite, if_neg (not_le_0x7F hd), noteIrqSfr_eq, hcfg]
    simp [hirq]

/-! ### What a peripheral can do -/

/-- A peripheral's effect stays within what `deviceBounded` allows it. -/
theorem deviceBounded_applyEffect {k : Nat} {p : Peripheral} {s : State} (hp : s.peripherals[k]? = some p)
    (e : DeviceEffect) : deviceBounded k s (applyEffect k p e s) := by
  refine ⟨deviceFaults (settle s.ticks p e) s, rfl, fun h => ?_, fun h => ?_, fun j hj => applyEffect_other hj p e s, ?_,
    fun f hf => deviceFaults_kind hf⟩
  · show (s.needHwTick || _) = true
    rw [h, Bool.true_or]
  · show (s.irqRecheck || _) = true
    rw [h, Bool.true_or]
  · rw [applyEffect_get hp, hp, Option.map_some, Option.map_some, settle_attachment]

/-- Completing operations stays within the bound. -/
theorem deviceBounded_completeOperations (k : Nat) (s : State) : deviceBounded k s (completeOperations k s) := by
  refine ⟨[], ?_, id, id, fun j hj => ?_, ?_, by simp⟩
  · rw [List.append_nil]
    rfl
  · rw [completeOperations_peripherals, List.getElem?_modify_ne _ _ (Ne.symm hj)]
  · rw [completeOperations_peripherals, List.getElem?_modify_eq]
    cases s.peripherals[k]? <;> rfl

/-- Setting irq_recheck after a write stays within the bound. -/
theorem deviceBounded_noteIrqSfr {k : Nat} {s u : State} (h : deviceBounded k s u) (d : Byte) :
    deviceBounded k s (noteIrqSfr d u) := by
  obtain ⟨fs, hu, htick, hflag, hrest⟩ := h
  rw [noteIrqSfr_eq]
  refine ⟨fs, ?_, htick, fun h => ?_, hrest⟩
  · exact congrArg (fun z : State => { z with irqRecheck := u.irqRecheck || u.cfg.irqSfrs.contains d }) hu
  · show (u.irqRecheck || _) = true
    rw [hflag h, Bool.true_or]

theorem deviceBounded_trans {k : Nat} {s u w : State} (hsu : deviceBounded k s u) (huw : deviceBounded k u w) :
    deviceBounded k s w := by
  obtain ⟨fs, hu, htick, hflag, hother, hown, hkinds⟩ := hsu
  obtain ⟨gs, hw, htick', hflag', hother', hown', hkinds'⟩ := huw
  have hpc : u.previousPc = s.previousPc := by rw [hu]
  refine ⟨fs ++ gs, ?_, fun h => htick' (htick h), fun h => hflag' (hflag h),
    fun j hj => (hother' j hj).trans (hother j hj), hown'.trans hown, fun f hf => ?_⟩
  · rw [hw, hu]
    simp
  · rcases List.mem_append.1 hf with hf | hf
    · exact hkinds f hf
    · exact hpc ▸ hkinds' f hf

/-- What the tick routine of a peripheral can do. -/
theorem tickPeripheral_bounded (attention : Bool) (k : Nat) (s : State) :
    deviceBounded k s (tickPeripheral attention s k) ∧ (tickPeripheral attention s k).needHwTick = s.needHwTick := by
  have hself : deviceBounded k s s := ⟨[], by rw [List.append_nil], id, id, fun _ _ => rfl, rfl, by simp⟩
  unfold tickPeripheral
  split
  · exact ⟨hself, rfl⟩
  · next p hp =>
    split
    · refine ⟨deviceBounded_trans (deviceBounded_completeOperations k s)
        (deviceBounded_applyEffect (completeOperations_get hp) _), ?_⟩
      show (s.needHwTick || (settle _ _ _).attention) = s.needHwTick
      rw [settle_withoutAttention, Bool.or_false]
    · exact ⟨hself, rfl⟩

/-- The byte of a register with no documented read side effect depends neither on the clock nor on A (log 32). -/
theorem readHandler_value {p : Peripheral} {d : Byte} {s : State} (hd : d ∉ p.readEffects) (hcore : d ∉ s.cfg.coreSfrs)
    (w : Byte) (now : Tick) : (readHandler p d (setAcc w { s with ticks := now })).2 = (readHandler p d s).2 := by
  have hkept : ∀ e, e ∉ s.cfg.coreSfrs → sfrGet e (setAcc w { s with ticks := now }) = sfrGet e s := by
    intro e he
    have hne : e ≠ 0xE0 := fun h => he (h ▸ by simp [Config.coreSfrs, Config.implicitSfrs])
    rw [setAcc, sfrGet_setSfr, if_neg hne]
    rfl
  unfold readHandler
  split
  · exact hkept d hcore
  · have howned : ownedBytes p (setAcc w { s with ticks := now }) = ownedBytes p s := by
      unfold ownedBytes
      refine List.map_congr_left fun e he => hkept e ?_
      simpa [setAcc] using (List.mem_filter.1 he).2
    rw [if_neg (by simpa using hd), if_neg (by simpa using hd), howned]
    rfl

/-- Settles O6: a hook applies one effect of the owner, and a turn of the hardware tick one after its completions. -/
theorem handlerEffectIsBounded : Obligations.HandlerEffectIsBounded := by
  unfold Obligations.HandlerEffectIsBounded
  intro d v s
  refine ⟨fun h => ?_, fun k p hd howner => ?_, fun attention k => tickPeripheral_bounded attention k s⟩
  · rcases h with h | h
    · rw [dirRead_iram h]
    · unfold dirRead onSfrRead
      rw [h]
      split <;> rfl
  · obtain ⟨hp, _, hcore⟩ := ownerOf_some howner
    refine ⟨?_, ?_, fun hpure => ⟨?_, fun w now => ?_⟩⟩
    · rw [dirRead_of_some hd howner]
      exact deviceBounded_applyEffect hp _
    · rw [dirWrite_of_some hd howner]
      exact deviceBounded_noteIrqSfr (deviceBounded_applyEffect (s := setSfr d v s) hp _) d
    · rw [dirRead_of_some hd howner, readHandler_pure hpure]
      exact applyEffect_nil hp
    · have howner' : ownerOf d (setAcc w { s with ticks := now }) = some (k, p) := howner
      rw [dirRead_of_some hd howner, dirRead_of_some hd howner']
      exact readHandler_value hpure hcore w now

/-! ### Registers and bits -/

theorem regAddr_toNat (n : BitVec 3) (s : State) : (regAddr n s).toNat = 8 * ((psw s).toNat / 8 % 4) + n.toNat := by
  have hbank : (bank s).toNat = (psw s).toNat / 8 % 4 := by
    rw [bank, BitVec.extractLsb'_toNat, Nat.shiftRight_eq_div_pow]
  have hn := n.isLt
  rw [regAddr, BitVec.toNat_append, BitVec.toNat_append, ← Nat.shiftLeft_add_eq_or_of_lt hn, Nat.shiftLeft_eq, hbank]
  simp
  omega

/-- The pointer registers are R0 and R1. -/
theorem pointer_number_eq : ∀ i : BitVec 1, (0b00#2 ++ i : BitVec 3) = i.setWidth 3 := by decide

theorem bitLoc_toNat : ∀ b : Byte,
    (bitLoc b).1.toNat = (if b.toNat ≤ 0x7F then 0x20 + b.toNat / 8 else b.toNat / 8 * 8) ∧
      (bitLoc b).2.toNat = b.toNat % 8 := by decide +kernel

/-- Settles O7: registers by the arithmetic of their address, bits by the one access of their byte. -/
theorem registerAndBitAddressing : Obligations.RegisterAndBitAddressing := by
  unfold Obligations.RegisterAndBitAddressing
  intro n i b v s
  obtain ⟨hbyte, hbit⟩ := bitLoc_toNat b
  refine ⟨⟨regAddr_toNat n s, rfl, ?_, rfl⟩, hbyte, hbit, rfl, _, rfl, fun j => bitOf_withBit _ _ _ _⟩
  rw [pointer, pointer_number_eq]

end Sys2Proof.Machine
end

section
/-! PROOFS. The arithmetic instructions (40_arithmetic.md): flags, sums and differences, products and quotients, decimal
adjust. -/

namespace Sys2Proof

/-! ### The flags as integer laws (R190 to R192) -/

/-- A byte read as two's-complement. -/
theorem toInt_byte (a : Byte) : a.toInt = if a.toNat < 128 then (a.toNat : Int) else a.toNat - 256 := by
  rw [BitVec.toInt_eq_toNat_cond]
  split <;> split <;> omega

/-- Settles O8: each flag is a comparison of the same sums, split by the signs of the operands. -/
theorem flagsAreTheIntegerLaws : Obligations.FlagsAreTheIntegerLaws := by
  unfold Obligations.FlagsAreTheIntegerLaws
  intro a b c
  have ha := a.isLt
  have hb := b.isLt
  have hc : c.toNat ≤ 1 := c.toNat_le
  simp only [add8, sub8, toInt_byte, decide_eq_true_eq, bne_iff_ne, ne_eq, decide_eq_decide]
  refine ⟨by omega, ?_, by omega, ?_⟩ <;> split <;> split <;> omega

end Sys2Proof

namespace Sys2Proof.Machine

/-! ### Opcode bytes with an operand field -/

/-- A register form charges its opcode byte, the row's byte plus the register number. -/
theorem next_register (p : BitVec 5) (n : BitVec 3) {op : Byte} {r : Result} {u : State}
    (h : r = .next (charge (p ++ n) u)) (hop : (p.setWidth 8 <<< 3 : Byte) = op := by rfl) :
    r = .next (charge (op + n.setWidth 8) u) := by
  rw [h, opcode_register, hop]

/-- An indirect form charges its opcode byte, the row's byte plus the pointer number. -/
theorem next_pointer (p : BitVec 7) (i : BitVec 1) {op : Byte} {r : Result} {u : State}
    (h : r = .next (charge (p ++ i) u)) (hop : (p.setWidth 8 <<< 1 : Byte) = op := by rfl) :
    r = .next (charge (op + i.setWidth 8) u) := by
  rw [h, opcode_indirect, hop]

/-! ### What stays -/

theorem sfrsKept_refl (ds : List Byte) (s : State) : sfrsKept ds s s := fun _ _ => rfl

/-- A store to a listed SFR leaves the others. -/
theorem sfrsKept_setSfr {ds : List Byte} {s u : State} (h : sfrsKept ds s u) {d : Byte} (hd : d ∈ ds) (v : Byte) :
    sfrsKept ds s (setSfr d v u) := fun e he => by
  have hne : e ≠ d := fun hed => he (hed ▸ hd)
  rw [sfrGet_setSfr, if_neg hne, h e he]

theorem pswKept_refl (bs : List (BitVec 3)) (s : State) : pswKept bs s s := fun _ _ => rfl

/-- Writing a listed bit of PSW leaves the others. -/
theorem pswKept_withBit {bs : List (BitVec 3)} {s u w : State} (h : pswKept bs s u) {j : BitVec 3} {b : Bool}
    (hw : psw w = withBit (psw u) j b) (hj : j ∈ bs) : pswKept bs s w := fun i hi => by
  have hne : i ≠ j := fun hij => hi (hij ▸ hj)
  rw [hw, bitOf_withBit, if_neg hne, h i hi]

/-- A store to A or B leaves PSW. -/
theorem pswKept_of_eq {bs : List (BitVec 3)} {s u w : State} (h : pswKept bs s u) (hw : psw w = psw u) :
    pswKept bs s w := fun i hi => by rw [hw, h i hi]

/-- What a sum or difference stores (R200 to R211). -/
theorem setArith_spec (op : Byte) (r : AluResult) (s : State) :
    onlySfrs op [0xE0, 0xD0] s (charge op (setArith r s)) ∧ pswKept [7, 6, 2] s (charge op (setArith r s)) ∧
      acc (charge op (setArith r s)) = r.value ∧ cy (charge op (setArith r s)) = r.cy ∧
      ac (charge op (setArith r s)) = r.ac ∧ ov (charge op (setArith r s)) = r.ov := by
  have hacc := sfrsKept_setSfr (sfrsKept_refl [0xE0, 0xD0] s) (d := 0xE0) (by simp) r.value
  have hpsw : ∀ {u : State}, sfrsKept [0xE0, 0xD0] s u → ∀ v, sfrsKept [0xE0, 0xD0] s (setPsw v u) :=
    fun hu v => sfrsKept_setSfr hu (by simp) v
  have hbits : pswKept [7, 6, 2] s (setAcc r.value s) := pswKept_of_eq (pswKept_refl _ s) (psw_setAcc _ _)
  refine ⟨⟨rfl, hpsw (hpsw (hpsw hacc _) _) _⟩, ?_, ?_, ?_, ?_, ?_⟩
  · exact pswKept_withBit (pswKept_withBit (pswKept_withBit hbits (psw_setCy _ _) (by simp)) (psw_setAc _ _) (by simp))
      (psw_setOv _ _) (by simp)
  all_goals simp [setArith, cy, ac, ov]

/-- A meaning that adds to A (R190). -/
theorem added_addToAcc (op v : Byte) (c : Bool) (s : State) : added op v c s (charge op (addToAcc v c s)) := by
  obtain ⟨honly, hkept, hacc, hcy, hac, hov⟩ := setArith_spec op (add8 (acc s) v c) s
  refine ⟨honly, hkept, ?_, hcy, hac, ?_⟩
  · rw [addToAcc, hacc]
    simp [add8]
  · rw [addToAcc, hov, hcy]
    rfl

/-- A meaning that subtracts from A (R191). -/
theorem subtracted_subFromAcc (op v : Byte) (s : State) : subtracted op v s (charge op (subFromAcc v s)) := by
  obtain ⟨honly, hkept, hacc, hcy, hac, hov⟩ := setArith_spec op (sub8 (acc s) v (cy s)) s
  refine ⟨honly, hkept, ?_, hcy, hac, ?_⟩
  · rw [subFromAcc, hacc]
    simp only [sub8, BitVec.toNat_ofInt]
    omega
  · rw [subFromAcc, hov, hcy]
    rfl

/-- Settles O9: each form is a sum or a difference with the charge of its opcode. -/
theorem addAndSubtractSetAccAndFlags : Obligations.AddAndSubtractSetAccAndFlags := by
  unfold Obligations.AddAndSubtractSetAccAndFlags
  intro n i imm s
  exact ⟨⟨_, next_register 0b00101 n rfl, added_addToAcc _ _ _ s⟩,
    ⟨_, next_pointer 0b0010011 i rfl, added_addToAcc _ _ _ s⟩,
    ⟨_, rfl, added_addToAcc _ _ _ s⟩,
    ⟨_, next_register 0b00111 n rfl, added_addToAcc _ _ _ s⟩,
    ⟨_, next_pointer 0b0011011 i rfl, added_addToAcc _ _ _ s⟩,
    ⟨_, rfl, added_addToAcc _ _ _ s⟩,
    ⟨_, next_register 0b10011 n rfl, subtracted_subFromAcc _ _ s⟩,
    ⟨_, next_pointer 0b1001011 i rfl, subtracted_subFromAcc _ _ s⟩,
    ⟨_, rfl, subtracted_subFromAcc _ _ s⟩⟩

/-- Settles O10: the same from the state that the read hook leaves. -/
theorem addAndSubtractDirect : Obligations.AddAndSubtractDirect := by
  unfold Obligations.AddAndSubtractDirect
  intro d s
  exact ⟨⟨_, rfl, added_addToAcc _ _ _ _⟩, ⟨_, rfl, added_addToAcc _ _ _ _⟩, ⟨_, rfl, subtracted_subFromAcc _ _ _⟩⟩

/-! ### MUL AB and DIV AB (R222, R223) -/

/-- What a meaning leaves that stores A and B, and then CY and OV in either order. -/
theorem setProduct_spec {a b : Byte} {c o : Bool} {s u : State}
    (hu : u = setOv o (setCy c (setB b (setAcc a s))) ∨ u = setCy c (setOv o (setB b (setAcc a s)))) (op : Byte) :
    onlySfrs op [0xE0, 0xF0, 0xD0] s (charge op u) ∧ pswKept [7, 2] s (charge op u) ∧ acc (charge op u) = a ∧
      regB (charge op u) = b ∧ cy (charge op u) = c ∧ ov (charge op u) = o := by
  have hbytes : sfrsKept [0xE0, 0xF0, 0xD0] s (setB b (setAcc a s)) :=
    sfrsKept_setSfr (sfrsKept_setSfr (sfrsKept_refl _ s) (d := 0xE0) (by simp) a) (by simp) b
  have hpsw : ∀ {w : State}, sfrsKept [0xE0, 0xF0, 0xD0] s w → ∀ v, sfrsKept [0xE0, 0xF0, 0xD0] s (setPsw v w) :=
    fun hw v => sfrsKept_setSfr hw (by simp) v
  have hbits : pswKept [7, 2] s (setB b (setAcc a s)) := pswKept_of_eq (pswKept_refl _ s) (by simp)
  rcases hu with rfl | rfl
  · refine ⟨⟨rfl, hpsw (hpsw hbytes _) _⟩, ?_, ?_⟩
    · exact pswKept_withBit (pswKept_withBit hbits (psw_setCy _ _) (by simp)) (psw_setOv _ _) (by simp)
    · simp [cy, ov]
  · refine ⟨⟨rfl, hpsw (hpsw hbytes _) _⟩, ?_, ?_⟩
    · exact pswKept_withBit (pswKept_withBit hbits (psw_setOv _ _) (by simp)) (psw_setCy _ _) (by simp)
    · simp [cy, ov]

/-- The two bytes of a product of two bytes. -/
theorem product_bytes (a b : Byte) :
    (BitVec.ofNat 8 (a.toNat * b.toNat / 256)).toNat * 256 + (BitVec.ofNat 8 (a.toNat * b.toNat)).toNat =
      a.toNat * b.toNat := by
  have hle : a.toNat * b.toNat ≤ 255 * 255 := Nat.mul_le_mul (by have := a.isLt; omega) (by have := b.isLt; omega)
  rw [BitVec.toNat_ofNat, BitVec.toNat_ofNat]
  omega

/-- Settles O11: the product by its two bytes, the quotient and the remainder by Euclid's division. -/
theorem multiplyAndDivide : Obligations.MultiplyAndDivide := by
  unfold Obligations.MultiplyAndDivide
  intro s
  constructor
  · obtain ⟨honly, hkept, hacc, hb, hcy, hov⟩ := setProduct_spec (s := s) (.inl rfl) 0xA4
    refine ⟨_, rfl, honly, hkept, ?_, hcy, hov⟩
    rw [hacc, hb]
    exact product_bytes _ _
  · intro hnonzero
    have hexec : exec .divAB s = .next (charge 0x84 (divide s)) := by rw [exec, execDivAB, if_neg hnonzero]
    obtain ⟨honly, hkept, hacc, hb, hcy, hov⟩ := setProduct_spec (s := s) (u := divide s) (.inr rfl) 0x84
    refine ⟨_, hexec, honly, hkept, ?_, ?_, hcy, hov⟩
    · rw [hacc, hb, BitVec.toNat_udiv, BitVec.toNat_umod, Nat.div_add_mod']
    · rw [hb, BitVec.toNat_umod]
      exact Nat.mod_lt _ (Nat.pos_of_ne_zero fun h => hnonzero (BitVec.eq_of_toNat_eq h))

/-- Settles O12: the two draws move the counter only, and the stores are those of a division. -/
theorem divideByZeroCompletes : Obligations.DivideByZeroCompletes := by
  unfold Obligations.DivideByZeroCompletes
  intro s hzero
  have hexec : exec .divAB s = .next (charge 0x84 (divideByZero s)) := by rw [exec, execDivAB, if_pos hzero]
  obtain ⟨⟨_, hsfrs⟩, hbits, _, _, hcy, hov⟩ :=
    setProduct_spec (s := (draw (draw s).1).1) (u := divideByZero s) (.inr rfl) 0x84
  exact ⟨_, hexec, rfl, hsfrs, hbits, hcy, hov⟩

/-! ### DA A (R224) -/

/-- The low adjustment, before its result is cut to a byte. -/
def daLow (a : Byte) (ac : Bool) : Nat := if 9 < a.toNat % 16 ∨ ac = true then a.toNat + 6 else a.toNat

/-- The carry after the low adjustment. -/
def daCarry (a : Byte) (cy ac : Bool) : Bool := cy || decide (0xFF < daLow a ac)

/-- The adjustment of DA A, by its two halves. -/
theorem decimalAdjust_eq (a : Byte) (cy ac : Bool) :
    decimalAdjust a cy ac =
      if 9 < daLow a ac % 256 / 16 ∨ daCarry a cy ac = true then
        (BitVec.ofNat 8 (daLow a ac % 256 + 0x60), daCarry a cy ac || decide (0xFF < daLow a ac % 256 + 0x60))
      else (BitVec.ofNat 8 (daLow a ac), daCarry a cy ac) := by
  have hlow : (if 9 < a.toNat % 0x10 || ac then daAdd 0x06 (a, cy) else (a, cy)) =
      (BitVec.ofNat 8 (daLow a ac), daCarry a cy ac) := by
    have ha : ¬ 255 < a.toNat := by have := a.isLt; omega
    unfold daLow daCarry daLow
    by_cases h : 9 < a.toNat % 16 ∨ ac = true
    · simp [h, daAdd]
    · simp [h, ha]
  unfold decimalAdjust
  rw [hlow]
  have hhigh : (0x90 < daLow a ac % 256 / 0x10 * 0x10) ↔ 9 < daLow a ac % 256 / 16 := by omega
  simp [daAdd, hhigh]

/-- A meaning that stores A and then CY. -/
theorem setAccCy_spec (op v : Byte) (c : Bool) (s : State) :
    onlySfrs op [0xE0, 0xD0] s (charge op (setCy c (setAcc v s))) ∧ pswKept [7] s (charge op (setCy c (setAcc v s))) ∧
      acc (charge op (setCy c (setAcc v s))) = v ∧ cy (charge op (setCy c (setAcc v s))) = c := by
  have hacc := sfrsKept_setSfr (sfrsKept_refl [0xE0, 0xD0] s) (d := 0xE0) (by simp) v
  have hbits : pswKept [7] s (setAcc v s) := pswKept_of_eq (pswKept_refl _ s) (psw_setAcc _ _)
  exact ⟨⟨rfl, sfrsKept_setSfr hacc (by simp) _⟩, pswKept_withBit hbits (psw_setCy _ _) (by simp), by simp, by simp [cy]⟩

/-- Settles O13: the adjusted byte and carry by their two halves. -/
theorem decimalAdjust : Obligations.DecimalAdjust := by
  unfold Obligations.DecimalAdjust
  intro s
  obtain ⟨honly, hkept, hacc, hcy⟩ := setAccCy_spec 0xD4 (Sys2Proof.decimalAdjust (acc s) (cy s) (ac s)).1
    (Sys2Proof.decimalAdjust (acc s) (cy s) (ac s)).2 s
  refine ⟨_, daLow (acc s) (ac s), daCarry (acc s) (cy s) (ac s), rfl, rfl, rfl, honly, hkept, ?_⟩
  rw [hacc, hcy, decimalAdjust_eq]
  split
  · simp
  · simp

/-! ### Registers, indirect bytes, direct operands and the data pointer -/

/-- Settles O14: each form stores one IRAM byte, with the charge of its opcode. -/
theorem registerAndIndirectStores : Obligations.RegisterAndIndirectStores := by
  unfold Obligations.RegisterAndIndirectStores
  intro n i d imm s
  exact ⟨⟨_, next_register 0b00001 n rfl, byteStored_setIram _ _ _ s⟩,
    ⟨_, next_register 0b00011 n rfl, byteStored_setIram _ _ _ s⟩,
    ⟨_, next_pointer 0b0000011 i rfl, byteStored_setIram _ _ _ s⟩,
    ⟨_, next_pointer 0b0001011 i rfl, byteStored_setIram _ _ _ s⟩,
    ⟨_, next_register 0b11111 n rfl, byteStored_setIram _ _ _ s⟩,
    ⟨_, next_register 0b01111 n rfl, byteStored_setIram _ _ _ s⟩,
    ⟨_, next_register 0b10101 n rfl, byteStored_setIram _ _ _ _⟩,
    ⟨_, next_pointer 0b1111011 i rfl, byteStored_setIram _ _ _ s⟩,
    ⟨_, next_pointer 0b0111011 i rfl, byteStored_setIram _ _ _ s⟩,
    ⟨_, next_pointer 0b1010011 i rfl, byteStored_setIram _ _ _ _⟩⟩

/-- Settles O15: each form writes the direct operand in the state that its read hook leaves. -/
theorem directReadModifyWrite : Obligations.DirectReadModifyWrite := by
  unfold Obligations.DirectReadModifyWrite
  intro d imm s u v hread
  obtain ⟨rfl, rfl⟩ : (dirRead d s).1 = u ∧ (dirRead d s).2 = v := by rw [hread]; exact ⟨rfl, rfl⟩
  exact ⟨⟨_, rfl, directStored_dirWrite _ _ _ _⟩, ⟨_, rfl, directStored_dirWrite _ _ _ _⟩,
    ⟨_, rfl, directStored_dirWrite _ _ _ _⟩, ⟨_, rfl, directStored_dirWrite _ _ _ _⟩,
    ⟨_, rfl, directStored_dirWrite _ _ _ _⟩, ⟨_, rfl, directStored_dirWrite _ _ _ _⟩,
    ⟨_, rfl, directStored_dirWrite _ _ _ _⟩, ⟨_, rfl, directStored_dirWrite _ _ _ _⟩⟩

/-- The registers of the active data pointer and DPS are three addresses (log 24). -/
theorem pointer_addresses {s : State} (h : s.cfg.wellFormed = true) :
    dphAddr s ≠ dplAddr s ∧ s.cfg.dpsAddr ≠ dphAddr s ∧ s.cfg.dpsAddr ≠ dplAddr s := by
  have hnodup := listedSfrs_nodup h
  simp only [Config.implicitSfrs, List.nodup_cons, List.mem_cons, not_or] at hnodup
  unfold dphAddr dplAddr
  split <;> tauto

/-- A store to the active data pointer changes its two registers, and leaves it the active one. -/
theorem setDptr_spec (op : Byte) (v : Addr) {s : State} (h : s.cfg.wellFormed = true) :
    onlySfrs op [dphAddr s, dplAddr s] s (charge op (setDptr v s)) ∧ dptr (charge op (setDptr v s)) = v := by
  obtain ⟨hhl, hsh, hsl⟩ := pointer_addresses h
  have hdps : dps (charge op (setDptr v s)) = dps s := by
    show sfrGet s.cfg.dpsAddr (setSfr (dplAddr s) _ (setSfr (dphAddr s) _ s)) = _
    rw [sfrGet_setSfr, if_neg hsl, sfrGet_setSfr, if_neg hsh]
    rfl
  refine ⟨⟨rfl, sfrsKept_setSfr (sfrsKept_setSfr (sfrsKept_refl _ s) (by simp) _) (by simp) _⟩, ?_⟩
  have hlow : dplAddr (charge op (setDptr v s)) = dplAddr s := by rw [dplAddr, hdps]; rfl
  have hhigh : dphAddr (charge op (setDptr v s)) = dphAddr s := by rw [dphAddr, hdps]; rfl
  rw [dptr, hlow, hhigh]
  show sfrGet (dphAddr s) (setSfr (dplAddr s) _ (setSfr (dphAddr s) _ s)) ++
    sfrGet (dplAddr s) (setSfr (dplAddr s) _ (setSfr (dphAddr s) _ s)) = v
  rw [sfrGet_setSfr, if_neg hhl, sfrGet_setSfr, if_pos rfl, sfrGet_setSfr, if_pos rfl]
  exact append_bytes v

/-- Settles O16: both forms store the active data pointer. -/
theorem dataPointerInstructions : Obligations.DataPointerInstructions := by
  unfold Obligations.DataPointerInstructions
  intro w s hwf
  refine ⟨⟨_, rfl, setDptr_spec _ _ hwf⟩, ⟨_, rfl, setDptr_spec _ _ hwf⟩, ?_⟩
  unfold dphAddr dplAddr dps
  split <;> rfl

/-! ### The accumulator (40_arithmetic.md R212, R217, 41_logical.md R250 to R274) -/

/-- The rotations and the exchange of nibbles, as rotations of the byte. -/
theorem rotations : ∀ a : Byte,
    rotl a = a.rotateLeft 1 ∧ rotr a = a.rotateRight 1 ∧ swapNibbles a = a.rotateLeft 4 := by decide +kernel

/-- The rotations through carry, as rotations of the nine bits of CY and A. -/
theorem rotations_carry : ∀ (a : Byte) (c : Bool),
    (rotlc a c).2.toNat * 256 + (rotlc a c).1.toNat = 2 * a.toNat + c.toNat ∧
      2 * (rotrc a c).1.toNat + (rotrc a c).2.toNat = c.toNat * 256 + a.toNat := by decide +kernel

/-- Settles O17: each form stores A, or A and CY, and the stored byte is the one stated. -/
theorem accumulatorOperations : Obligations.AccumulatorOperations := by
  unfold Obligations.AccumulatorOperations
  intro s
  obtain ⟨hleft, hright, hswap⟩ := rotations (acc s)
  obtain ⟨hlc, hrc⟩ := rotations_carry (acc s) (cy s)
  have hinc : acc s + 1 = BitVec.ofNat 8 ((acc s).toNat + 1) := by bv_omega
  have hdec : acc s - 1 = BitVec.ofNat 8 ((acc s).toNat + 255) := by bv_omega
  have hcpl : acc s ^^^ 0xFF = ~~~acc s := BitVec.xor_allOnes
  rw [← hinc, ← hdec, ← hcpl, ← hleft, ← hright, ← hswap]
  obtain ⟨hlonly, hlkept, hlacc, hlcy⟩ := setAccCy_spec 0x33 (rotlc (acc s) (cy s)).1 (rotlc (acc s) (cy s)).2 s
  obtain ⟨hronly, hrkept, hracc, hrcy⟩ := setAccCy_spec 0x13 (rotrc (acc s) (cy s)).1 (rotrc (acc s) (cy s)).2 s
  exact ⟨⟨_, rfl, accOnly_setAcc _ _ s⟩, ⟨_, rfl, accOnly_setAcc _ _ s⟩, ⟨_, rfl, accOnly_setAcc _ _ s⟩,
    ⟨_, rfl, accOnly_setAcc _ _ s⟩, ⟨_, rfl, accOnly_setAcc _ _ s⟩, ⟨_, rfl, accOnly_setAcc _ _ s⟩,
    ⟨_, rfl, accOnly_setAcc _ _ s⟩, ⟨_, rfl, hlonly, hlkept, by rw [hlacc, hlcy, hlc]⟩,
    ⟨_, rfl, hronly, hrkept, by rw [hracc, hrcy, hrc]⟩⟩

/-- Settles O18: each form stores A, with the charge of its opcode. -/
theorem logicalToAccumulator : Obligations.LogicalToAccumulator := by
  unfold Obligations.LogicalToAccumulator
  intro n i d imm s u v hread
  obtain ⟨rfl, rfl⟩ : (dirRead d s).1 = u ∧ (dirRead d s).2 = v := by rw [hread]; exact ⟨rfl, rfl⟩
  exact ⟨⟨_, next_register 0b01011 n rfl, accOnly_setAcc _ _ s⟩, ⟨_, rfl, accOnly_setAcc _ _ _⟩,
    ⟨_, next_pointer 0b0101011 i rfl, accOnly_setAcc _ _ s⟩, ⟨_, rfl, accOnly_setAcc _ _ s⟩,
    ⟨_, next_register 0b01001 n rfl, accOnly_setAcc _ _ s⟩, ⟨_, rfl, accOnly_setAcc _ _ _⟩,
    ⟨_, next_pointer 0b0100011 i rfl, accOnly_setAcc _ _ s⟩, ⟨_, rfl, accOnly_setAcc _ _ s⟩,
    ⟨_, next_register 0b01101 n rfl, accOnly_setAcc _ _ s⟩, ⟨_, rfl, accOnly_setAcc _ _ _⟩,
    ⟨_, next_pointer 0b0110011 i rfl, accOnly_setAcc _ _ s⟩, ⟨_, rfl, accOnly_setAcc _ _ s⟩⟩

end Sys2Proof.Machine
end

section
/-! PROOFS. The data transfer instructions (42_data_transfer.md R300 to R329). -/

namespace Sys2Proof.Machine

/-- Settles O19: each form stores A, with the charge of its opcode. -/
theorem accumulatorLoads : Obligations.AccumulatorLoads := by
  unfold Obligations.AccumulatorLoads
  intro n i d imm s
  refine ⟨⟨_, next_register 0b11101 n rfl, accOnly_setAcc _ _ s⟩, ⟨_, next_pointer 0b1110011 i rfl, accOnly_setAcc _ _ s⟩,
    ⟨_, rfl, accOnly_setAcc _ _ s⟩, fun hd => ⟨_, ?_, accOnly_setAcc _ _ _⟩, ⟨_, rfl, accOnly_setAcc _ _ s⟩,
    ⟨_, rfl, accOnly_setAcc _ _ s⟩⟩
  rw [exec, execMovADir, if_neg hd]

/-- Settles O20: the fault is reported with previous_pc, and the cost charged. -/
theorem illegalFormsReport : Obligations.IllegalFormsReport := by
  unfold Obligations.IllegalFormsReport
  exact fun s => ⟨rfl, rfl⟩

/-- Settles O21: each form writes the direct operand. -/
theorem directStores : Obligations.DirectStores := by
  unfold Obligations.DirectStores
  intro n i d src imm s
  exact ⟨⟨_, rfl, directStored_dirWrite _ _ _ s⟩, ⟨_, next_register 0b10001 n rfl, directStored_dirWrite _ _ _ s⟩,
    ⟨_, next_pointer 0b1000011 i rfl, directStored_dirWrite _ _ _ s⟩, ⟨_, rfl, directStored_dirWrite _ _ _ s⟩,
    ⟨_, rfl, directStored_dirWrite _ _ _ _⟩⟩

/-! ### External data memory (20_memory.md R86) -/

theorem xdataRead_valid {a : Addr} {s : State} (h : s.cfg.xdataOk a = true) :
    xdataRead a s = (s, Memory.read unspecByte s.xdata a.toNat) := if_pos h

theorem xdataRead_missing {a : Addr} {s : State} (h : s.cfg.xdataOk a = false) :
    xdataRead a s = draw (raise .xdataRange (.address a) s) := if_neg (by simp [h])

theorem xdataWrite_valid {a : Addr} {s : State} (h : s.cfg.xdataOk a = true) (v : Byte) :
    xdataWrite a v s = { s with xdata := Memory.write unspecByte s.xdata a.toNat v } := if_pos h

theorem xdataWrite_missing {a : Addr} {s : State} (h : s.cfg.xdataOk a = false) (v : Byte) :
    xdataWrite a v s = raise .xdataRange (.address a) s := if_neg (by simp [h])

/-- A is loaded from an external address that exists. -/
theorem exec_xdataLoad {r : Result} {op : Byte} {a : Addr} {s : State} (h : s.cfg.xdataOk a = true)
    (hr : r = .next (charge op (setAcc (xdataRead a s).2 (xdataRead a s).1))) :
    ∃ t, r = .next t ∧ accOnly op (Memory.read unspecByte s.xdata a.toNat) s t := by
  rw [xdataRead_valid h] at hr
  exact ⟨_, hr, accOnly_setAcc _ _ s⟩

/-- A is stored at an external address that exists, and every other external byte stays. -/
theorem exec_xdataStore {r : Result} {op : Byte} {a : Addr} {s : State} (h : s.cfg.xdataOk a = true)
    (hr : r = .next (charge op (xdataWrite a (acc s) s))) :
    ∃ t, r = .next t ∧ t = { s with xdata := t.xdata, tickDelay := s.cfg.cyclesOf op } ∧
      ∀ b : Nat, Memory.read unspecByte t.xdata b =
        if b = a.toNat then acc s else Memory.read unspecByte s.xdata b := by
  rw [xdataWrite_valid h] at hr
  exact ⟨_, hr, rfl, fun b => Memory.read_write _ _ _ _ _⟩

/-- A load from a missing external address reports it, and loads a draw. -/
theorem exec_xdataLoad_missing {r : Result} {op : Byte} {a : Addr} {s : State} (h : s.cfg.xdataOk a = false)
    (hr : r = .next (charge op (setAcc (xdataRead a s).2 (xdataRead a s).1))) :
    ∃ t, r = .next t ∧ sfrsKept [0xE0] s t ∧
      t = { s with
        sfr := t.sfr, freeCount := t.freeCount, tickDelay := s.cfg.cyclesOf op,
        faults := s.faults ++ [⟨.xdataRange, s.previousPc, .address a⟩] } := by
  rw [xdataRead_missing h] at hr
  exact ⟨_, hr, sfrsKept_setSfr (u := (draw (raise .xdataRange (.address a) s)).1) (sfrsKept_refl _ s) (by simp) _, rfl⟩

/-- A store at a missing external address reports it and is discarded. -/
theorem exec_xdataStore_missing {r : Result} {op v : Byte} {a : Addr} {s : State} (h : s.cfg.xdataOk a = false)
    (hr : r = .next (charge op (xdataWrite a v s))) :
    r = .next { s with
      tickDelay := s.cfg.cyclesOf op, faults := s.faults ++ [⟨.xdataRange, s.previousPc, .address a⟩] } := by
  rw [hr, xdataWrite_missing h]
  rfl

/-- Settles O22: the loads and the stores, by either address. -/
theorem movxOfAnExistingAddress : Obligations.MovxOfAnExistingAddress := by
  unfold Obligations.MovxOfAnExistingAddress
  exact fun i s => ⟨fun h => ⟨exec_xdataLoad h (next_pointer 0b1110001 i rfl), exec_xdataStore h (next_pointer 0b1111001 i rfl)⟩,
    fun h => ⟨exec_xdataLoad h rfl, exec_xdataStore h rfl⟩⟩

/-- Settles O23: the loads and the stores, by either address. -/
theorem movxOfAMissingAddress : Obligations.MovxOfAMissingAddress := by
  unfold Obligations.MovxOfAMissingAddress
  exact fun i s => ⟨fun h => ⟨exec_xdataLoad_missing h (next_pointer 0b1110001 i rfl),
      exec_xdataStore_missing h (next_pointer 0b1111001 i rfl)⟩,
    fun h => ⟨exec_xdataLoad_missing h rfl, exec_xdataStore_missing h rfl⟩⟩

/-! ### The stack and the exchanges -/

/-- Settles O24: a push after the read of its operand, a write of the operand after a pop. -/
theorem pushAndPop : Obligations.PushAndPop := by
  unfold Obligations.PushAndPop
  intro d s
  refine ⟨⟨_, _, rfl, pushed_push _ _, rfl⟩, _, (pop s).1, rfl, popped_pop s, ?_⟩
  exact directStored_dirWrite _ _ _ _

/-- A and the IRAM byte at `a` are stored, and nothing else changes. -/
theorem exchanged_spec {op a v w : Byte} {s t : State} (ht : t = charge op (setAcc v (setIram a w s))) :
    t = { s with sfr := t.sfr, iram := t.iram, tickDelay := s.cfg.cyclesOf op } ∧
      sfrsKept [0xE0] s t ∧ iramKept [a] s t ∧ acc t = v ∧ iramGet a t = w := by
  subst ht
  refine ⟨rfl, sfrsKept_setSfr (u := setIram a w s) (sfrsKept_refl _ s) (by simp) v, fun b hb => ?_, by simp, ?_⟩
  · show iramGet b (setIram a w s) = _
    rw [iramGet_setIram, if_neg (by simpa using hb)]
  · show iramGet a (setIram a w s) = _
    rw [iramGet_setIram, if_pos rfl]

/-- The high nibble of one byte with the low nibble of another. -/
theorem nibbles_toNat (h l : Byte) : (nibbles h l).toNat = h.toNat / 16 * 16 + l.toNat % 16 := by
  have hlow : (l.extractLsb' 0 4).toNat = l.toNat % 16 := by simp [BitVec.extractLsb'_toNat]
  have hhigh : (h.extractLsb' 4 4).toNat = h.toNat / 16 := by
    have := h.isLt
    rw [BitVec.extractLsb'_toNat, Nat.shiftRight_eq_div_pow]
    omega
  rw [nibbles, BitVec.toNat_append, ← Nat.shiftLeft_add_eq_or_of_lt (l.extractLsb' 0 4).isLt, Nat.shiftLeft_eq, hlow, hhigh]

/-- Settles O25: the two bytes, or the two that XCHD makes of their nibbles, are stored crosswise. -/
theorem exchanges : Obligations.Exchanges := by
  unfold Obligations.Exchanges
  intro n i d s
  refine ⟨⟨_, next_register 0b11001 n rfl, exchanged_spec rfl⟩, ⟨_, next_pointer 0b1100011 i rfl, exchanged_spec rfl⟩, ?_,
    ⟨_, _, rfl, storedDirect_dirWrite _ _ _, accOnly_setAcc _ _ _⟩⟩
  obtain ⟨hframe, hsfrs, hiram, hacc, hbyte⟩ := exchanged_spec (op := 0xD6 + i.setWidth 8) (a := pointer i s)
    (v := nibbles (acc s) (indRead i s)) (w := nibbles (indRead i s) (acc s)) (s := s) rfl
  exact ⟨_, next_pointer 0b1101011 i rfl, hframe, hsfrs, hiram, (congrArg BitVec.toNat hacc).trans (nibbles_toNat _ _),
    (congrArg BitVec.toNat hbyte).trans (nibbles_toNat _ _)⟩

end Sys2Proof.Machine
end

section
/-! PROOFS. The Boolean instructions (43_boolean.md R350 to R366). -/

namespace Sys2Proof.Machine

/-- Settles O26: each form stores CY, in the state that the read of its bit leaves. -/
theorem carryOperations : Obligations.CarryOperations := by
  unfold Obligations.CarryOperations
  intro b s u v hread
  obtain ⟨rfl, rfl⟩ : (bitRead b s).1 = u ∧ (bitRead b s).2 = v := by rw [hread]; exact ⟨rfl, rfl⟩
  exact ⟨⟨_, rfl, carryOnly_setCy _ _ s⟩, ⟨_, rfl, carryOnly_setCy _ _ s⟩, ⟨_, rfl, carryOnly_setCy _ _ s⟩,
    ⟨_, rfl, carryOnly_setCy _ _ _⟩, ⟨_, rfl, carryOnly_setCy _ _ _⟩, ⟨_, rfl, carryOnly_setCy _ _ _⟩,
    ⟨_, rfl, carryOnly_setCy _ _ _⟩, ⟨_, rfl, carryOnly_setCy _ _ _⟩⟩

/-- Settles O27: each form updates its bit. -/
theorem bitWrites : Obligations.BitWrites := by
  unfold Obligations.BitWrites
  intro b s
  exact ⟨⟨_, rfl, bitStored_bitUpdate _ _ _ s⟩, ⟨_, rfl, bitStored_bitUpdate _ _ _ s⟩,
    ⟨_, rfl, bitStored_bitUpdate _ _ _ s⟩, ⟨_, rfl, bitStored_bitUpdate _ _ _ s⟩⟩

/-- JBC after the one read of its byte. -/
theorem exec_jbc (b : Byte) (rel : Int) (s : State) :
    exec (.jbc b rel) s = .next (charge 0x10 (if bitOf (dirRead (bitLoc b).1 s).2 (bitLoc b).2 then
      setPc (relTarget rel (dirRead (bitLoc b).1 s).1) (dirWrite (bitLoc b).1
        (withBit (dirRead (bitLoc b).1 s).2 (bitLoc b).2 false) (dirRead (bitLoc b).1 s).1)
      else (dirRead (bitLoc b).1 s).1)) := rfl

/-- A relative target is stored as it is. -/
theorem setPc_relTarget_of_cfg {s u : State} (h : u.cfg = s.cfg) (rel : Int) :
    setPc (relTarget rel s) u = { u with pc := relAddr rel s } := by
  rw [setPc, h, Nat.mod_eq_of_lt (relTarget_lt rel s)]
  rfl

/-- Settles O28: the branch after the read of the bit; JBC writes its byte back only when the bit is 1. -/
theorem bitBranches : Obligations.BitBranches := by
  unfold Obligations.BitBranches
  intro b rel s u w hread
  obtain ⟨rfl, rfl⟩ : (dirRead (bitLoc b).1 s).1 = u ∧ (dirRead (bitLoc b).1 s).2 = w := by rw [hread]; exact ⟨rfl, rfl⟩
  refine ⟨⟨_, rfl, branched_branchIf _ _ _ _⟩, ⟨_, rfl, branched_branchIf _ _ _ _⟩, fun hset => ?_, fun hclear => ?_⟩
  · rw [exec_jbc, if_pos hset, setPc_relTarget_of_cfg (dirWrite_cfg _ _ _)]
    exact ⟨_, _, _, rfl, fun j => bitOf_withBit _ _ _ _, storedDirect_dirWrite _ _ _, rfl⟩
  · rw [exec_jbc, if_neg (by simp [hclear])]
    rfl

end Sys2Proof.Machine
end

section
/-! PROOFS. The program branching instructions (44_branching.md R400 to R417). -/

namespace Sys2Proof.Machine

/-- The opcode byte of a page form: the page above the five bits of the row. -/
theorem opcode_page : ∀ (a : BitVec 3) (p : BitVec 5), (a ++ p : Byte) = a.setWidth 8 * 0x20 + p.setWidth 8 := by decide

/-- A page form charges its opcode byte. -/
theorem next_page (a : BitVec 3) (p : BitVec 5) {op : Byte} {r : Result} {u : State}
    (h : r = .next (charge (a ++ p) u)) (hop : (p.setWidth 8 : Byte) = op := by rfl) :
    r = .next (charge (a.setWidth 8 * 0x20 + op) u) := by
  rw [h, opcode_page, hop]

/-- A meaning that only jumps. -/
theorem pcOnly_setPc (op : Byte) (a : Nat) (s : State) :
    pcOnly op (BitVec.ofNat 16 (a % s.cfg.codeSize)) s (charge op (setPc a s)) := rfl

/-- Settles O29: each form sets pc to its target, or leaves it. -/
theorem jumpsAndBranches : Obligations.JumpsAndBranches := by
  unfold Obligations.JumpsAndBranches
  intro a w rel s
  rw [← pageTarget_toNat]
  have hz : decide (acc s = 0) = (acc s == 0x00) := (beq_eq_decide _ _).symm
  have hnz : decide (acc s ≠ 0) = (acc s != 0x00) := by rw [bne, beq_eq_decide, decide_not]
  rw [hz, hnz]
  exact ⟨⟨_, next_page _ 0b00001 rfl, pcOnly_setPc _ _ s⟩, ⟨_, rfl, pcOnly_setPc _ _ s⟩,
    ⟨_, rfl, branched_branchIf _ _ _ s⟩, ⟨_, rfl, pcOnly_setPc _ _ s⟩, ⟨_, rfl, branched_branchIf _ _ _ s⟩,
    ⟨_, rfl, branched_branchIf _ _ _ s⟩, ⟨_, rfl, branched_branchIf _ _ _ s⟩, ⟨_, rfl, branched_branchIf _ _ _ s⟩,
    ⟨_, rfl, rfl⟩⟩

/-- Settles O30: the two pushes of pc and the jump; the two pops into pc. -/
theorem callsAndReturn : Obligations.CallsAndReturn := by
  unfold Obligations.CallsAndReturn
  intro a w s
  have hcall : ∀ op target, pcOnly op (BitVec.ofNat 16 (target % s.cfg.codeSize)) (pushPc s)
      (charge op (setPc target (pushPc s))) := fun op target => pushPc_cfg s ▸ pcOnly_setPc op target (pushPc s)
  rw [← pageTarget_toNat]
  refine ⟨⟨_, _, pushPc s, next_page _ 0b10001 rfl, pushed_push _ s, pushed_push _ _, hcall _ _⟩,
    ⟨_, _, pushPc s, rfl, pushed_push _ s, pushed_push _ _, hcall _ _⟩, ?_⟩
  obtain ⟨u, x, hu, hx, hpop⟩ := popPc_eq s
  exact ⟨_, u, x, rfl, hu, hx, by rw [hpop]; rfl⟩

/-- A compare branch: CY from the comparison, the branch from the inequality. -/
theorem compared_compareBranch (op v w : Byte) (rel : Int) (s : State) :
    compared op v w rel s (charge op (compareBranch v w rel s)) := by
  have hpc : (if v != w then relAddr rel (setCy (decide (v < w)) s) else (setCy (decide (v < w)) s).pc) =
      if v = w then s.pc else relAddr rel s := by
    by_cases h : v = w
    · rw [if_neg (by simpa using h), if_pos h]
      rfl
    · rw [if_pos (by simpa using h), if_neg h]
      rfl
  rw [compareBranch, branchIf_eq, hpc]
  refine ⟨rfl, sfrsKept_setSfr (sfrsKept_refl _ s) (by simp) _, ?_, ?_⟩
  · exact pswKept_withBit (pswKept_refl _ s) (psw_setCy (decide (v < w)) s) (by simp)
  · show cy (setCy (decide (v < w)) s) = _
    simp [cy]

/-- Settles O31: each form compares and branches. -/
theorem compareBranches : Obligations.CompareBranches := by
  unfold Obligations.CompareBranches
  intro n i d imm rel s
  exact ⟨⟨_, rfl, compared_compareBranch _ _ _ _ _⟩, ⟨_, rfl, compared_compareBranch _ _ _ _ s⟩,
    ⟨_, next_register 0b10111 n rfl, compared_compareBranch _ _ _ _ s⟩,
    ⟨_, next_pointer 0b1011011 i rfl, compared_compareBranch _ _ _ _ s⟩⟩

/-- The branch of a decrement is taken unless the operand was 1. -/
theorem branchIf_decrement (v : Byte) (rel : Int) (s : State) :
    branchIf (v - 1 != 0x00) rel s = { s with pc := if v = 1 then s.pc else relAddr rel s } := by
  rw [branchIf_eq]
  by_cases hv : v = 1
  · subst hv
    rfl
  · have hne : v - 1 ≠ 0x00 := by bv_omega
    rw [if_pos (by simpa using hne), if_neg hv]

/-- Settles O32: the store of the operand less one, and the branch. -/
theorem decrementBranches : Obligations.DecrementBranches := by
  unfold Obligations.DecrementBranches
  intro n d rel s
  constructor
  · obtain ⟨⟨_, hkept⟩, hbyte⟩ := byteStored_setIram 0xD8 (regAddr n s) (readReg n s - 1) s
    have hexec : exec (.djnzRn n rel) s = .next (charge (0b11011#5 ++ n) { setIram (regAddr n s) (readReg n s - 1) s with
        pc := if readReg n s = 1 then s.pc else relAddr rel s }) := by
      rw [exec, execDjnzRn, branchIf_decrement]
      rfl
    exact ⟨_, next_register 0b11011 n hexec, rfl, hbyte, hkept⟩
  · refine ⟨_, _, rfl, storedDirect_dirWrite _ _ _, ?_⟩
    rw [branchIf_decrement]
    rfl

end Sys2Proof.Machine
end

section
/-! PROOFS. One cycle of a unit (60_exceptions.md R501 to R514): its stops, its breakpoint check, its clock and its fault
policy. -/

namespace Sys2Proof.Machine

/-! ### The epilogue (R506) -/

/-- The parity of a byte, bit by bit from the lowest. -/
theorem parity_eq_foldl : ∀ a : Byte,
    parity a = ((List.finRange 8).map fun k => a.getLsbD k.val).foldl xor false := by decide +kernel

/-- Settles O42: the epilogue stores one bit of PSW, or nothing. -/
theorem epilogueSetsParity : Obligations.EpilogueSetsParity := by
  unfold Obligations.EpilogueSetsParity
  intro s
  refine ⟨fun htrack => ?_, fun htrack => by rw [epilogue, if_neg (by simp [htrack])]⟩
  have hepilogue : epilogue s = setPsw (withBit (psw s) 0 (parity (acc s))) s := if_pos htrack
  have hpsw : psw (epilogue s) = withBit (psw s) 0 (parity (acc s)) := by
    rw [hepilogue, setPsw, psw, sfrGet_setSfr, if_pos rfl]
  refine ⟨epilogue_eq s, ?_, pswKept_withBit (pswKept_refl _ s) hpsw (by simp), ?_⟩
  · rw [hepilogue]
    exact sfrsKept_setSfr (sfrsKept_refl _ s) (by simp) _
  · rw [hpsw, bitOf_withBit, if_pos rfl, parity_eq_foldl]

/-! ### When a unit takes no cycle -/

theorem step_of_halted {s : State} (h : s.halted = true) : step s = .fault .unitHalted := by
  rw [step, unitStep, if_pos (by simp [runEnded, h]), if_pos h]

theorem step_of_stopped {s : State} (hh : s.halted = false) (hr : s.runFlag = false) (hw : inWait s = false) :
    step s = .fault .runFlagClear := by
  rw [step, unitStep, if_pos (by simp [runEnded, hh, hr, hw]), if_neg (by simp [hh])]

theorem syncCheck_blocked {s : State} {y : Sync} (hs : s.sync = some y) (hb : y.blocked = true)
    (hw : y.waiting = true) : syncCheck s = .wait s := by
  simp [syncCheck, hs, hb, hw]

theorem runEnded_of_blocked {s : State} {y : Sync} (hs : s.sync = some y) (hh : s.halted = false)
    (hb : y.blocked = true) : runEnded s = false := by
  simp [runEnded, inWait, hs, hh, hb]

theorem step_of_clockEnd {s u : State} (h : runEnded s = false) (hr : syncCheck s = .run u)
    (ht : Tick.inf - 1 ≤ s.ticks) : step s = .refused .clockLimit := by
  have hu : u.ticks = s.ticks := by rw [syncCheck_frame (.inl hr)]
  unfold step unitStep
  simp only [h, hr, Bool.false_eq_true, if_false]
  rw [if_pos (by rw [hu]; exact ht)]

/-- Settles O43: by which of the checks before a cycle stops it. -/
theorem haltedOrStoppedUnitTakesNoCycle : Obligations.HaltedOrStoppedUnitTakesNoCycle := by
  unfold Obligations.HaltedOrStoppedUnitTakesNoCycle
  intro s
  refine ⟨step_of_halted, fun hh hr hy => step_of_stopped hh hr ?_, fun y hs hh hb hw => ?_, fun u hh hr hs ht => ?_⟩
  · cases hs : s.sync with
    | none => simp [inWait, hs]
    | some y => simp [inWait, hs, hy y hs]
  · exact step_of_wait (runEnded_of_blocked hs hh hb) (syncCheck_blocked hs hb hw)
  · exact step_of_clockEnd (by simp [runEnded, hh, hr]) hs ht

/-! ### The interrupt check and the breakpoint check -/

/-- Where arbitration dispatches nothing, the interrupt check clears irq_recheck (R524). -/
theorem interruptCheck_of_quiet {s : State} (h : s.irqRecheck = true → irqChoice s = none) :
    interruptCheck s = { s with irqRecheck := false } := by
  unfold interruptCheck
  split
  · next hflag => rw [arbitrate_of_none (h hflag)]
  · next hflag => simp only [← Bool.eq_false_iff.2 hflag]

/-- The state from which a unit that may take a cycle runs Step. -/
theorem fetchingState_of_run {s u : State} (h : runEnded s = false) (hr : syncCheck s = .run u)
    (ht : u.ticks < clockEnd) : fetchingState s = stepEntry (interruptCheck u) := by
  have hclock : ¬ u.ticks ≥ clockEnd := BitVec.not_le.2 ht
  rw [fetchingState, if_neg (by simp [h]), hr]
  exact if_neg hclock

theorem runEnded_of_mayCycle {s : State} (h : mayCycle s) : runEnded s = false := by
  obtain ⟨hh, hr, _⟩ := h
  simp [runEnded, hh, hr]

theorem fetchingState_of_mayCycle {s : State} (h : mayCycle s) : fetchingState s = stepEntry (interruptCheck s) :=
  fetchingState_of_run (runEnded_of_mayCycle h) h.2.2.2 h.2.2.1

theorem traceOf_of_none {s : State} (h : fetchingState s = none) : traceOf s = none := by rw [traceOf, h]

theorem traceOf_of_some {s w t : State} (h : fetchingState s = some w)
    (hx : exec (fetchInstr w) (advancePc w) = .next t) : traceOf s = some (traceRecord w (epilogue t)) := by
  rw [traceOf, h]
  show (match exec (fetchInstr w) (advancePc w) with
    | .next t => some (traceRecord w (epilogue t))
    | .fault _ => none
    | .refused _ => none) = _
  rw [hx]

/-- Settles O44: the breakpoint is looked at after an interrupt check that dispatches nothing. -/
theorem breakpointCheck : Obligations.BreakpointCheck := by
  unfold Obligations.BreakpointCheck
  intro s hmay hquiet hdelay hbreak
  have hcheck := interruptCheck_of_quiet hquiet
  have hcontains : s.cfg.breakpoints.contains s.pc = true := by simpa using hbreak
  refine ⟨fun hstop => ⟨traceOf_of_none ?_, ?_⟩, fun hgo => ?_⟩
  · rw [fetchingState_of_mayCycle hmay, hcheck]
    simp [stepEntry, hdelay, hbreak, hstop]
  · rw [step_of_mayCycle hmay, cycleBody, hcheck, afterInterrupts, if_pos hdelay, fetchStage, if_pos hcontains,
      if_neg (by simp [hstop])]
    rfl
  · rw [step_of_mayCycle hmay, cycleBody, hcheck, afterInterrupts, if_pos hdelay, fetchStage, if_pos hcontains,
      if_pos hgo]
    rfl

/-! ### The fields of a cycle -/

/-- The end of a cycle leaves previous_pc. -/
theorem finishCycle_previousPc (n : Nat) (s : State) : (finishCycle n s).previousPc = s.previousPc := by
  have htick := hardwareTick_field (·.previousPc) (fun _ _ _ _ => rfl) (fun _ _ => rfl) (fun _ _ => rfl) (fun _ _ => rfl)
    (fun _ _ _ => rfl) (fun _ => rfl) { s with tickDelay := s.tickDelay - 1 }
  unfold finishCycle faultPolicy
  dsimp only
  split <;> exact htick

theorem interruptCheck_previousPc (s : State) : (interruptCheck s).previousPc = s.previousPc := by
  unfold interruptCheck arbitrate
  split
  · split
    · next b _ => exact (dispatch_fields b.1 b.2 s).2.2.2.2.2.2.2
    · rfl
  · rfl

/-! ### The fault log (R511, R513) -/

/-- Every part of a cycle appends to the fault log. -/
theorem faultsExtend_closed (fs : List FaultRecord) : CycleClosed fun s => fs <+: s.faults where
  implicit := fun _ _ _ _ h => h
  iram := fun _ _ _ h => h
  read := dirRead_keeps fun _ _ _ _ _ h => h.trans (List.prefix_append _ _)
  direct := dirWrite_keeps (fun _ _ _ h => h) (fun _ _ _ h => h) (fun _ _ _ _ _ h => h.trans (List.prefix_append _ _))
    (fun _ _ h => h)
  xdata := fun a v s h => by
    unfold xdataWrite
    split
    · exact h
    · exact h.trans (List.prefix_append _ _)
  goto := fun _ _ h => h
  cost := fun _ _ h => h
  report := fun _ _ _ h => h.trans (List.prefix_append _ _)
  random := fun _ h => h
  effect := fun _ _ _ _ _ h => h.trans (List.prefix_append _ _)
  complete := fun _ _ h => h
  attention := fun _ _ h => h
  bus := fun _ _ h => h
  fetch := fun _ h => h
  clear := fun _ _ _ _ _ _ h => h
  level := fun _ _ _ h => h
  flag := fun _ _ h => h
  stop := fun _ h => h
  clock := fun _ h => h
  breakpoint := fun _ h => h.trans (List.prefix_append _ _)
  rendezvous := fun _ _ _ _ h => h

/-- The end of a cycle halts a unit when a fault since the log had `n` entries has CONTINUE false. -/
theorem finishCycle_halted (n : Nat) (s : State) : (finishCycle n s).halted =
    (s.halted || ((finishCycle n s).faults.drop n).any fun f => decide (f.kind ∈ s.cfg.stopOn)) := by
  have hstop : ∀ f : FaultRecord, (!s.cfg.continues f.kind) = decide (f.kind ∈ s.cfg.stopOn) := fun f => by
    simp [Config.continues]
  unfold finishCycle faultPolicy
  simp only [hardwareTick_cfg, hstop]
  split
  · next h => simp [h]
  · next h => simp [h]

/-- A step, by how it ends: in the wait of SyncCheck, at a halting breakpoint, or by the end of a cycle from a state `z`
with the parameters, the clock, `halted` and the run flag of `s`. -/
theorem step_ends {s t : State} (h : step s = .next t) :
    runEnded s = false ∧
    (syncCheck s = .wait t ∨ ∃ u, syncCheck s = .run u ∧ u.ticks < clockEnd ∧
      ((s.cfg.continues .breakpoint = false ∧ t = { reportBreakpoint (interruptCheck u) with halted := true }) ∨
       ∃ z, t = finishCycle s.faults.length z ∧ z.cfg = s.cfg ∧ z.ticks = s.ticks ∧ z.halted = s.halted ∧
         z.sync = u.sync)) := by
  obtain ⟨hrun, hwait | ⟨u, v, hu, htick, rfl, hcase⟩⟩ := step_next_cases h
  · exact ⟨hrun, .inl hwait⟩
  have hframe := syncCheck_frame (.inl hu)
  have hfaults : u.faults.length = s.faults.length := by rw [hframe]
  have hus : u.cfg = s.cfg ∧ u.ticks = s.ticks ∧ u.halted = s.halted := by rw [hframe]; exact ⟨rfl, rfl, rfl⟩
  obtain ⟨hcfg, hticks, hhalted⟩ := hus
  obtain ⟨hicfg, hiticks, hihalted, hisync⟩ := interruptCheck_fields u
  refine ⟨hrun, .inr ⟨u, hu, htick, ?_⟩⟩
  rcases hcase with ⟨_, rfl⟩ | ⟨_, _, hstop, rfl⟩ | ⟨_, w, x, hw, hexec, rfl⟩
  · exact .inr ⟨_, by rw [hfaults], hicfg.trans hcfg, hiticks.trans hticks, hihalted.trans hhalted, hisync⟩
  · exact .inl ⟨by rwa [hicfg, hcfg] at hstop, rfl⟩
  · have hwv : w.cfg = (interruptCheck u).cfg ∧ w.ticks = (interruptCheck u).ticks ∧
        w.halted = (interruptCheck u).halted ∧ w.sync = (interruptCheck u).sync := by
      rcases hw with ⟨rfl, _⟩ | ⟨rfl, _⟩ <;> exact ⟨rfl, rfl, rfl, rfl⟩
    obtain ⟨hwcfg, hwticks, hwhalted, hwsync⟩ := hwv
    obtain ⟨hxcfg, hxticks, hxhalted, hxsync, _⟩ := exec_fields hexec
    refine .inr ⟨epilogue x, by rw [hfaults], ?_⟩
    rw [epilogue_eq]
    exact ⟨hxcfg.trans (hwcfg.trans (hicfg.trans hcfg)), hxticks.trans (hwticks.trans (hiticks.trans hticks)),
      hxhalted.trans (hwhalted.trans (hihalted.trans hhalted)), hxsync.trans (hwsync.trans hisync)⟩

theorem halted_of_runEnded {s : State} (h : runEnded s = false) : s.halted = false := by
  simp only [runEnded, Bool.or_eq_false_iff] at h
  exact h.1

/-- The BREAKPOINT record of a halting step stands among the records of that step. -/
theorem breakpoint_mem_drop {s u : State} (hu : syncCheck s = .run u) :
    ⟨.breakpoint, (interruptCheck u).pc, .none⟩ ∈
      ({ reportBreakpoint (interruptCheck u) with halted := true } : State).faults.drop s.faults.length := by
  have hus : s.faults <+: u.faults := by rw [syncCheck_frame (.inl hu)]
  obtain ⟨fs, hfs⟩ := (faultsExtend_closed s.faults).interruptCheck u hus
  show _ ∈ ((interruptCheck u).faults ++ [_]).drop _
  rw [← hfs, List.append_assoc, List.drop_left]
  simp

end Sys2Proof.Machine

namespace Sys2Proof

open Machine

/-- Settles O47: a cycle that ends by `finishCycle` halts by the fault policy; the halting breakpoint is such a record. -/
theorem faultPolicy : Obligations.FaultPolicy := by
  unfold Obligations.FaultPolicy
  intro s t hstep
  obtain ⟨fs, hfs⟩ := (faultsExtend_closed s.faults).step (List.prefix_rfl) hstep
  have hdrop : t.faults.drop s.faults.length = fs := by rw [← hfs, List.drop_left]
  refine ⟨fs, hfs.symm, ?_⟩
  obtain ⟨hrun, hwait | ⟨u, hu, _, ⟨hstop, rfl⟩ | ⟨z, rfl, hcfg, _, hhalted, _⟩⟩⟩ := step_ends hstep
  · have hframe := syncCheck_frame (.inr hwait)
    have hnil : fs = [] := by rw [← hdrop, hframe]; exact List.drop_length
    rw [hnil, hframe]
    show s.halted = false
    exact halted_of_runEnded hrun
  · have hmem := breakpoint_mem_drop hu
    rw [hdrop] at hmem
    refine (List.any_eq_true.2 ⟨_, hmem, ?_⟩).symm
    simpa [Config.continues] using hstop
  · rw [finishCycle_halted, hdrop, hcfg, hhalted, halted_of_runEnded hrun, Bool.false_or]

end Sys2Proof

namespace Sys2Proof.Machine

/-! ### The clock (R540, R548) -/

/-- A unit that waits has its rendezvous in the wait. -/
theorem inWait_of_syncCheck {s t : State} (h : syncCheck s = .wait t) :
    ∃ y ∈ t.sync, y.waiting = true ∧ y.blocked = true := by
  unfold syncCheck at h
  split at h
  · cases h
  next y hy =>
  split at h
  · next hblocked =>
    split at h
    · next hwaiting => cases h; exact ⟨y, hy, hwaiting, hblocked⟩
    · cases h
  · split at h
    · cases h; exact ⟨_, rfl, rfl, rfl⟩
    · cases h

theorem toNat_inf : Tick.inf.toNat = 2 ^ 64 - 1 := rfl

theorem toNat_clockEnd : clockEnd.toNat = 2 ^ 64 - 2 := rfl

/-- Settles O46: by how a step ends. -/
theorem clockAdvancesByOne : Obligations.ClockAdvancesByOne := by
  unfold Obligations.ClockAdvancesByOne
  intro s t hstep
  obtain ⟨_, hwait | ⟨u, hu, hend, ⟨_, rfl⟩ | ⟨z, rfl, _, hticks, _, _⟩⟩⟩ := step_ends hstep
  · refine .inr (.inl ⟨by rw [syncCheck_frame (.inr hwait)], ?_⟩)
    exact inWait_of_syncCheck hwait
  · refine .inr (.inr ⟨?_, rfl, _, breakpoint_mem_drop hu, rfl⟩)
    show (interruptCheck u).ticks = s.ticks
    rw [(interruptCheck_fields u).2.1, syncCheck_frame (.inl hu)]
  · have hus : u.ticks = s.ticks := by rw [syncCheck_frame (.inl hu)]
    have ht : (finishCycle s.faults.length z).ticks = s.ticks + 1 := by
      rw [(finishCycle_fields _ z).2.1, hticks]
    refine .inl ⟨ht, ?_⟩
    rw [ht]
    rw [hus, BitVec.lt_def, toNat_clockEnd] at hend
    rw [BitVec.lt_def, toNat_inf]
    bv_omega

/-! ### Code memory -/

/-- With no peripheral attached, every part of a cycle leaves code memory. -/
theorem codeKept_closed (c : Memory) : CycleClosed fun s => s.peripherals = [] ∧ s.code = c where
  implicit := fun _ _ _ _ h => h
  iram := fun _ _ _ h => h
  read := dirRead_keeps fun _ _ _ _ hp h => by simp [h.1] at hp
  direct := dirWrite_keeps (fun _ _ _ h => h) (fun _ _ _ h => h) (fun _ _ _ _ hp h => by simp [h.1] at hp)
    (fun _ _ h => h)
  xdata := fun a v s h => by rw [xdataWrite_eq]; exact h
  goto := fun _ _ h => h
  cost := fun _ _ h => h
  report := fun _ _ _ h => h
  random := fun _ h => h
  effect := fun _ _ _ _ hp h => by simp [h.1] at hp
  complete := fun k s h => by simp [completeOperations, h.1, h.2]
  attention := fun _ _ h => h
  bus := fun _ _ h => h
  fetch := fun _ h => h
  clear := fun _ _ _ _ _ _ h => h
  level := fun _ _ _ h => h
  flag := fun _ _ h => h
  stop := fun _ h => h
  clock := fun _ h => h
  breakpoint := fun _ h => h
  rendezvous := fun _ _ _ _ h => h

/-- Settles O48: an unattached unit has no effect of a peripheral, and nothing else writes code memory. -/
theorem codeMemoryIsReadOnly : Obligations.CodeMemoryIsReadOnly := by
  unfold Obligations.CodeMemoryIsReadOnly
  intro s t hnone hstep
  exact ((codeKept_closed s.code).step ⟨hnone, rfl⟩ hstep).2

/-! ### The trace (R505, R580) -/

/-- An instruction is the same whatever stands in the operand bytes that its length does not reach. -/
theorem decodeOp_congr {op b1 b2 c1 c2 : Byte} (h : [op, b1, b2].take (lenOf op) = [op, c1, c2].take (lenOf op)) :
    decodeOp op b1 b2 = decodeOp op c1 c2 := by
  have hround : ∀ x y : Byte, decode ([op, x, y].take (lenOf op) ++ []) = .ok (decodeOp op x y, []) := fun x y => by
    obtain ⟨hwf, henc, _⟩ := encodeInvertsDecode op x y
    rw [← henc]
    exact decodeInvertsEncode _ [] hwf
  have hboth := (hround b1 b2).symm.trans (h ▸ hround c1 c2)
  simpa using hboth

/-- The bytes that Step fetches, up to the length of the instruction, are those at pc (R505). -/
theorem fetched_bytes (s : State) :
    [fetchOp s, fetchOperand 1 s, fetchOperand 2 s].take (lenOf (fetchOp s)) =
      [fetchOp s, codeRead (s.pc.toNat + 1) s, codeRead (s.pc.toNat + 2) s].take (lenOf (fetchOp s)) := by
  obtain ⟨hlow, hhigh⟩ := lenOf_bounds (fetchOp s)
  unfold fetchOperand
  generalize hl : lenOf (fetchOp s) = l at hlow hhigh ⊢
  obtain rfl | rfl | rfl : l = 1 ∨ l = 2 ∨ l = 3 := by omega
  all_goals simp

/-- Where the bytes at pc decode to an instruction, Step fetches it, and it is as long as its encoding. -/
theorem fetchInstr_of_decode {s : State} {i : Instr} {rest : List Byte}
    (h : decode [fetchOp s, codeRead (s.pc.toNat + 1) s, codeRead (s.pc.toNat + 2) s] = .ok (i, rest)) :
    fetchInstr s = i ∧ (encode i).length = lenOf (fetchOp s) := by
  obtain ⟨hlow, hhigh⟩ := lenOf_bounds (fetchOp s)
  have hi : decodeOp (fetchOp s) (codeRead (s.pc.toNat + 1) s) (codeRead (s.pc.toNat + 2) s) = i := by
    rw [decode, if_neg (by simp; omega)] at h
    simp only [Except.ok.injEq, Prod.mk.injEq] at h
    exact h.1
  refine ⟨(decodeOp_congr (fetched_bytes s)).trans hi, ?_⟩
  rw [← hi, (encodeInvertsDecode _ _ _).2.1, List.length_take]
  exact Nat.min_eq_left hhigh

/-- Step is run from a state with the clock of `s`. -/
theorem fetchingState_ticks {s w : State} (h : fetchingState s = some w) : w.ticks = s.ticks := by
  have hentry : ∀ {v : State}, stepEntry v = some w → w.ticks = v.ticks := fun {v} hv => by
    unfold stepEntry at hv
    split at hv
    · split at hv
      · split at hv
        · cases hv; rfl
        · cases hv
      · cases hv; rfl
    · cases hv
  unfold fetchingState at h
  split at h
  · cases h
  · split at h
    · cases h
    · next u hu =>
      split at h
      · cases h
      · rw [hentry h, (interruptCheck_fields u).2.1, syncCheck_frame (.inl hu)]

/-- A step that runs Step from `w` emits its record, with the clock and the address of the fetch. -/
theorem traceOf_of_fetch {s t w : State} (hfetch : fetchingState s = some w) (hstep : step s = .next t) :
    ∃ r, traceOf s = some r ∧ r.ticks = s.ticks ∧ r.previousPc = t.previousPc := by
  obtain ⟨u, _, hrun⟩ := step_of_fetchingState hfetch
  obtain ⟨x, hexec⟩ := exec_next (fetchInstr w) (advancePc w)
  have hclock : (advancePc w).ticks = s.ticks := fetchingState_ticks (w := w) hfetch
  refine ⟨_, traceOf_of_some hfetch hexec, ?_, ?_⟩
  · rw [traceRecord, epilogue_eq]
    exact (exec_fields hexec).2.1.trans hclock
  · rw [hrun, executeInstr, hexec] at hstep
    cases hstep
    rw [finishCycle_previousPc, traceRecord]

/-- A step that runs no Step leaves previous_pc: it waits, counts down, or halts at a breakpoint. -/
theorem step_previousPc {s t : State} (hfetch : fetchingState s = none) (hstep : step s = .next t) :
    t.previousPc = s.previousPc := by
  obtain ⟨hrun, hwait | ⟨u, v, hu, htick, rfl, hcase⟩⟩ := step_next_cases hstep
  · rw [syncCheck_frame (.inr hwait)]
  have hchecked : (interruptCheck u).previousPc = s.previousPc := by
    rw [interruptCheck_previousPc, syncCheck_frame (.inl hu)]
  rw [fetchingState_of_run hrun hu htick] at hfetch
  rcases hcase with ⟨_, rfl⟩ | ⟨_, _, _, rfl⟩ | ⟨hdelay, w, x, hw, _, _⟩
  · exact (finishCycle_previousPc _ _).trans hchecked
  · exact hchecked
  · rcases hw with ⟨_, hbreak⟩ | ⟨_, hgo⟩
    · simp [stepEntry, hdelay, hbreak] at hfetch
    · simp only [stepEntry, hdelay, hgo, if_true] at hfetch
      split at hfetch <;> cases hfetch

/-- Settles O40: a fetch runs the instruction that the bytes at pc decode to, and its record is what Step leaves. -/
theorem stepRunsDecodedInstruction : Obligations.StepRunsDecodedInstruction := by
  unfold Obligations.StepRunsDecodedInstruction
  refine ⟨fun i rest bytes s hmay hquiet hdelay hbreak hbytes hdecode t hexec => ?_, fun s t hstep => ?_⟩
  · have hentry : stepEntry (interruptCheck s) = some { s with irqRecheck := false } := by
      rw [interruptCheck_of_quiet hquiet, stepEntry, if_pos hdelay, if_neg (by simpa using hbreak)]
    obtain ⟨hinstr, hlen⟩ := fetchInstr_of_decode (s := { s with irqRecheck := false }) (hbytes ▸ hdecode)
    have hrun : exec (fetchInstr { s with irqRecheck := false }) (advancePc { s with irqRecheck := false }) = .next t := by
      rw [hinstr, advancePc, ← hlen]
      exact hexec
    refine ⟨by rw [step_of_mayCycle hmay, cycleBody_of_stepEntry hentry, executeInstr, hrun], ?_⟩
    obtain ⟨_, hticks, _, _, _, hprevious⟩ := exec_fields hexec
    have hleft : (epilogue t).ticks = s.ticks ∧ (epilogue t).previousPc = s.pc := by
      rw [epilogue_eq]
      exact ⟨hticks, hprevious⟩
    rw [traceOf_of_some ((fetchingState_of_mayCycle hmay).trans hentry) hrun, traceRecord, fetched_bytes, hbytes, hlen,
      hleft.1, hleft.2]
    rfl
  · cases hfetch : fetchingState s with
    | none => exact .inl ⟨traceOf_of_none hfetch, step_previousPc hfetch hstep⟩
    | some w => exact .inr (traceOf_of_fetch hfetch hstep)

end Sys2Proof.Machine
end

section
/-! PROOFS. A unit that counts down the remainder of an instruction (R549), and the driver's begin_event_at on it (R576). -/

namespace Sys2Proof.Machine

/-! ### A hardware tick with nothing to do (R562) -/

/-- No Deadline of a peripheral has passed while the clock is below every wake time. -/
theorem due_eq_false {s : State} {p : Peripheral} (h : ∀ w ∈ p.wakeTimes, s.ticks < w) : due s p = false := by
  simp only [due, List.any_eq_false, deadlinePassed, decide_eq_true_eq, BitVec.not_le]
  exact h

/-- The cheap exit of the hardware tick. -/
theorem hardwareTick_of_idle {s : State} (hneed : s.needHwTick = false)
    (hdue : ∀ p ∈ s.peripherals, ∀ w ∈ p.wakeTimes, s.ticks < w) : hardwareTick s = s := by
  have hany : s.peripherals.any (due s) = false := by
    simp only [List.any_eq_false]
    exact fun p hp => by simp [due_eq_false (hdue p hp)]
  rw [hardwareTick, hneed, hany]
  rfl

/-! ### Counting down -/

/-- `s` after `k` cycles of counting down. -/
def counted (k : Nat) (s : State) : State :=
  { s with ticks := s.ticks + BitVec.ofNat 64 k, tickDelay := s.tickDelay - k }

/-- The unit counts down for at least `k` cycles: nothing is to arbitrate, to tick, to end or to wait for meanwhile. -/
structure CountsDown (k : Nat) (s : State) : Prop where
  halted : s.halted = false
  running : s.runFlag = true
  quiet : s.irqRecheck = false
  idle : s.needHwTick = false
  delay : (k : Int) < s.tickDelay
  clock : s.ticks.toNat + k < Tick.inf.toNat
  wake : ∀ p ∈ s.peripherals, ∀ w ∈ p.wakeTimes, s.ticks.toNat + k ≤ w.toNat
  sync : ∀ y ∈ s.sync, y.blocked = false ∧ s.ticks.toNat + k ≤ y.deadline.toNat

@[simp] theorem counted_zero (s : State) : counted 0 s = s := by simp [counted]

theorem counted_counted (j k : Nat) (s : State) : counted k (counted j s) = counted (j + k) s := by
  simp [counted, BitVec.add_assoc, BitVec.ofNat_add, Int.sub_sub]

theorem toNat_counted_ticks {k j : Nat} {s : State} (h : CountsDown (j + k) s) :
    (counted j s).ticks.toNat = s.ticks.toNat + j := by
  have hclock := h.clock
  rw [toNat_inf] at hclock
  rw [counted, BitVec.toNat_add, BitVec.toNat_ofNat]
  omega

theorem CountsDown.counted {k j : Nat} {s : State} (h : CountsDown (j + k) s) : CountsDown k (counted j s) := by
  have hticks := toNat_counted_ticks h
  have hsum : ∀ w : Nat, s.ticks.toNat + (j + k : Nat) ≤ w → (Machine.counted j s).ticks.toNat + k ≤ w := fun w hw => by
    omega
  have hdelay := h.delay
  have hclock := h.clock
  refine ⟨h.halted, h.running, h.quiet, h.idle, ?_, by omega, fun p hp w hw => hsum _ (h.wake p hp w hw),
    fun y hy => ⟨(h.sync y hy).1, hsum _ (h.sync y hy).2⟩⟩
  show (k : Int) < s.tickDelay - j
  omega

theorem syncCheck_of_early {s : State} (h : ∀ y ∈ s.sync, y.blocked = false ∧ s.ticks < y.deadline) :
    syncCheck s = .run s := by
  unfold syncCheck
  split
  · rfl
  · next y hy =>
    obtain ⟨hblocked, hearly⟩ := h y hy
    simp only [hblocked, Bool.false_eq_true, if_false]
    exact if_neg (BitVec.not_le.2 hearly)

theorem CountsDown.mayCycle {k : Nat} {s : State} (h : CountsDown (k + 1) s) : mayCycle s := by
  have hclock := h.clock
  rw [toNat_inf] at hclock
  refine ⟨h.halted, h.running, ?_, syncCheck_of_early fun y hy => ?_⟩
  · rw [BitVec.lt_def, toNat_clockEnd]; omega
  · obtain ⟨hblocked, hearly⟩ := h.sync y hy
    exact ⟨hblocked, by rw [BitVec.lt_def]; omega⟩

/-- One cycle of counting down. -/
theorem CountsDown.step {k : Nat} {s : State} (h : CountsDown (k + 1) s) : step s = .next (Machine.counted 1 s) := by
  have hdelay := h.delay
  have htick : hardwareTick { s with tickDelay := s.tickDelay - 1 } = { s with tickDelay := s.tickDelay - 1 } :=
    hardwareTick_of_idle h.idle fun p hp w hw => by
      have := h.wake p hp w hw
      show s.ticks < w
      rw [BitVec.lt_def]
      omega
  have hcheck : interruptCheck s = s := by rw [interruptCheck, h.quiet]; rfl
  rw [step_of_mayCycle h.mayCycle, cycleBody, hcheck, afterInterrupts, if_neg (by omega), finishCycle, htick, faultPolicy,
    if_neg (by simp)]
  rfl

/-- A run whose first step answers a next state goes on from there. -/
theorem run_of_step {M : Host.Core} {k : Nat} {s t : M.State} (h : M.step s = .next t) :
    M.run (k + 1) s = M.run k t := by
  rw [Host.Core.run, h]

/-- `k` cycles of counting down. -/
theorem CountsDown.run : ∀ {k : Nat} {s : State}, CountsDown k s → Sys2Proof.core.run k s = .next (Machine.counted k s)
  | 0, s, _ => by rw [counted_zero]; rfl
  | k + 1, s, h => by
    have hone : CountsDown (1 + k) s := by rwa [Nat.add_comm]
    have hrest := hone.counted.run
    rw [counted_counted, Nat.add_comm] at hrest
    exact (run_of_step (M := Sys2Proof.core) h.step).trans hrest

/-- Settles O45: a unit that counts down. -/
theorem fastForwardIsKCycles : Obligations.FastForwardIsKCycles := by
  unfold Obligations.FastForwardIsKCycles
  intro k s hhalted hrunning hquiet hidle hdelay hclock hwake hsync
  exact CountsDown.run ⟨hhalted, hrunning, hquiet, hidle, hdelay, hclock, hwake, hsync⟩

/-! ### The driver waits for a unit that counts down (R576) -/

/-- While the unit counts down, the driver waits. -/
theorem CountsDown.awaitUnit {k : Nat} (j : Nat) : ∀ {s : State}, CountsDown k s → unitWaits s = false →
    Machine.awaitUnit (k + j) s = Machine.awaitUnit j (Machine.counted k s) := by
  induction k with
  | zero => intro s _ _; rw [counted_zero, Nat.zero_add]
  | succ k ih =>
    intro s h hwaits
    have hone : CountsDown (1 + k) s := by rwa [Nat.add_comm]
    rw [Nat.succ_add, Machine.awaitUnit, if_neg (by simp [hwaits]), h.step]
    show Machine.awaitUnit (k + j) (Machine.counted 1 s) = _
    rw [ih hone.counted hwaits, counted_counted, Nat.add_comm 1 k]

/-- A running unit at its deadline enters the wait. -/
theorem step_at_deadline {s : State} {y : Sync} (hs : s.sync = some y) (hh : s.halted = false) (hr : s.runFlag = true)
    (hb : y.blocked = false) (hd : y.deadline ≤ s.ticks) :
    step s = .next { s with sync := some { y with waiting := true, blocked := true } } := by
  refine step_of_wait (by simp [runEnded, hh, hr]) ?_
  simp [syncCheck, hs, hb, hd]

/-- Settles O59: the unit counts down to the deadline, enters the wait there, and the window opens. -/
theorem beginEventAtReturns : Obligations.BeginEventAtReturns := by
  unfold Obligations.BeginEventAtReturns
  intro k w s hs hhalted hrunning hquiet hidle hdelay hclock hwake
  have hD : (s.ticks + BitVec.ofNat 64 k).toNat = s.ticks.toNat + k := by
    rw [toNat_inf] at hclock
    rw [BitVec.toNat_add, BitVec.toNat_ofNat]
    omega
  have hcounts : CountsDown k { s with sync := some ⟨s.ticks + BitVec.ofNat 64 k, false, false, false⟩ } :=
    ⟨hhalted, hrunning, hquiet, hidle, hdelay, hclock, hwake, fun y hy => by
      obtain rfl := Option.some.inj hy
      exact ⟨rfl, hD.ge⟩⟩
  have hawait := hcounts.awaitUnit 3 rfl
  have henter := step_at_deadline (s := counted k { s with sync := some ⟨s.ticks + BitVec.ofNat 64 k, false, false, false⟩ })
    rfl hhalted hrunning rfl (BitVec.le_refl _)
  have hfuel : (s.ticks + BitVec.ofNat 64 k).toNat - s.ticks.toNat + 3 = k + 3 := by omega
  have hbegin : beginEvent (s.ticks + BitVec.ofNat 64 k) s = .next { s with
      ticks := s.ticks + BitVec.ofNat 64 k, tickDelay := s.tickDelay - k,
      sync := some ⟨s.ticks + BitVec.ofNat 64 k, true, true, true⟩ } := by
    rw [beginEvent, hs]
    dsimp only
    rw [if_neg (by simp), hfuel, hawait, awaitUnit, if_neg (by simp [counted, unitWaits]), henter]
    rfl
  rw [beginEventAt, if_neg (by rw [BitVec.not_lt, BitVec.le_def]; omega), hbegin]
  exact if_pos rfl

end Sys2Proof.Machine
end

section
/-! PROOFS. The rendezvous of a unit and its driver (60_exceptions.md R571 to R577, R582, R583). -/

namespace Sys2Proof.Machine

/-! ### What no step changes -/

/-- Every part of a cycle leaves the parameters, the run flag and what is fixed of the devices. -/
theorem attachmentsKept_closed (c : Config) (r : Bool) (a : List (Device × List Byte × List Byte × List Byte)) :
    CycleClosed fun s => s.cfg = c ∧ s.runFlag = r ∧ s.peripherals.map attachment = a where
  implicit := fun _ _ _ _ h => h
  iram := fun _ _ _ h => h
  read := dirRead_keeps fun k p e s hp h => ⟨h.1, h.2.1, (applyEffect_devices k p e s hp).trans h.2.2⟩
  direct := dirWrite_keeps (fun _ _ _ h => h) (fun _ _ _ h => h)
    (fun k p e s hp h => ⟨h.1, h.2.1, (applyEffect_devices k p e s hp).trans h.2.2⟩) (fun _ _ h => h)
  xdata := fun a v s h => by rw [xdataWrite_eq]; exact h
  goto := fun _ _ h => h
  cost := fun _ _ h => h
  report := fun _ _ _ h => h
  random := fun _ h => h
  effect := fun k p e s hp h => ⟨h.1, h.2.1, (applyEffect_devices k p e s hp).trans h.2.2⟩
  complete := fun k s h => ⟨h.1, h.2.1, (completeOperations_devices k s).trans h.2.2⟩
  attention := fun _ _ h => h
  bus := fun _ _ h => h
  fetch := fun _ h => h
  clear := fun _ _ _ _ _ _ h => h
  level := fun _ _ _ h => h
  flag := fun _ _ h => h
  stop := fun _ h => h
  clock := fun _ h => h
  breakpoint := fun _ h => h
  rendezvous := fun _ _ _ _ h => h

/-- Of the rendezvous state a step changes what SyncCheck changes. -/
theorem step_sync {s t : State} (h : step s = .next t) :
    ∃ u, (syncCheck s = .run u ∨ syncCheck s = .wait u) ∧ t.sync = u.sync := by
  obtain ⟨_, hwait | ⟨u, hu, _, ⟨_, rfl⟩ | ⟨z, rfl, _, _, _, hsync⟩⟩⟩ := step_ends h
  · exact ⟨t, .inr hwait, rfl⟩
  · exact ⟨u, .inl hu, (interruptCheck_fields u).2.2.2⟩
  · exact ⟨u, .inl hu, (finishCycle_fields _ z).2.2.2.2.1.trans hsync⟩

theorem syncOk_iff {s : State} {y : Sync} (h : s.sync = some y) :
    syncOk s = true ↔ (y.waiting = true → y.blocked = true) ∧ (y.inWindow = true → y.waiting = true) := by
  simp [syncOk, h, imp_iff_not_or]

/-- SyncCheck opens and closes no window, and keeps the rendezvous state sound. -/
theorem syncCheck_keeps {s u : State} (h : syncCheck s = .run u ∨ syncCheck s = .wait u) :
    u.sync.isSome = s.sync.isSome ∧ windowOpen u = windowOpen s ∧ (syncOk s = true → syncOk u = true) := by
  unfold syncCheck at h
  split at h
  · rcases h with h | h <;> cases h
    exact ⟨rfl, rfl, id⟩
  next y hy =>
  rw [syncOk_iff hy]
  split at h
  · next hblocked =>
    split at h
    · rcases h with h | h <;> cases h
      exact ⟨rfl, rfl, fun hok => (syncOk_iff hy).2 hok⟩
    · next hwaiting =>
      rcases h with h | h <;> cases h
      refine ⟨by rw [hy]; rfl, by simp only [windowOpen, hy]; rfl, fun hok =>
        (syncOk_iff (y := { y with blocked := false }) rfl).2 ⟨?_, hok.2⟩⟩
      exact fun hw => absurd hw hwaiting
  · split at h
    · rcases h with h | h <;> cases h
      exact ⟨by rw [hy]; rfl, by simp only [windowOpen, hy]; rfl, fun _ => (syncOk_iff rfl).2 ⟨fun _ => rfl, fun _ => rfl⟩⟩
    · rcases h with h | h <;> cases h
      exact ⟨rfl, rfl, fun hok => (syncOk_iff hy).2 hok⟩

/-- Every step keeps the rendezvous state sound, and leaves whether a window is open. -/
theorem step_keeps_sync {s t : State} (h : step s = .next t) :
    t.sync.isSome = s.sync.isSome ∧ windowOpen t = windowOpen s ∧ (syncOk s = true → syncOk t = true) := by
  obtain ⟨u, hu, hsync⟩ := step_sync h
  have hkeeps := syncCheck_keeps hu
  unfold windowOpen syncOk at hkeeps ⊢
  rwa [hsync]

/-! ### The driver's calls -/

theorem syncOk_endEvent (n : Tick) (s : State) : syncOk (endEvent n s) = true := by
  cases h : s.sync with
  | none => simp [syncOk, endEvent, h]
  | some y => simp [syncOk, endEvent, h]

/-- What a begin_event that returns leaves: a waiting unit in an open window, the rendezvous state sound. -/
theorem beginEvent_leaves {d : Tick} {s t : State} (hok : syncOk s = true) (h : beginEvent d s = .next t) :
    ∃ y, t.sync = some y ∧ y.inWindow = true ∧ y.waiting = true ∧ y.blocked = true := by
  obtain ⟨y, u, hy, _, rfl, hwaits, hawait⟩ := beginEvent_next h
  have hsome : syncOk { s with sync := some { y with deadline := d } } = true :=
    (syncOk_iff (y := { y with deadline := d }) rfl).2 ((syncOk_iff hy).1 hok)
  have hu : syncOk u = true :=
    awaitUnit_keeps (P := fun v => syncOk v = true) (fun _ _ hv hstep => (step_keeps_sync hstep).2.2 hv) hsome hawait
  cases hs : u.sync with
  | none => simp [unitWaits, hs] at hwaits
  | some z =>
    have hz : z.waiting = true := by simpa [unitWaits, hs] using hwaits
    exact ⟨{ z with inWindow := true }, by simp [openWindow, hs], rfl, hz, ((syncOk_iff hs).1 hu).1 hz⟩

/-- A begin_event_at that returns leaves what a begin_event leaves, the clock at its deadline. -/
theorem beginEventAt_leaves {d : Tick} {s t : State} (hok : syncOk s = true) (h : beginEventAt d s = .next t) :
    t.ticks = d ∧ ∃ y, t.sync = some y ∧ y.inWindow = true ∧ y.waiting = true ∧ y.blocked = true := by
  obtain ⟨hticks, hbegin | ⟨u, _, hbegin⟩⟩ := beginEventAt_next h
  · exact ⟨hticks, beginEvent_leaves hok hbegin⟩
  · exact ⟨hticks, beginEvent_leaves (syncOk_endEvent d u) hbegin⟩

theorem syncOk_of_window {s : State} (h : ∃ y, s.sync = some y ∧ y.inWindow = true ∧ y.waiting = true ∧ y.blocked = true) :
    syncOk s = true := by
  obtain ⟨y, hy, _, hwaiting, hblocked⟩ := h
  exact (syncOk_iff hy).2 ⟨fun _ => hblocked, fun _ => hwaiting⟩

/-- Settles O56: the parts of a cycle leave the fixed parts, and SyncCheck and the driver keep the rendezvous state. -/
theorem stepKeepsParametersAndAttachments : Obligations.StepKeepsParametersAndAttachments := by
  unfold Obligations.StepKeepsParametersAndAttachments
  refine ⟨fun s t hstep => ?_, fun d n s hok => ⟨syncOk_endEvent n s, fun t h => ?_, fun t h => ?_⟩⟩
  · obtain ⟨hcfg, hrun, hdevices⟩ := (attachmentsKept_closed s.cfg s.runFlag _).step ⟨rfl, rfl, rfl⟩ hstep
    obtain ⟨hsome, hwindow, hok⟩ := step_keeps_sync hstep
    exact ⟨hcfg, hrun, hsome, hdevices, hwindow, hok⟩
  · exact syncOk_of_window (beginEvent_leaves hok h)
  · exact syncOk_of_window (beginEventAt_leaves hok h).2

/-- A unit inside the wait takes no step that changes it. -/
theorem step_of_window {s u : State} (h : ∃ y, s.sync = some y ∧ y.inWindow = true ∧ y.waiting = true ∧ y.blocked = true)
    (hstep : step s = .next u) : u = s := by
  obtain ⟨y, hy, _, hwaiting, hblocked⟩ := h
  have hwait := syncCheck_blocked hy hblocked hwaiting
  obtain ⟨_, hu | ⟨v, hv, _⟩⟩ := step_ends hstep
  · exact (SyncResult.wait.inj (hwait.symm.trans hu)).symm
  · cases hwait.symm.trans hv

/-- Settles O58: by what a call that returns leaves. -/
theorem beginEventAtIsExact : Obligations.BeginEventAtIsExact := by
  unfold Obligations.BeginEventAtIsExact
  intro d s hok
  refine ⟨fun hlt => by rw [beginEventAt, if_pos hlt], fun t h => ?_, fun t h => ?_⟩
  · obtain ⟨y, hy, hwindow, hwaiting, _⟩ := beginEvent_leaves hok h
    exact ⟨by simp [windowOpen, hy, hwindow], by simp [unitWaits, hy, hwaiting]⟩
  · obtain ⟨hticks, hleaves⟩ := beginEventAt_leaves hok h
    refine ⟨hticks, ?_, fun u hstep => step_of_window hleaves hstep⟩
    obtain ⟨y, hy, hwindow, _⟩ := hleaves
    simp [windowOpen, hy, hwindow]

/-! ### The wait, its release, and the driver's writes (R571, R573, R574, R583) -/

/-- A unit that end_event releases goes on with the cycle it has begun. -/
theorem step_endEvent {s : State} {y : Sync} {n : Tick} (hs : s.sync = some y) (hh : s.halted = false)
    (hb : y.blocked = true) (ht : s.ticks < clockEnd) :
    step (endEvent n s) = cycleBody { s with sync := some ⟨n, false, false, false⟩ } := by
  have hend : endEvent n s = { s with sync := some ⟨n, false, true, false⟩ } := by simp [endEvent, hs, hb]
  rw [hend]
  exact step_of_run (runEnded_of_blocked rfl hh rfl) rfl ht

theorem isRequestBit_iff (d : Byte) (b : BitVec 3) (s : State) :
    isRequestBit d b s = true ↔ isSfrAddr d = true ∧ ∃ x ∈ s.cfg.irqTable, (d, b) ∈ condBits x.pending := by
  simp [isRequestBit]

/-- A driver's write of a request bit in an open window. -/
theorem windowRequest_of_open {d : Byte} {b : BitVec 3} (v : Bool) {s : State} (hwindow : windowOpen s = true)
    (hbit : isRequestBit d b s = true) :
    windowRequest d b v s = .next { setSfr d (withBit (sfrGet d s) b v) s with irqRecheck := true } := by
  rw [windowRequest, hwindow, hbit]
  rfl

/-- Settles O57: by the branches of SyncCheck, of end_event and of the driver's two writes. -/
theorem syncCheckBlocksTheUnit : Obligations.SyncCheckBlocksTheUnit := by
  unfold Obligations.SyncCheckBlocksTheUnit
  intro s y hs hh
  have hopen : windowOpen s = y.inWindow := by simp [windowOpen, hs]
  refine ⟨fun hb hr hd => step_at_deadline hs hh hr hb hd, fun hb hw => ⟨?_, fun n ht => step_endEvent hs hh hb ht⟩,
    fun hb hr hd ht => ?_, fun d b v k q => ⟨fun hclosed => ?_, fun hnone => ?_, fun hwindow hd hx => ?_, fun hwindow => ?_⟩⟩
  · exact step_of_wait (runEnded_of_blocked hs hh hb) (syncCheck_blocked hs hb hw)
  · refine step_of_mayCycle ⟨hh, hr, ht, syncCheck_of_early fun z hz => ?_⟩
    obtain rfl := Option.some.inj (hs.symm.trans hz)
    exact ⟨hb, hd⟩
  · simp [windowRequest, windowDevice, hopen, hclosed]
  · have hno : isRequestBit d b s = false := Bool.eq_false_iff.2 fun hbit => by
      obtain ⟨_, x, hx, hmem⟩ := (isRequestBit_iff d b s).1 hbit
      exact hnone x hx hmem
    simp [windowRequest, hno]
  · have hbit := (isRequestBit_iff d b s).2 ⟨by simpa [isSfrAddr] using hd, hx⟩
    refine ⟨_, windowRequest_of_open v (hopen.trans hwindow) hbit, rfl, ?_, fun j => ?_⟩
    · exact sfrsKept_setSfr (sfrsKept_refl _ s) (by simp) _
    · show bitOf (sfrGet d (setSfr d _ s)) j = _
      rw [sfrGet_setSfr, if_pos rfl, bitOf_withBit]
  · refine ⟨_, by rw [windowDevice, if_pos (hopen.trans hwindow)], rfl, fun j hj => ?_, fun p hp => ?_⟩
    · simp [hj.symm]
    · refine ⟨withStateOf q p, by simp [hp], rfl, rfl, rfl, rfl, rfl, fun hchanges => ?_⟩
      simpa [outputChanges, hp, withStateOf] using .inr hchanges

end Sys2Proof.Machine
end

section
/-! PROOFS. The loader (70_reset_and_hazards.md R710, R712). -/

namespace Sys2Proof.Machine

/-! ### One record -/

/-- The words of a record: `ll` data bytes and a checksum stand after its head, and the bytes add up to 0 (R710). -/
def wholeRecord (ll ah al tt : Byte) (rest : List Byte) : Prop :=
  rest.length = ll.toNat + 1 ∧ byteSum (ll :: ah :: al :: tt :: rest) % 256 = 0

/-- The data bytes of a record lie inside code memory. -/
def insideCode (n : Nat) (ll ah al : Byte) : Prop := ll.toNat = 0 ∨ (ah ++ al).toNat + ll.toNat ≤ n

section

variable {n : Nat} {m m' : Memory} {ll ah al tt : Byte} {rest : List Byte}

theorem applyRecord_of_data (h : wholeRecord ll ah al 0 rest) (hin : insideCode n ll ah al) :
    applyRecord n m (ll :: ah :: al :: 0 :: rest) =
      .ok (.more (Memory.writeBytes codeErased m (ah ++ al).toNat (rest.take ll.toNat))) := by
  unfold insideCode at hin
  rw [applyRecord, if_neg (not_not.2 h.1), if_neg (not_not.2 h.2), if_pos rfl, if_neg (by omega)]

theorem applyRecord_of_end (h : wholeRecord ll ah al 1 rest) :
    applyRecord n m (ll :: ah :: al :: 1 :: rest) = .ok .done := by
  rw [applyRecord, if_neg (not_not.2 h.1), if_neg (not_not.2 h.2), if_neg (by decide), if_pos rfl]

theorem applyRecord_of_badType (h : wholeRecord ll ah al tt rest) (h0 : tt ≠ 0) (h1 : tt ≠ 1) :
    applyRecord n m (ll :: ah :: al :: tt :: rest) = .error .badType := by
  rw [applyRecord, if_neg (not_not.2 h.1), if_neg (not_not.2 h.2), if_neg h0, if_neg h1]

theorem applyRecord_of_badChecksum (hlen : rest.length = ll.toNat + 1)
    (hsum : byteSum (ll :: ah :: al :: tt :: rest) % 256 ≠ 0) :
    applyRecord n m (ll :: ah :: al :: tt :: rest) = .error .badChecksum := by
  rw [applyRecord, if_neg (by simp [hlen]), if_pos hsum]

/-- Everything a record that is no load error can be: a whole type-0 record inside code memory, or a whole type-1 record. -/
theorem applyRecord_ok {bs : List Byte} {r : RecordResult} (h : applyRecord n m bs = .ok r) :
    ∃ ll ah al tt rest, bs = ll :: ah :: al :: tt :: rest ∧ wholeRecord ll ah al tt rest ∧
      ((tt = 0 ∧ insideCode n ll ah al ∧
          r = .more (Memory.writeBytes codeErased m (ah ++ al).toNat (rest.take ll.toNat))) ∨
        (tt = 1 ∧ r = .done)) := by
  unfold applyRecord at h
  split at h
  case h_2 => cases h
  case h_1 ll ah al tt rest =>
  split at h
  · cases h
  next hlen =>
  split at h
  · cases h
  next hsum =>
  refine ⟨ll, ah, al, tt, rest, rfl, ⟨not_not.1 hlen, not_not.1 hsum⟩, ?_⟩
  split at h
  · next htype =>
    split at h
    · cases h
    · next hin => cases h; exact .inl ⟨htype, by unfold insideCode; omega, rfl⟩
  · split at h
    · next htype => cases h; exact .inr ⟨htype, rfl⟩
    · cases h

/-- The record is a load error unless it is taken. -/
theorem applyRecord_error {bs : List Byte} (h : ∀ r, applyRecord n m bs ≠ .ok r) : ∃ e, applyRecord n m bs = .error e := by
  cases hr : applyRecord n m bs with
  | error e => exact ⟨e, rfl⟩
  | ok r => exact absurd hr (h r)

/-- What a taken record is, by its bytes. -/
theorem applyRecord_cons_ok {r : RecordResult} (h : applyRecord n m (ll :: ah :: al :: tt :: rest) = .ok r) :
    wholeRecord ll ah al tt rest ∧
      ((tt = 0 ∧ insideCode n ll ah al ∧
          r = .more (Memory.writeBytes codeErased m (ah ++ al).toNat (rest.take ll.toNat))) ∨
        (tt = 1 ∧ r = .done)) := by
  obtain ⟨_, _, _, _, _, heq, hwhole, hcase⟩ := applyRecord_ok h
  simp only [List.cons.injEq] at heq
  obtain ⟨rfl, rfl, rfl, rfl, rfl⟩ := heq
  exact ⟨hwhole, hcase⟩

/-- What a taken type-0 record stores: its data bytes from its address on, and nothing else. -/
theorem applyRecord_more (h : applyRecord n m (ll :: ah :: al :: tt :: rest) = .ok (.more m')) :
    tt = 0 ∧ rest.length = ll.toNat + 1 ∧
      (∀ j, j < ll.toNat → (ah ++ al).toNat + j < n ∧
        Memory.read codeErased m' ((ah ++ al).toNat + j) = rest.getD j 0) ∧
      ∀ a, a < (ah ++ al).toNat ∨ (ah ++ al).toNat + ll.toNat ≤ a →
        Memory.read codeErased m' a = Memory.read codeErased m a := by
  obtain ⟨⟨hlen, _⟩, ⟨htype, hin, hmore⟩ | ⟨_, hdone⟩⟩ := applyRecord_cons_ok h
  · obtain rfl := RecordResult.more.inj hmore
    have htake : (rest.take ll.toNat).length = ll.toNat := by rw [List.length_take]; omega
    unfold insideCode at hin
    refine ⟨htype, hlen, fun j hj => ⟨by omega, ?_⟩, fun a ha => ?_⟩
    · rw [Memory.read_writeBytes, if_pos (by omega), Nat.add_sub_cancel_left, List.getD_eq_getElem?_getD,
        List.getD_eq_getElem?_getD, List.getElem?_take_of_lt hj]
    · rw [Memory.read_writeBytes, if_neg (by omega)]
  · cases hdone

/-! ### A whole load -/

/-- Code memory after the data records, stored in order. -/
def storeRecords (rs : List (Nat × List Byte)) (m : Memory) : Memory :=
  rs.foldl (fun m r => Memory.writeBytes codeErased m r.1 r.2) m

/-- A line that is taken is a colon and the bytes of a record. -/
theorem loadLine_ok {l : List Char} {r : RecordResult} (h : loadLine n m (stripReturn l) = .ok r) :
    ∃ bs, lineBytes l = some bs ∧ applyRecord n m bs = .ok r := by
  unfold loadLine at h
  split at h
  · next digits hl =>
    have hline : lineBytes l = hexBytes digits := by simp only [lineBytes, hl]
    split at h
    · cases h
    · next bs hbs => exact ⟨bs, hline.trans hbs, h⟩
  · cases h

/-- Everything the first line of a successful load can be: a blank line, the type-1 record, or a data record. -/
theorem loadLines_cons_ok {l : List Char} {ls : List (List Char)} (h : loadLines n (l :: ls) m = .ok m') :
    (dataRecords (l :: ls) = dataRecords ls ∧ loadLines n ls m = .ok m') ∨
    (dataRecords (l :: ls) = [] ∧ m' = m ∧ ∃ bs, lineBytes l = some bs ∧ bs[3]? = some 1) ∨
    ∃ r, dataRecords (l :: ls) = r :: dataRecords ls ∧
      loadLines n ls (Memory.writeBytes codeErased m r.1 r.2) = .ok m' := by
  unfold loadLines at h
  split at h
  · next hblank =>
    have hnone : lineBytes l = none := by rw [lineBytes, List.isEmpty_iff.1 hblank]
    exact .inl ⟨by rw [dataRecords, hnone], h⟩
  · split at h
    · cases h
    · next hdone =>
      cases h
      obtain ⟨bs, hline, hrecord⟩ := loadLine_ok hdone
      obtain ⟨_, _, _, _, _, rfl, _, ⟨_, _, hmore⟩ | ⟨rfl, _⟩⟩ := applyRecord_ok hrecord
      · cases hmore
      · exact .inr (.inl ⟨by simp [dataRecords, hline], rfl, _, hline, rfl⟩)
    · next m1 hmore =>
      obtain ⟨bs, hline, hrecord⟩ := loadLine_ok hmore
      obtain ⟨ll, ah, al, _, body, rfl, _, ⟨rfl, _, hm1⟩ | ⟨_, hdone⟩⟩ := applyRecord_ok hrecord
      · obtain rfl := RecordResult.more.inj hm1
        exact .inr (.inr ⟨((ah ++ al).toNat, body.take ll.toNat), by simp [dataRecords, hline], h⟩)
      · cases hdone

/-- A successful load has met a type-1 record. -/
theorem endRecord_of_loadLines {ls : List (List Char)} (h : loadLines n ls m = .ok m') :
    ∃ l ∈ ls, ∃ bs, lineBytes l = some bs ∧ bs[3]? = some 1 := by
  induction ls generalizing m with
  | nil => cases h
  | cons l ls ih =>
    rcases loadLines_cons_ok h with ⟨_, hrest⟩ | ⟨_, _, hend⟩ | ⟨_, _, hrest⟩
    · obtain ⟨k, hk, hend⟩ := ih hrest
      exact ⟨k, List.mem_cons_of_mem _ hk, hend⟩
    · exact ⟨l, List.mem_cons_self, hend⟩
    · obtain ⟨k, hk, hend⟩ := ih hrest
      exact ⟨k, List.mem_cons_of_mem _ hk, hend⟩

/-- A successful load stores the data records before the type-1 record, in order, and nothing else. -/
theorem loadLines_ok {ls : List (List Char)} (h : loadLines n ls m = .ok m') : m' = storeRecords (dataRecords ls) m := by
  induction ls generalizing m with
  | nil => cases h
  | cons l ls ih =>
    rcases loadLines_cons_ok h with ⟨hrecords, hrest⟩ | ⟨hrecords, hsame, _⟩ | ⟨r, hrecords, hrest⟩
    · rw [hrecords]; exact ih hrest
    · rw [hrecords]; exact hsame
    · rw [hrecords]; exact ih hrest

/-- A code byte that no record covers stays. -/
theorem read_storeRecords_of_uncovered {rs : List (Nat × List Byte)} {a : Nat} (h : ∀ r ∈ rs, ¬ covers a r) :
    ∀ m, Memory.read codeErased (storeRecords rs m) a = Memory.read codeErased m a := by
  induction rs with
  | nil => exact fun _ => rfl
  | cons r rs ih =>
    intro m
    obtain ⟨hr, hrs⟩ := List.forall_mem_cons.1 h
    calc Memory.read codeErased (storeRecords rs (Memory.writeBytes codeErased m r.1 r.2)) a
        = Memory.read codeErased (Memory.writeBytes codeErased m r.1 r.2) a := ih hrs _
      _ = Memory.read codeErased m a := by rw [Memory.read_writeBytes]; exact if_neg hr

/-- A code byte is that of the last record that covers it. -/
theorem read_storeRecords_of_last {before behind : List (Nat × List Byte)} {r : Nat × List Byte} {a : Nat}
    (h : covers a r) (hlast : ∀ q ∈ behind, ¬ covers a q) (m : Memory) :
    Memory.read codeErased (storeRecords (before ++ r :: behind) m) a = r.2.getD (a - r.1) 0 := by
  have hsplit : storeRecords (before ++ r :: behind) m =
      storeRecords behind (Memory.writeBytes codeErased (storeRecords before m) r.1 r.2) := List.foldl_append ..
  rw [hsplit, read_storeRecords_of_uncovered hlast, Memory.read_writeBytes]
  exact if_pos h

end

/-- Settles O60: one record by the checks it passes, a load by the data records it stores. -/
theorem loaderRecords : Obligations.LoaderRecords := by
  unfold Obligations.LoaderRecords
  refine ⟨fun n m ll ah al tt rest sum hsum => ?_, fun n m text => ⟨fun hnoEnd => ?_, fun m' hload a => ?_⟩⟩
  · have hbytes : byteSum (ll :: ah :: al :: tt :: rest) = sum := by
      simp only [hsum, byteSum, List.map_cons, List.sum_cons]; omega
    refine ⟨fun hlen hzero => ?_, fun m' h => applyRecord_more h, fun hlen hbad => ?_, fun hlen => ?_,
      fun j hj hout htype => ?_⟩
    · have hwhole : wholeRecord ll ah al tt rest := ⟨hlen, by rw [hbytes, hzero]⟩
      refine ⟨fun htype hin => ?_, fun htype => ?_, applyRecord_of_badType hwhole⟩
      · subst htype
        exact ⟨_, applyRecord_of_data hwhole (hin.imp (fun h => by rw [h]; rfl) id)⟩
      · subst htype
        exact applyRecord_of_end hwhole
    · exact applyRecord_of_badChecksum hlen (by rwa [hbytes])
    · exact applyRecord_error fun r hr => hlen (applyRecord_cons_ok hr).1.1
    · refine applyRecord_error fun r hr => ?_
      obtain ⟨_, ⟨_, hin, _⟩ | ⟨h1, _⟩⟩ := applyRecord_cons_ok hr
      · unfold insideCode at hin
        omega
      · rw [htype] at h1
        cases h1
  · cases hload : loadHex n text m with
    | error e => exact ⟨e, rfl⟩
    | ok m' =>
      obtain ⟨l, hl, bs, hline, hend⟩ := endRecord_of_loadLines hload
      exact absurd hend (hnoEnd l hl bs hline)
  · rw [loadLines_ok hload]
    refine ⟨fun hnone => read_storeRecords_of_uncovered hnone m, fun r before behind hrecords hcovers hlast => ?_⟩
    rw [hrecords]
    exact read_storeRecords_of_last hcovers hlast m

end Sys2Proof.Machine
end

section
/-! PROOFS. The full CPU reset (10_state.md R70, 70_reset_and_hazards.md R700). -/

namespace Sys2Proof.Machine

/-- The SFR file `m` after a list of stores, in order. -/
def storeSfrs (ps : List (Byte × Byte)) (m : Memory) : Memory :=
  ps.foldl (fun m p => Memory.write unspecByte m p.1.toNat p.2) m

/-- An SFR that no store names stays. -/
theorem read_storeSfrs_of_not_mem {ps : List (Byte × Byte)} {d : Byte} (h : d ∉ ps.map Prod.fst) :
    ∀ m, Memory.read unspecByte (storeSfrs ps m) d.toNat = Memory.read unspecByte m d.toNat := by
  induction ps with
  | nil => exact fun _ => rfl
  | cons p ps ih =>
    intro m
    obtain ⟨hp, hps⟩ := not_or.1 (mt List.mem_cons.2 h)
    have hne : d.toNat ≠ p.1.toNat := fun he => hp (BitVec.eq_of_toNat_eq he)
    calc Memory.read unspecByte (storeSfrs ps (Memory.write unspecByte m p.1.toNat p.2)) d.toNat
        = Memory.read unspecByte (Memory.write unspecByte m p.1.toNat p.2) d.toNat := ih hps _
      _ = Memory.read unspecByte m d.toNat := by rw [Memory.read_write, if_neg hne]

/-- Of stores to distinct SFRs each is read back. -/
theorem read_storeSfrs_of_mem {ps : List (Byte × Byte)} (hnodup : (ps.map Prod.fst).Nodup) {d v : Byte}
    (h : (d, v) ∈ ps) : ∀ m, Memory.read unspecByte (storeSfrs ps m) d.toNat = v := by
  induction ps with
  | nil => simp at h
  | cons p ps ih =>
    intro m
    obtain ⟨hfresh, hrest⟩ := List.nodup_cons.1 hnodup
    rcases List.mem_cons.1 h with rfl | hmem
    · exact (read_storeSfrs_of_not_mem hfresh _).trans (by rw [Memory.read_write, if_pos rfl])
    · exact ih hrest hmem _

/-- The SFRs for which R70 lists a value are distinct. -/
theorem resetSfrs_nodup {c : Config} (h : c.wellFormed = true) : ((resetSfrs c).map Prod.fst).Nodup :=
  (List.nodup_append_comm (l₁ := [0xA8, 0x80, 0x90, 0xA0, 0xB0])).1 (listedSfrs_nodup h)

/-- A reset leaves every SFR that R70 lists at its value. -/
theorem sfrGet_cpuReset {s : State} (h : s.cfg.wellFormed = true) {d v : Byte} (hd : (d, v) ∈ resetSfrs s.cfg) :
    sfrGet d (cpuReset s) = v := by
  have hfile : (cpuReset s).sfr =
      storeSfrs (resetSfrs s.cfg) (storeSfrs (s.cfg.sfrReset.filter fun p => isSfrAddr p.1) []) := List.foldl_append ..
  rw [sfrGet, hfile]
  exact read_storeSfrs_of_mem (resetSfrs_nodup h) hd _

/-- A reset leaves no operation of a peripheral under way, and no Deadline before INF. -/
theorem cpuReset_peripheral {s : State} {p : Peripheral} (h : p ∈ (cpuReset s).peripherals) :
    p.operations = [] ∧ ∀ w ∈ p.deadlines, w = Tick.inf := by
  obtain ⟨q, _, rfl⟩ := List.mem_map.1 h
  refine ⟨rfl, fun w hw => ?_⟩
  obtain ⟨_, _, rfl⟩ := List.mem_map.1 hw
  rfl

/-- Settles O51: the fields by the definition of the reset, the SFRs by the list of their values. -/
theorem resetLeavesListedValues : Obligations.ResetLeavesListedValues := by
  unfold Obligations.ResetLeavesListedValues
  intro s t hwf ht
  subst ht
  have hvalue : ∀ {d v : Byte}, (d, v) ∈ resetSfrs s.cfg → sfrGet d (cpuReset s) = v := sfrGet_cpuReset hwf
  refine ⟨⟨rfl, rfl, rfl, rfl, rfl, rfl, rfl, rfl, rfl⟩, ?_, ?_, fun p hp => cpuReset_peripheral hp⟩
  · refine ⟨?_, ?_, ?_, ?_, ?_, ?_, ?_, ?_, ?_, ?_⟩ <;> exact hvalue (by simp [resetSfrs])
  · refine ⟨?_, ?_, ?_, ?_⟩ <;> exact hvalue (by simp [resetSfrs])

end Sys2Proof.Machine
end

section
/-! PROOFS. Deadlines, self-timed operations, the hardware tick and the shared bus (60_exceptions.md R543 to R547, R561 to
R566). -/

namespace Sys2Proof.Machine

/-! ### Deadlines (R543 to R547) -/

theorem deadlineSet_toNat (w t : Tick) : (deadlineSet w t).toNat = min w.toNat t.toNat := by
  unfold deadlineSet
  split
  · next h => rw [BitVec.lt_def] at h; omega
  · next h => rw [BitVec.lt_def] at h; omega

theorem deadlinePassed_iff (now w : Tick) : deadlinePassed now w = true ↔ w.toNat ≤ now.toNat := by
  rw [deadlinePassed, decide_eq_true_eq, BitVec.le_def]

theorem deadlineRemaining_toNat (now w : Tick) : (deadlineRemaining now w).toNat = w.toNat - now.toNat := by
  unfold deadlineRemaining
  split
  · next h => exact BitVec.toNat_sub_of_le (BitVec.le_of_lt h)
  · next h =>
    rw [BitVec.lt_def] at h
    show 0 = _
    omega

theorem completionTime_toNat (now : Tick) (duration : Nat) :
    (completionTime now duration).toNat = min (now.toNat + duration) (2 ^ 64 - 1) := by
  rw [completionTime, toNat_inf, BitVec.toNat_ofNat]
  omega

/-! ### Commands and reports (R515, R566) -/

/-- A command to a free resource starts its operation, and reports nothing. -/
theorem settle_command {now : Tick} {p : Peripheral} {e : DeviceEffect} {c : DeviceCommand}
    (h : ∀ o ∈ (settle now p e).peripheral.operations, o.resource ≠ c.resource) (starts : DeviceChange) :
    (settle now p (e ++ [.command c starts])).peripheral.operations =
        (settle now p e).peripheral.operations ++ [⟨c.resource, completionTime now c.duration⟩] ∧
      (settle now p (e ++ [.command c starts])).faults = (settle now p e).faults := by
  have hfree : resourceBusy (settle now p e).peripheral c = false := by
    simpa [resourceBusy] using h
  rw [settle_concat, settleAction, if_neg (by simp [hfree])]
  exact ⟨rfl, rfl⟩

/-- A fault of an effect, or a command to a busy resource, only reports. -/
theorem settleAction_reports {now : Tick} {f : Settled} {a : DeviceAction} {kind : FaultKind} {detail : List Byte}
    (h : (∃ x, a = .report x detail ∧ kind = peripheralFaultKind x) ∨
      ∃ c starts o, a = .command c starts ∧ o ∈ f.peripheral.operations ∧ o.resource = c.resource ∧
        kind = .peripheralBusy ∧ detail = c.detail) :
    settleAction now f a = settleFault kind detail f := by
  rcases h with ⟨x, rfl, rfl⟩ | ⟨c, starts, o, rfl, ho, hresource, rfl, rfl⟩
  · rfl
  · have hbusy : resourceBusy f.peripheral c = true := List.any_eq_true.2 ⟨o, ho, by simp [hresource]⟩
    rw [settleAction, if_pos hbusy]

/-! ### One peripheral's turn (R562, R566) -/

theorem due_iff (s : State) (p : Peripheral) : due s p = true ↔ ∃ w ∈ p.wakeTimes, w ≤ s.ticks := by
  simp [due, deadlinePassed]

theorem due_of_operation {s : State} {p : Peripheral} {o : Operation} (ho : o ∈ p.operations) (h : o.wakeAt ≤ s.ticks) :
    due s p = true :=
  (due_iff s p).2 ⟨o.wakeAt, List.mem_append_right _ (List.mem_map_of_mem ho), h⟩

theorem tickPeripheral_of_turn {attention : Bool} {s : State} {k : Nat} {p : Peripheral}
    (hp : s.peripherals[k]? = some p) (h : attention = true ∨ due s p = true) :
    tickPeripheral attention s k =
      applyEffect k (completed s.ticks p) ((tickRoutine p s).map withoutAttention) (completeOperations k s) := by
  rw [tickPeripheral, hp]
  exact if_pos (by simpa using h)

theorem tickPeripheral_of_idle {s : State} {k : Nat} {p : Peripheral} (hp : s.peripherals[k]? = some p)
    (h : due s p = false) : tickPeripheral false s k = s := by
  rw [tickPeripheral, hp]
  exact if_neg (by simp [h])

/-- The operations that the turn leaves under way. -/
theorem completed_operations (now : Tick) (p : Peripheral) :
    (completed now p).operations = p.operations.filter fun o => decide (now < o.wakeAt) := by
  refine List.filter_congr fun o _ => ?_
  rw [deadlinePassed, ← decide_not]
  exact decide_eq_decide.2 BitVec.not_le

/-- A command of a tick routine is one that it makes without asking for attention. -/
theorem command_of_withoutAttention {e : DeviceEffect} {c : DeviceCommand} {x : DeviceChange}
    (h : .command c x ∈ e.map withoutAttention) : ∃ y, .command c y ∈ e := by
  obtain ⟨a, ha, heq⟩ := List.mem_map.1 h
  cases a with
  | report k d => cases heq
  | change g => cases heq
  | command b y =>
    obtain ⟨rfl, _⟩ := DeviceAction.command.inj heq
    exact ⟨y, ha⟩

/-- The turn of a peripheral ends its passed operations and starts those of its commands. -/
theorem operations_of_turn {attention : Bool} {s : State} {k : Nat} {p : Peripheral} (hp : s.peripherals[k]? = some p)
    (h : attention = true ∨ due s p = true) :
    ∃ q new, (tickPeripheral attention s k).peripherals[k]? = some q ∧
      q.operations = (p.operations.filter fun o => decide (s.ticks < o.wakeAt)) ++ new ∧
      ∀ o ∈ new, ∃ c starts, .command c starts ∈ tickRoutine p s ∧ o.resource = c.resource ∧
        o.wakeAt.toNat = min (s.ticks.toNat + c.duration) (2 ^ 64 - 1) := by
  obtain ⟨new, hnew, hcommands⟩ :=
    settle_operations s.ticks (completed s.ticks p) ((tickRoutine p s).map withoutAttention)
  refine ⟨_, new, by rw [tickPeripheral_of_turn hp h, applyEffect_get (completeOperations_get hp)], ?_, fun o ho => ?_⟩
  · rw [completeOperations_ticks, hnew, completed_operations]
  · obtain ⟨c, x, hmem, rfl⟩ := hcommands o ho
    obtain ⟨starts, hstarts⟩ := command_of_withoutAttention hmem
    exact ⟨c, starts, hstarts, rfl, completionTime_toNat _ _⟩

/-- Settles O50: Deadlines by their values, effects by what they settle to. -/
theorem deadlineOperations : Obligations.DeadlineOperations := by
  unfold Obligations.DeadlineOperations
  refine ⟨fun w t now later => ⟨deadlineSet_toNat w t, rfl, rfl, deadlinePassed_iff now w, deadlineRemaining_toNat now w,
    fun hlater => ⟨?_, fun hpassed => ?_⟩, fun hnow => ?_⟩, fun k p s hp => ⟨applyEffect_nil hp,
    fun e c starts q hq hfree => ?_, fun before after a kind detail h => ?_, fun hpassed => ?_,
    fun attention h => operations_of_turn hp h⟩⟩
  · rw [BitVec.le_def] at hlater ⊢
    rw [deadlineRemaining_toNat, deadlineRemaining_toNat, deadlineSet_toNat]
    omega
  · rw [deadlinePassed_iff] at hpassed ⊢
    exact hpassed.trans (BitVec.le_def.1 hlater)
  · rw [BitVec.lt_def] at hnow
    exact Bool.eq_false_iff.2 fun hpassed => by
      rw [deadlinePassed_iff] at hpassed
      omega
  · obtain rfl := Option.some.inj ((applyEffect_get hp e).symm.trans hq)
    obtain ⟨hoperations, hfaults⟩ := settle_command hfree starts
    refine ⟨_, _, applyEffect_get hp _, hoperations, rfl, completionTime_toNat _ _, ?_⟩
    show s.faults ++ deviceFaults _ s = s.faults ++ deviceFaults _ s
    rw [deviceFaults, deviceFaults, hfaults]
  · refine applyEffect_report (settleAction_reports (h.imp id ?_)) after
    rintro ⟨c, starts, q, o, ha, hq, ho, hrest⟩
    obtain rfl := Option.some.inj ((applyEffect_get hp before).symm.trans hq)
    exact ⟨c, starts, o, ha, ho, hrest⟩
  · obtain ⟨o, ho, hle⟩ := hpassed
    exact due_of_operation ho hle

/-! ### The turns of the hardware tick (R562) -/

/-- The state after the turns of the first `k` peripherals. -/
def afterTurns (attention : Bool) (s : State) (k : Nat) : State := (List.range k).foldl (tickPeripheral attention) s

theorem afterTurns_succ (attention : Bool) (s : State) (k : Nat) :
    afterTurns attention s (k + 1) = tickPeripheral attention (afterTurns attention s k) k := by
  rw [afterTurns, List.range_succ, List.foldl_append]
  rfl

/-- A turn leaves the clock, need_hw_tick and the peripherals whose turn is still to come. -/
theorem afterTurns_keeps (attention : Bool) (s : State) (k : Nat) :
    (afterTurns attention s k).ticks = s.ticks ∧ (afterTurns attention s k).needHwTick = s.needHwTick ∧
      ∀ j, k ≤ j → (afterTurns attention s k).peripherals[j]? = s.peripherals[j]? := by
  induction k with
  | zero => exact ⟨rfl, rfl, fun _ _ => rfl⟩
  | succ k ih =>
    obtain ⟨hticks, hneed, hlater⟩ := ih
    obtain ⟨⟨fs, hframe, _, _, hother, _, _⟩, hneed'⟩ := tickPeripheral_bounded attention k (afterTurns attention s k)
    rw [afterTurns_succ]
    exact ⟨by rw [hframe]; exact hticks, hneed'.trans hneed,
      fun j hj => (hother j (by omega)).trans (hlater j (by omega))⟩

/-- A hardware tick that is asked for, or that some peripheral is due for. -/
theorem hardwareTick_of_work {s : State}
    (h : s.needHwTick = true ∨ ∃ p ∈ s.peripherals, ∃ w ∈ p.wakeTimes, w ≤ s.ticks) :
    hardwareTick s = deriveBus (afterTurns s.needHwTick { s with needHwTick := false } s.peripherals.length) := by
  refine if_pos (Bool.or_eq_true_iff.2 (h.imp id ?_))
  rintro ⟨p, hp, hdue⟩
  exact List.any_eq_true.2 ⟨p, hp, (due_iff s p).2 hdue⟩

/-- The states between the turns, before the first and after the last among them. -/
def turnStates (attention : Bool) (s : State) : List State :=
  (List.range (s.peripherals.length + 1)).map (afterTurns attention s)

theorem turnStates_get {attention : Bool} {s u : State} {k : Nat} (h : (turnStates attention s)[k]? = some u) :
    u = afterTurns attention s k := by
  rw [turnStates, List.getElem?_map, Option.map_eq_some_iff] at h
  obtain ⟨j, hj, rfl⟩ := h
  obtain ⟨_, rfl⟩ := List.getElem?_eq_some_iff.1 hj
  rw [List.getElem_range]

/-- The turn of peripheral `k`, from the state `u` before it: its tick routine runs when attention is asked for or a
Deadline has passed. -/
theorem turn_of_peripheral {attention : Bool} {s u v : State} {k : Nat} {p : Peripheral}
    (hu : (turnStates attention s)[k]? = some u) (hv : (turnStates attention s)[k + 1]? = some v)
    (hp : s.peripherals[k]? = some p) :
    u.peripherals[k]? = some p ∧
      (attention = true ∨ (∃ w ∈ p.wakeTimes, w ≤ s.ticks) →
        v = applyEffect k (completed s.ticks p) ((tickRoutine p u).map withoutAttention) (completeOperations k u)) ∧
      (attention = false → (∀ w ∈ p.wakeTimes, s.ticks < w) → v = u) := by
  obtain rfl := turnStates_get hu
  obtain rfl := turnStates_get hv
  obtain ⟨hticks, _, hlater⟩ := afterTurns_keeps attention s k
  have hpu := (hlater k (Nat.le_refl k)).trans hp
  rw [afterTurns_succ, ← hticks]
  refine ⟨hpu, fun h => tickPeripheral_of_turn hpu (h.imp id (due_iff _ p).2), fun hoff hidle => ?_⟩
  rw [hoff] at hpu hidle ⊢
  exact tickPeripheral_of_idle hpu (due_eq_false hidle)

/-! ### The shared bus (R565) -/

theorem mem_busDrivers (s : State) (k : Nat) :
    k ∈ busDrivers s ↔ ∃ p, s.peripherals[k]? = some p ∧ p.outEnable = true := by
  rw [busDrivers, List.mem_filter, List.mem_range]
  cases hp : s.peripherals[k]? with
  | none => simp
  | some p => simpa using fun _ => (List.getElem?_eq_some_iff.1 hp).1

theorem busDrivers_of_none {s : State} (h : ∀ p ∈ s.peripherals, p.outEnable = false) : busDrivers s = [] := by
  refine List.eq_nil_iff_forall_not_mem.2 fun k hk => ?_
  obtain ⟨p, hp, hon⟩ := (mem_busDrivers s k).1 hk
  simp [h p (List.mem_of_getElem? hp)] at hon

theorem busDrivers_nodup (s : State) : (busDrivers s).Nodup := List.nodup_range.filter _

theorem busDrivers_of_one {s : State} {k : Nat} (hk : k ∈ busDrivers s) (h : ∀ j ∈ busDrivers s, j = k) :
    busDrivers s = [k] := by
  refine List.perm_singleton.1 ((List.perm_ext_iff_of_nodup (busDrivers_nodup s) (List.nodup_singleton k)).2 fun j => ?_)
  rw [List.mem_singleton]
  exact ⟨h j, fun hj => hj ▸ hk⟩

theorem deriveBus_of_one {s : State} {k : Nat} {p : Peripheral} (hp : s.peripherals[k]? = some p)
    (h : busDrivers s = [k]) : deriveBus s = { s with bus := p.outByte } := by
  simp [deriveBus, h, hp]

theorem deriveBus_of_idle {s : State} {v : Byte} (h : busDrivers s = []) (hv : s.cfg.busIdle = some v) :
    deriveBus s = { s with bus := v } := by
  simp [deriveBus, h, hv]

theorem deriveBus_of_floating {s : State} (h : busDrivers s = []) (hv : s.cfg.busIdle = none) :
    deriveBus s = { s with bus := (deriveBus s).bus, freeCount := (deriveBus s).freeCount } := by
  have hderive : deriveBus s = { (draw s).1 with bus := (draw s).2 } := by simp [deriveBus, h, hv]
  rw [hderive]
  rfl

/-- Two drivers are contention: of the drawn byte nothing is said. -/
theorem deriveBus_of_contention {s : State} {j k : Nat} (hjk : j ≠ k) (hj : j ∈ busDrivers s) (hk : k ∈ busDrivers s) :
    deriveBus s = { s with
      bus := (deriveBus s).bus, freeCount := (deriveBus s).freeCount,
      faults := s.faults ++ [⟨.busContention, s.previousPc, .drivers (busDrivers s)⟩] } := by
  have hderive : deriveBus s = { (draw (raise .busContention (.drivers (busDrivers s)) s)).1 with
      bus := (draw (raise .busContention (.drivers (busDrivers s)) s)).2 } := by
    match hb : busDrivers s with
    | [] => simp [hb] at hj
    | [a] =>
      rw [hb, List.mem_singleton] at hj hk
      exact absurd (hj.trans hk.symm) hjk
    | a :: b :: rest => simp [deriveBus, hb]
  rw [hderive]
  rfl

theorem deriveBus_needHwTick (s : State) : (deriveBus s).needHwTick = s.needHwTick := by
  unfold deriveBus
  split
  · split <;> rfl
  · rfl
  · rfl

/-- need_hw_tick is clear after the hardware tick. -/
theorem hardwareTick_needHwTick (s : State) : (hardwareTick s).needHwTick = false := by
  by_cases h : (s.needHwTick || s.peripherals.any (due s)) = true
  · rw [hardwareTick, if_pos h, deriveBus_needHwTick]
    exact (afterTurns_keeps s.needHwTick { s with needHwTick := false } s.peripherals.length).2.1
  · rw [hardwareTick, if_neg h]
    simp only [Bool.or_eq_true, not_or, Bool.not_eq_true] at h
    exact h.1

/-! ### Who asks for a hardware tick (R561, R565) -/

/-- A hardware tick is asked for, or the bus output of peripheral `k` is that of `p`. -/
def busAsked (k : Nat) (p : Peripheral) (t : State) : Prop :=
  t.needHwTick = true ∨ ∃ q, t.peripherals[k]? = some q ∧ q.outEnable = p.outEnable ∧ q.outByte = p.outByte

/-- An effect with the request of R565 asks for a hardware tick for a port, or when it changes the bus output. -/
theorem applyEffect_askingForBus {k : Nat} {p : Peripheral} {s : State} (hp : s.peripherals[k]? = some p)
    (port : Bool) (e : DeviceEffect) :
    (port = true → (applyEffect k p (askingForBus s.ticks p port e) s).needHwTick = true) ∧
      busAsked k p (applyEffect k p (askingForBus s.ticks p port e) s) := by
  obtain ⟨hperipheral, hattention⟩ := askingForBus_settled s.ticks p port e
  have hneed : (applyEffect k p (askingForBus s.ticks p port e) s).needHwTick =
      (s.needHwTick || (settle s.ticks p (askingForBus s.ticks p port e)).attention) := rfl
  rw [hattention] at hneed
  refine ⟨fun h => by rw [hneed, h]; simp, ?_⟩
  by_cases hsame : (settle s.ticks p e).peripheral.outEnable = p.outEnable ∧
      (settle s.ticks p e).peripheral.outByte = p.outByte
  · exact .inr ⟨_, applyEffect_get hp _, by rw [hperipheral]; exact hsame⟩
  · refine .inl ?_
    rw [hneed]
    have hchanged : ((settle s.ticks p e).peripheral.outEnable != p.outEnable ||
        (settle s.ticks p e).peripheral.outByte != p.outByte) = true := by
      simpa [← not_and_or] using hsame
    rw [hchanged]
    simp

theorem readHandler_busAsked {k : Nat} {p : Peripheral} {d : Byte} {s : State} (hp : s.peripherals[k]? = some p) :
    busAsked k p (applyEffect k p (readHandler p d s).1 s) := by
  have hnothing : busAsked k p (applyEffect k p [] s) := by
    rw [applyEffect_nil hp]
    exact .inr ⟨p, hp, rfl, rfl⟩
  unfold readHandler
  split
  · exact hnothing
  · split
    · exact (applyEffect_askingForBus hp _ _).2
    · exact hnothing

/-- A write handler makes the request of R565. -/
theorem writeHandler_asks (p : Peripheral) (d : Byte) (s : State) :
    ∃ e, writeHandler p d s = askingForBus s.ticks p (p.ports.contains d) e := ⟨_, rfl⟩

/-- A direct write of an owned SFR asks for a hardware tick for a port, or when it changes the bus output. -/
theorem dirWrite_busAsked {k : Nat} {p : Peripheral} {d : Byte} {s : State} (hd : 0x80#8 ≤ d)
    (howner : ownerOf d s = some (k, p)) (v : Byte) :
    (d ∈ p.ports → (dirWrite d v s).needHwTick = true) ∧ busAsked k p (dirWrite d v s) := by
  have hp : (setSfr d v s).peripherals[k]? = some p := (ownerOf_some howner).1
  obtain ⟨e, he⟩ := writeHandler_asks p d (setSfr d v s)
  obtain ⟨hport, hasked⟩ := applyEffect_askingForBus hp (p.ports.contains d) e
  rw [dirWrite_of_some hd howner, noteIrqSfr_eq, he]
  exact ⟨fun h => hport (by simpa using h), hasked⟩

/-- Settles O49: the turns in order, the bus by the number of its drivers, the requests by the handlers. -/
theorem hardwareTickAndBus : Obligations.HardwareTickAndBus := by
  unfold Obligations.HardwareTickAndBus
  intro s
  refine ⟨fun hneed hdue => hardwareTick_of_idle hneed hdue, fun hwork => ?_, hardwareTick_needHwTick s,
    fun k p hp hon honly => ?_, fun v hoff hv => deriveBus_of_idle (busDrivers_of_none hoff) hv,
    fun hoff hv => deriveBus_of_floating (busDrivers_of_none hoff) hv, fun j k p q hjk hp hq hpon hqon => ?_,
    fun d v k p t hd howner => ⟨fun ht => ?_, fun ht => ?_⟩⟩
  · refine ⟨turnStates s.needHwTick { s with needHwTick := false }, _, by simp [turnStates],
      by simp [turnStates, afterTurns], by rw [turnStates, List.range_succ, List.map_append]; exact List.getLast?_concat,
      hardwareTick_of_work hwork, fun k u v p hu hv hp =>
        turn_of_peripheral (s := { s with needHwTick := false }) hu hv hp⟩
  · have hk : k ∈ busDrivers s := (mem_busDrivers s k).2 ⟨p, hp, hon⟩
    refine deriveBus_of_one hp (busDrivers_of_one hk fun j hj => ?_)
    obtain ⟨q, hq, hqon⟩ := (mem_busDrivers s j).1 hj
    exact honly j q hq hqon
  · have hj : j ∈ busDrivers s := (mem_busDrivers s j).2 ⟨p, hp, hpon⟩
    have hk : k ∈ busDrivers s := (mem_busDrivers s k).2 ⟨q, hq, hqon⟩
    exact ⟨busDrivers s, hj, hk, mem_busDrivers s, deriveBus_of_contention (Nat.ne_of_lt hjk) hj hk⟩
  · rw [ht]
    exact (dirWrite_busAsked hd howner v).1
  · rcases ht with rfl | rfl
    · exact (dirWrite_busAsked hd howner v).2
    · rw [dirRead_of_some hd howner]
      exact readHandler_busAsked (ownerOf_some howner).1

end Sys2Proof.Machine
end
